-- ==== Sys2Proof/Word.lean ====
section
/-! DEFINITION. The words of the block (00_scope.md R5): a word has 32 bits, a byte 8, a node index 16. -/

namespace Sys2Proof

/-- A register word (R5). -/
abbrev Word := BitVec 32

/-- A byte: a symbol, a packed byte or a bit character (R3, R5). -/
abbrev Byte := BitVec 8

/-- A node index (R4: IDXW is fixed at 16). -/
abbrev NodeIdx := BitVec 16

end Sys2Proof
end

