-- ==== Sys2Proof/Config.lean ====
section
/-! DEFINITION. The parameters the spec leaves to the implementation (00_scope.md R4) and the one value it leaves
unspecified: the content of a node that nothing has written (10_state.md R16, 93_implementation_defined.md V6). -/

namespace Sys2Proof

/-- The implementation parameters of R4, as plain data that State carries unchanged (log entry 3).
HOST_ENDIAN, R4's fourth, is outside the block (20_memory.md R46). -/
structure Params where
  /-- NNODES: entries of the node memory. -/
  nnodes : Nat
  /-- OUTQ_DEPTH: capacity of the output queue, in bytes. -/
  outqDepth : Nat
  /-- BASE: byte address of the register window in the host's address space. -/
  base : Nat
deriving DecidableEq, Repr

/-- The legal ranges of R4. -/
abbrev Params.Legal (p : Params) : Prop :=
  2 ≤ p.nnodes ∧ p.nnodes ≤ 65536 ∧ 8 ≤ p.outqDepth ∧ p.outqDepth ≤ 65535 ∧ p.base % 256 = 0

/-- The defaults of R4; BASE has none there ("platform") and is 0 here (log entry 3, DESIGN CHOICE). -/
def Params.default : Params := { nnodes := 65536, outqDepth := 64, base := 0 }

/-- FREE VALUE (log entry 5): the 41 bits that node `i` holds before anything has written it.
No body, so no proof can see which bits they are (R16: "unspecified"; V6: "any value"). -/
opaque Config.unspecifiedNode : Nat → BitVec 41

end Sys2Proof
end

