-- ==== Sys2Proof/Syntax.lean ====
section
/-! DEFINITION. The block's instructions are host actions (30_encoding.md R60): one constructor of `Instr` per row of
opcode_table.json. Beside them: the values STATE can hold, the accesses a host can make, and the events of the host port. -/

namespace Sys2Proof

/-- The six values STATE can hold (10_state.md R11); 5 and 6 are never produced. -/
inductive Phase where
  | idle | load | entry | decode | unpack | error
deriving DecidableEq, Repr

/-- One host action that a row of the opcode table names. A written word is carried whole; which of its bits count is
the meaning's business (R67, R175). -/
inductive Instr where
  /-- CMD 0x00 (43_control_and_io.md R170). -/
  | nop
  /-- CMD 0x01 (41_tree_reconstructor.md R112). -/
  | tblBegin
  /-- CMD 0x02 (41_tree_reconstructor.md R114). -/
  | tblEntry
  /-- CMD 0x03 (42_decode_automaton.md R141). -/
  | decBegin
  /-- CMD 0x04 (40_bit_unpacker.md R95). -/
  | unpkBegin
  /-- CMD 0x05 (43_control_and_io.md R172). -/
  | abort
  /-- CMD 0x06 (43_control_and_io.md R173). -/
  | softReset
  /-- DIN written in state ENTRY (41_tree_reconstructor.md R118). -/
  | dinEntry (v : Word)
  /-- DIN written in state DECODE (42_decode_automaton.md R143). -/
  | dinDecode (v : Word)
  /-- DIN written in state UNPACK (40_bit_unpacker.md R96). -/
  | dinUnpack (v : Word)
  /-- DIN written in state IDLE or LOAD (43_control_and_io.md R177). -/
  | dinUnexpected (v : Word)
  /-- DOUT read (43_control_and_io.md R174). -/
  | doutPop
  /-- ARG0 written (43_control_and_io.md R175). -/
  | wArg0 (v : Word)
  /-- ARG1 written (R175). -/
  | wArg1 (v : Word)
  /-- INTEN written (R175). -/
  | wInten (v : Word)
  /-- NODEIDX written (R175). -/
  | wNodeidx (v : Word)
  /-- CONFIG read (43_control_and_io.md R176; layout 30_encoding.md R70). -/
  | rConfig
  /-- STATUS read (R176; layout R62). -/
  | rStatus
  /-- ERR read (R176; layout R63). -/
  | rErr
  /-- ERRINFO read (R176; R63). -/
  | rErrinfo
  /-- INTEN read (R176; R69). -/
  | rInten
  /-- ARG0 read (R176). -/
  | rArg0
  /-- ARG1 read (R176). -/
  | rArg1
  /-- BITCNT read (R176). -/
  | rBitcnt
  /-- OUTCNT read (R176). -/
  | rOutcnt
  /-- POS read (R176). -/
  | rPos
  /-- NODECNT read (R176). -/
  | rNodecnt
  /-- NODEIDX read (R176). -/
  | rNodeidx
  /-- NODEDAT0 read (R176; R71). -/
  | rNodedat0
  /-- NODEDAT1 read (R176; R71). -/
  | rNodedat1
deriving DecidableEq, Repr

/-- One access of the host to the window: its byte address, how many bytes it transfers, and for a write the word.
The address is the host's whole address; the block looks at its bits [7:0] alone (20_memory.md R41, log entry 10). -/
inductive Access where
  | write (addr width : Nat) (v : Word)
  | read (addr width : Nat)
deriving DecidableEq, Repr

/-- The byte address of an access. -/
def Access.addr : Access → Nat
  | .write a _ _ => a
  | .read a _ => a

/-- The number of bytes an access transfers. -/
def Access.width : Access → Nat
  | .write _ n _ => n
  | .read _ n => n

/-- What reaches the block from outside: an access, or the reset input, which cuts off the action in flight if there
is one (70_reset_and_hazards.md R241, log entry 9). -/
inductive HostEvent where
  | access (a : Access)
  | resetInput (inFlight : Option Access)
deriving DecidableEq, Repr

/-- What the host port has answered to the last event (log entry 2). -/
inductive Answer where
  /-- Nothing answered yet (after the reset input). -/
  | none
  /-- A write was accepted. -/
  | done
  /-- A read returned this word. -/
  | data (w : Word)
  /-- The port's error response (20_memory.md R47). -/
  | error
deriving DecidableEq, Repr

end Sys2Proof
end

