-- ==== Sys2Proof/WellFormed.lean ====
section
/-! DEFINITION. The two checks on what the host does: the form of an access (20_memory.md R47), and the STATE in which a
DIN write is the row's instruction (30_encoding.md R79, the table's `state` field). -/

namespace Sys2Proof

/-- R47: every access is one aligned 32-bit word: address bits [1:0] are zero and all four bytes are transferred. -/
def Access.wellFormed (a : Access) : Bool :=
  a.addr % 4 == 0 && a.width == 4

/-- R79: the four DIN rows share one offset and are told apart by the value STATE must have; every other row is selected
in every state. -/
def Instr.wellFormed (p : Phase) : Instr → Bool
  | .dinEntry _ => p == .entry
  | .dinDecode _ => p == .decode
  | .dinUnpack _ => p == .unpack
  | .dinUnexpected _ => p == .idle || p == .load
  | .nop | .tblBegin | .tblEntry | .decBegin | .unpkBegin | .abort | .softReset | .doutPop
  | .wArg0 _ | .wArg1 _ | .wInten _ | .wNodeidx _
  | .rConfig | .rStatus | .rErr | .rErrinfo | .rInten | .rArg0 | .rArg1 | .rBitcnt | .rOutcnt
  | .rPos | .rNodecnt | .rNodeidx | .rNodedat0 | .rNodedat1 => true

end Sys2Proof
end

