-- ==== Sys2Proof/Decode.lean ====
section
/-! DEFINITION. From an access of the host to the instruction it is (30_encoding.md sections 1 and 2), and back.
Decoding is total: an access that selects no row of the opcode table is rejected under a name of its own, and the spec
gives each of those an effect (Machine/Control.lean, `rejected`). -/

namespace Sys2Proof

/-- The registers of the window (30_encoding.md R61). -/
inductive Reg where
  | config | cmd | status | err | errinfo | inten | arg0 | arg1 | din | dout
  | bitcnt | outcnt | pos | nodecnt | nodeidx | nodedat0 | nodedat1
deriving DecidableEq, Repr

/-- The byte offset of each register (R61). -/
def Reg.offset : Reg → BitVec 8
  | .config => 0x00
  | .cmd => 0x04
  | .status => 0x08
  | .err => 0x0C
  | .errinfo => 0x10
  | .inten => 0x14
  | .arg0 => 0x18
  | .arg1 => 0x1C
  | .din => 0x20
  | .dout => 0x24
  | .bitcnt => 0x28
  | .outcnt => 0x2C
  | .pos => 0x30
  | .nodecnt => 0x34
  | .nodeidx => 0x38
  | .nodedat0 => 0x3C
  | .nodedat1 => 0x40

/-- The registers in the order of R61. -/
def Reg.all : List Reg :=
  [.config, .cmd, .status, .err, .errinfo, .inten, .arg0, .arg1, .din, .dout,
   .bitcnt, .outcnt, .pos, .nodecnt, .nodeidx, .nodedat0, .nodedat1]

/-- 20_memory.md R41: bits [7:2] of the address select a register (R79's mask 0xFC); offsets 0x44 to 0xFC select none. -/
def Reg.ofOffset (off : BitVec 8) : Option Reg :=
  Reg.all.find? fun r => r.offset == off &&& 0xFC

/-- 20_memory.md R41: the block ignores all address bits above bit 7. -/
def Access.offset (a : Access) : BitVec 8 := BitVec.ofNat 8 a.addr

/-- Why an access is no row of the opcode table. -/
inductive Reject where
  /-- Misaligned or not a whole word: the port's error response (20_memory.md R47). -/
  | portError
  /-- An illegal command word (30_encoding.md R65). -/
  | badCommand (v : Word)
  /-- A write to DIN in state ERROR (30_encoding.md R79: no row applies). -/
  | dinInError
  /-- A write to a read-only register or a reserved offset (30_encoding.md R61). -/
  | ignoredWrite
  /-- A read of CMD, of DIN or of a reserved offset, which returns 0 (30_encoding.md R61). -/
  | zeroRead
deriving DecidableEq, Repr

/-- An access is an instruction, or is rejected by name. -/
inductive Decoded where
  | instr (i : Instr)
  | rejected (r : Reject)
deriving DecidableEq, Repr

/-- The command words (30_encoding.md R64); every other word is illegal (R65). -/
def decodeCommand (v : Word) : Decoded :=
  if v = 0x00000000#32 then .instr .nop
  else if v = 0x00000001#32 then .instr .tblBegin
  else if v = 0x00000002#32 then .instr .tblEntry
  else if v = 0x00000003#32 then .instr .decBegin
  else if v = 0x00000004#32 then .instr .unpkBegin
  else if v = 0x00000005#32 then .instr .abort
  else if v = 0x00000006#32 then .instr .softReset
  else .rejected (.badCommand v)

/-- A write to DIN: STATE selects the row (30_encoding.md R79, 43_control_and_io.md R177). -/
def decodeDin (p : Phase) (v : Word) : Decoded :=
  match p with
  | .entry => .instr (.dinEntry v)
  | .decode => .instr (.dinDecode v)
  | .unpack => .instr (.dinUnpack v)
  | .idle | .load => .instr (.dinUnexpected v)
  | .error => .rejected .dinInError

/-- A write of the word `v` to the register at an offset (R61, R79). -/
def decodeWrite (p : Phase) (r : Option Reg) (v : Word) : Decoded :=
  match r with
  | some .cmd => decodeCommand v
  | some .din => decodeDin p v
  | some .arg0 => .instr (.wArg0 v)
  | some .arg1 => .instr (.wArg1 v)
  | some .inten => .instr (.wInten v)
  | some .nodeidx => .instr (.wNodeidx v)
  | some .config | some .status | some .err | some .errinfo | some .dout | some .bitcnt | some .outcnt
  | some .pos | some .nodecnt | some .nodedat0 | some .nodedat1 | none => .rejected .ignoredWrite

/-- A read of the register at an offset (R61, R79). -/
def decodeRead (r : Option Reg) : Decoded :=
  match r with
  | some .config => .instr .rConfig
  | some .status => .instr .rStatus
  | some .err => .instr .rErr
  | some .errinfo => .instr .rErrinfo
  | some .inten => .instr .rInten
  | some .arg0 => .instr .rArg0
  | some .arg1 => .instr .rArg1
  | some .dout => .instr .doutPop
  | some .bitcnt => .instr .rBitcnt
  | some .outcnt => .instr .rOutcnt
  | some .pos => .instr .rPos
  | some .nodecnt => .instr .rNodecnt
  | some .nodeidx => .instr .rNodeidx
  | some .nodedat0 => .instr .rNodedat0
  | some .nodedat1 => .instr .rNodedat1
  | some .cmd | some .din | none => .rejected .zeroRead

/-- Decoding an access made while STATE is `p`. -/
def decode (p : Phase) (a : Access) : Decoded :=
  if a.wellFormed then
    match a with
    | .write _ _ v => decodeWrite p (Reg.ofOffset a.offset) v
    | .read _ _ => decodeRead (Reg.ofOffset a.offset)
  else .rejected .portError

/-- The whole-word write of `v` to register `r` of the window at `base`. -/
def Reg.write (base : Nat) (r : Reg) (v : Word) : Access := .write (base + r.offset.toNat) 4 v

/-- The whole-word read of register `r` of the window at `base`. -/
def Reg.read (base : Nat) (r : Reg) : Access := .read (base + r.offset.toNat) 4

/-- The encoding of an instruction: R77's triple (read or write, byte offset, 32-bit data), as an access to the window
at `base`. -/
def encode (base : Nat) : Instr → Access
  | .nop => Reg.write base .cmd 0x00000000#32
  | .tblBegin => Reg.write base .cmd 0x00000001#32
  | .tblEntry => Reg.write base .cmd 0x00000002#32
  | .decBegin => Reg.write base .cmd 0x00000003#32
  | .unpkBegin => Reg.write base .cmd 0x00000004#32
  | .abort => Reg.write base .cmd 0x00000005#32
  | .softReset => Reg.write base .cmd 0x00000006#32
  | .dinEntry v => Reg.write base .din v
  | .dinDecode v => Reg.write base .din v
  | .dinUnpack v => Reg.write base .din v
  | .dinUnexpected v => Reg.write base .din v
  | .doutPop => Reg.read base .dout
  | .wArg0 v => Reg.write base .arg0 v
  | .wArg1 v => Reg.write base .arg1 v
  | .wInten v => Reg.write base .inten v
  | .wNodeidx v => Reg.write base .nodeidx v
  | .rConfig => Reg.read base .config
  | .rStatus => Reg.read base .status
  | .rErr => Reg.read base .err
  | .rErrinfo => Reg.read base .errinfo
  | .rInten => Reg.read base .inten
  | .rArg0 => Reg.read base .arg0
  | .rArg1 => Reg.read base .arg1
  | .rBitcnt => Reg.read base .bitcnt
  | .rOutcnt => Reg.read base .outcnt
  | .rPos => Reg.read base .pos
  | .rNodecnt => Reg.read base .nodecnt
  | .rNodeidx => Reg.read base .nodeidx
  | .rNodedat0 => Reg.read base .nodedat0
  | .rNodedat1 => Reg.read base .nodedat1

/-- A word of opcode_table.json as the access it stands for (log entry 8). A 32-bit word is a word written to CMD (R79).
An 8-bit word is a byte offset; the table gives its direction in no bit, so the offsets of registers that have a row for
writing are taken as writes of 0 and all others as reads. -/
def tableAccess (base nbits w : Nat) : Option Access :=
  if nbits = 32 then some (Reg.write base .cmd (BitVec.ofNat 32 w))
  else if nbits = 8 then
    let addr := base + w % 256
    match Reg.ofOffset (BitVec.ofNat 8 w) with
    | some .din | some .arg0 | some .arg1 | some .inten | some .nodeidx => some (.write addr 4 0)
    | _ => some (.read addr 4)
  else none

/-- The instruction the decoder reads from a word of opcode_table.json, in the state IDLE that reset leaves (log entry 8:
the four DIN rows are one word, and STATE tells them apart). -/
def decodeTableWord (nbits w : Nat) : Option Instr :=
  match tableAccess 0 nbits w with
  | some a =>
    match decode .idle a with
    | .instr i => some i
    | .rejected _ => none
  | none => none

end Sys2Proof
end

