-- ==== Sys2Proof/Machine/State.lean ====
section
/-! DEFINITION. The state of the block (10_state.md) as plain data, with the three fields of the model's own that the
host's side needs, and the state after reset (70_reset_and_hazards.md R240). -/

namespace Sys2Proof.Machine

/-- One node of the trie (10_state.md R15): a child field of 0 means the child is absent. -/
structure Node where
  leaf : Bool
  sym : Byte
  left : NodeIdx
  right : NodeIdx
deriving DecidableEq, Repr

/-- The node memory (10_state.md R16; log entry 6): (index, node) pairs, indexes strictly rising.
A node that no rule has written is not listed. -/
abbrev Memory := List (Nat × Node)

/-- The causes of a fault of the block (60_exceptions.md R201), in the order of their codes 0x01 to 0x0D. -/
inductive Cause where
  | badCodeCount | badCodeLength | badBitChar | prefixConflict | nodeExhausted | badBitLength | badTrailCount
  | absentChild | endNotAtRoot | badCommand | badState | dinUnexpected | dinOverrun
deriving DecidableEq, Repr

/-- The state of the machine. Everything down to `nodeidx` is the block's (10_state.md, one field per row of its
summary table); `params`, `pending` and `answer` are the model's own (log entries 1, 2 and 3). -/
structure State where
  /-- STATE (R11). -/
  phase : Phase
  /-- TREE_VALID (R12). -/
  treeValid : Bool
  /-- DONE (R13). -/
  done : Bool
  /-- ARG0 (R14). -/
  arg0 : Word
  /-- ARG1 (R14). -/
  arg1 : Word
  /-- NODE (R15, R16). -/
  nodes : Memory
  /-- NODECNT (R16). -/
  nodecnt : BitVec 17
  /-- REMAIN (R18). -/
  remain : BitVec 9
  /-- E_SYM (R18). -/
  eSym : Byte
  /-- E_LEN (R18). -/
  eLen : BitVec 8
  /-- E_LEFT (R18). -/
  eLeft : BitVec 8
  /-- WPOS (R18). -/
  wpos : NodeIdx
  /-- POS (R19). -/
  pos : NodeIdx
  /-- BITLEN (R20). -/
  bitlen : BitVec 31
  /-- LASTVALID (R20). -/
  lastvalid : BitVec 4
  /-- BYTES_LEFT (R20). -/
  bytesLeft : BitVec 29
  /-- BITCNT (R21). -/
  bitcnt : Word
  /-- OUTCNT (R21). -/
  outcnt : Word
  /-- OUTQ, head first (R22). -/
  outq : List Byte
  /-- ERR_CAUSE (R23); `none` is the code 0, no fault recorded (log entry 11). -/
  errCause : Option Cause
  /-- ERR_INFO (R23). -/
  errInfo : Word
  /-- INTEN (R24). -/
  inten : BitVec 4
  /-- NODEIDX (R24). -/
  nodeidx : BitVec 16
  /-- The implementation's parameters (00_scope.md R4): no step changes them. -/
  params : Params
  /-- The events still to come from outside, oldest first (10_state.md R26, 20_memory.md R50). -/
  pending : List HostEvent
  /-- What the host port answered to the last event. -/
  answer : Answer
deriving DecidableEq, Repr

/-- Why a step would stop with a fault of the MODEL: no rule of the spec stops the machine, so there is no such reason.
The block's own faults (60_exceptions.md) are next states in ERROR, entered by `raise`. -/
inductive Fault where
deriving DecidableEq, Repr

/-- Why an instruction would be given no meaning. -/
inductive Refusal where
  /-- Raised only by an arm of `exec` whose instruction is not modelled; there is none left. Safe. -/
  | notModelled (mnemonic : String)
deriving DecidableEq, Repr

/-- The state after reset (70_reset_and_hazards.md R240). No node is listed: node content is not reset and is unspecified
(log entry 5). The parameters are the spec's defaults (log entry 3); no event is pending and nothing is answered
(log entries 1 and 2). -/
def State.reset : State where
  phase := .idle
  treeValid := false
  done := false
  arg0 := 0#32
  arg1 := 0#32
  nodes := []
  nodecnt := 0#17
  remain := 0#9
  eSym := 0#8
  eLen := 0#8
  eLeft := 0#8
  wpos := 0#16
  pos := 0#16
  bitlen := 0#31
  lastvalid := 8#4
  bytesLeft := 0#29
  bitcnt := 0#32
  outcnt := 0#32
  outq := []
  errCause := none
  errInfo := 0#32
  inten := 0#4
  nodeidx := 0#16
  params := .default
  pending := []
  answer := .none

end Sys2Proof.Machine
end

