-- ==== Sys2Proof/Machine/Ops.lean ====
section
/-! DEFINITION. The shared operations: the node memory, the output queue, the host port, fault entry and its return. -/

namespace Sys2Proof.Machine

/-! ### Node memory (10_state.md R15, R16) -/

/-- The 41 bits of a node as {leaf, sym, left, right} (10_state.md section 11: 1 + 8 + 16 + 16). -/
def Node.ofBits (b : BitVec 41) : Node where
  leaf := b.getLsbD 40
  sym := b.extractLsb' 32 8
  left := b.extractLsb' 16 16
  right := b.extractLsb' 0 16

/-- An Internal node without children: the "single empty root" and a placeholder (41_tree_reconstructor.md R112, R118). -/
def Node.placeholder : Node := { leaf := false, sym := 0#8, left := 0#16, right := 0#16 }

/-- A Leaf carrying a symbol. -/
def Node.leafOf (sym : Byte) : Node := { leaf := true, sym := sym, left := 0#16, right := 0#16 }

/-- `child(i, b)` (00_scope.md R5, 41_tree_reconstructor.md R111): left on 0, right on 1. -/
def Node.child (n : Node) (bit : Bool) : NodeIdx := if bit then n.right else n.left

/-- `set_child(i, b, c)` (00_scope.md R5). -/
def Node.setChild (n : Node) (bit : Bool) (c : NodeIdx) : Node :=
  if bit then { n with right := c } else { n with left := c }

/-- The node written at index `i`, if one was. -/
def Memory.read? : Memory → Nat → Option Node
  | [], _ => none
  | (j, n) :: rest, i => if j = i then some n else Memory.read? rest i

/-- What an index holds that nothing has written: the free value (log entry 5). -/
def Memory.unlisted (i : Nat) : Node := Node.ofBits (Config.unspecifiedNode i)

/-- Node `i` (00_scope.md R5, `NODE[i]`). -/
def Memory.read (m : Memory) (i : Nat) : Node := (m.read? i).getD (Memory.unlisted i)

/-- Write node `i`, keeping the indexes strictly rising. -/
def Memory.write : Memory → Nat → Node → Memory
  | [], i, n => [(i, n)]
  | (j, x) :: rest, i, n =>
    if i < j then (i, n) :: (j, x) :: rest
    else if i = j then (i, n) :: rest
    else (j, x) :: Memory.write rest i n

/-- Every index of the memory is above `lo`, and they rise strictly. -/
def Memory.risesFrom : Nat → Memory → Bool
  | _, [] => true
  | lo, (j, _) :: rest => decide (lo ≤ j) && Memory.risesFrom (j + 1) rest

/-- The canonical form: indexes strictly rising. Nothing is left out for being equal to what an unlisted index holds,
since that is unspecified. -/
def Memory.wf (m : Memory) : Bool := Memory.risesFrom 0 m

/-- `NODE[i]`. -/
def State.node (s : State) (i : NodeIdx) : Node := s.nodes.read i.toNat

/-- `NODE[i] <- n`. -/
def State.writeNode (s : State) (i : NodeIdx) (n : Node) : State := { s with nodes := s.nodes.write i.toNat n }

/-- `set_child(i, bit, c)`. -/
def State.linkChild (s : State) (i : NodeIdx) (bit : Bool) (c : NodeIdx) : State :=
  s.writeNode i ((s.node i).setChild bit c)

/-! ### Fault entry and return (60_exceptions.md R203, R206) -/

/-- The code of a cause (60_exceptions.md R201). -/
def Cause.code : Cause → BitVec 8
  | .badCodeCount => 0x01
  | .badCodeLength => 0x02
  | .badBitChar => 0x03
  | .prefixConflict => 0x04
  | .nodeExhausted => 0x05
  | .badBitLength => 0x06
  | .badTrailCount => 0x07
  | .absentChild => 0x08
  | .endNotAtRoot => 0x09
  | .badCommand => 0x0A
  | .badState => 0x0B
  | .dinUnexpected => 0x0C
  | .dinOverrun => 0x0D

/-- The kind of a cause (60_exceptions.md R201, R202). -/
def Cause.kind : Cause → BitVec 4
  | .nodeExhausted => 1
  | .badCodeCount | .badCodeLength => 2
  | .absentChild | .endNotAtRoot => 4
  | .badBitChar | .prefixConflict => 5
  | .badBitLength | .badTrailCount => 6
  | .badCommand | .badState | .dinUnexpected | .dinOverrun => 7

/-- FAULT ENTRY, `raise Fault(cause, info)` (60_exceptions.md R203): these four and nothing else. -/
def raise (cause : Cause) (info : Word) (s : State) : State :=
  { s with errCause := some cause, errInfo := info, phase := .error, done := false }

/-- FAULT RETURN and the giving up of whatever is in progress (43_control_and_io.md R172, 60_exceptions.md R206). -/
def giveUp (s : State) : State :=
  { s with
    phase := .idle, errCause := none, errInfo := 0#32, done := false, outq := [], pos := 0#16,
    bitcnt := 0#32, outcnt := 0#32, bytesLeft := 0#29, eLeft := 0#8, remain := 0#9 }

/-- Every state element at its reset value (70_reset_and_hazards.md R240). Node content is not cleared (R173, R240); the
parameters, the events to come and the port's answer are no state elements of the block. -/
def resetBlock (s : State) : State :=
  { State.reset with nodes := s.nodes, params := s.params, pending := s.pending, answer := s.answer }

/-- How far a rule got: it goes on, or a fault was raised and nothing after it in the rule runs (00_scope.md R5). -/
inductive Progress where
  | on (s : State)
  | raised (s : State)
deriving DecidableEq, Repr

/-- The state a rule has reached, whichever way it went. -/
def Progress.state : Progress → State
  | .on s => s
  | .raised s => s

/-! ### Allocation (41_tree_reconstructor.md R116) -/

/-- Whether the node memory is full: `NODECNT = NNODES`. -/
def State.full (s : State) : Bool := s.nodecnt.toNat == s.params.nnodes

/-- The index that `alloc` gives out next: the old NODECNT. -/
def State.nextNode (s : State) : NodeIdx := s.nodecnt.setWidth 16

/-- `alloc` when there is room: the lowest unallocated node is written and NODECNT goes up by 1. -/
def State.allocated (s : State) (n : Node) : State :=
  { s.writeNode s.nextNode n with nodecnt := s.nodecnt + 1#17 }

/-- `alloc` of a node and the link to it from `WPOS`'s slot `bit` (R118): NodeExhausted is raised before either. -/
def allocChild (bit : Bool) (n : Node) (s : State) : Progress :=
  if s.full then .raised (raise .nodeExhausted (s.eSym.setWidth 32) s)
  else .on ((s.allocated n).linkChild s.wpos bit s.nextNode)

/-! ### Output queue (10_state.md R22) -/

/-- Free bytes of OUTQ. -/
def State.outqFree (s : State) : Nat := s.params.outqDepth - s.outq.length

/-- The level of OUTQ as a 16-bit number (30_encoding.md R62; 60_exceptions.md R201, DinOverrun). -/
def State.outqLevel (s : State) : BitVec 16 := BitVec.ofNat 16 s.outq.length

/-- `OUTQ.push(v)` with the count of pushed bytes (10_state.md R21). -/
def State.push (s : State) (v : Byte) : State := { s with outq := s.outq ++ [v], outcnt := s.outcnt + 1#32 }

/-! ### The host port -/

/-- The port returns a word to a read. -/
def State.respond (s : State) (w : Word) : State := { s with answer := .data w }

/-- The oldest pending event, and the state in which it is handled: it is no longer pending, and the port answers `done`
unless the event's own effect answers something else (log entry 2). -/
def fetch (s : State) : Option (HostEvent × State) :=
  match s.pending with
  | [] => none
  | e :: rest => some (e, { s with pending := rest, answer := .done })

/-- The reset input (70_reset_and_hazards.md R241): the effect of R240, and no answer to an action in flight, which is
not completed (log entry 9). -/
def resetInput (s : State) : State := { resetBlock s with answer := .none }

end Sys2Proof.Machine
end

