-- ==== Sys2Proof/Machine/Operands.lean ====
section
/-! DEFINITION. The operand forms: signed integers in ARG0 and ARG1 (30_encoding.md R66), the trailing valid-bit count
(40_bit_unpacker.md R91), the bits of a packed byte (R92) and the bit characters of a code (30_encoding.md R73). -/

namespace Sys2Proof.Machine

/-- A field of a register word: the bits of `v` from bit `lo` up, and 0 elsewhere (00_scope.md R5). -/
def field {n : Nat} (v : BitVec n) (lo : Nat) : Word := v.setWidth 32 <<< lo

/-- A one-bit field. -/
def flag (b : Bool) (lo : Nat) : Word := field (BitVec.ofBool b) lo

/-- `signed(v)` (00_scope.md R5): a word read as a two's-complement integer. -/
def signed (v : Word) : Int := v.toInt

/-- `ceil8(n)` (00_scope.md R5). -/
def ceil8 (n : Nat) : Nat := (n + 7) / 8

/-- `trail(L)` (40_bit_unpacker.md R91). -/
def trail (l : Nat) : Nat := if l % 8 = 0 then 8 else l % 8

/-- The byte a word written to DIN carries (30_encoding.md R67). -/
def dinByte (v : Word) : Byte := v.extractLsb' 0 8

/-- `bits_of_byte(b, n)` (40_bit_unpacker.md R92): the `n` high-order bits, highest first. -/
def bitsOfByte (b : Byte) (n : Nat) : List Bool :=
  [b.getLsbD 7, b.getLsbD 6, b.getLsbD 5, b.getLsbD 4, b.getLsbD 3, b.getLsbD 2, b.getLsbD 1, b.getLsbD 0].take n

/-- The character of a bit (30_encoding.md R73): 0x30 for 0, 0x31 for 1. -/
def charOfBit (bit : Bool) : Byte := if bit then 0x31#8 else 0x30#8

/-- The bit of a character; any other byte is no bit character (30_encoding.md R73). -/
def bitOfChar (c : Byte) : Option Bool :=
  if c = 0x30#8 then some false else if c = 0x31#8 then some true else none

/-- How many bits the packed byte now written gives: 8, but LASTVALID for the last (42_decode_automaton.md R143,
40_bit_unpacker.md R96). -/
def State.validBits (s : State) : Nat := if s.bytesLeft = 1#29 then s.lastvalid.toNat else 8

/-- `i = E_LEN - E_LEFT`: the zero-based index in its code of the character now written (41_tree_reconstructor.md R118). -/
def State.charIndex (s : State) : BitVec 8 := s.eLen - s.eLeft

/-- `{16 zero bits, i[7:0], b}`: the ERR_INFO of BadBitChar and PrefixConflict (41_tree_reconstructor.md R118). -/
def State.entryInfo (s : State) (b : Byte) : Word := field s.charIndex 8 ||| field b 0

/-- The checks a record's two operands must pass, in the order of 60_exceptions.md R207 (42_decode_automaton.md R141,
40_bit_unpacker.md R95): the fault to raise, or none. -/
def recordFault (arg0 arg1 : Word) : Option (Cause × Word) :=
  if signed arg0 < 0 then some (.badBitLength, arg0)
  else if signed arg1 < 1 ∨ signed arg1 > 8 then some (.badTrailCount, arg1)
  else if signed arg1 ≠ trail (signed arg0).toNat then some (.badTrailCount, arg1)
  else none

end Sys2Proof.Machine
end

