-- ==== Sys2Proof/Machine/Flags.lean ====
section
/-! DEFINITION. The flags that are computed (10_state.md R25), the interrupt line (60_exceptions.md R208) and the words of
the registers laid out in fields (30_encoding.md R62, R63, R70, R71). -/

namespace Sys2Proof.Machine

/-- OUT_AVAIL (10_state.md R25). -/
def State.outAvail (s : State) : Bool := decide (s.outq.length > 0)

/-- AT_ROOT (10_state.md R25). -/
def State.atRoot (s : State) : Bool := s.pos == 0#16

/-- Room in OUTQ for the most one packed byte can push: 8 bytes free (10_state.md R25). -/
def State.hasRoom (s : State) : Bool := decide (8 ≤ s.outqFree)

/-- DIN_RDY (10_state.md R25). -/
def State.dinRdy (s : State) : Bool :=
  match s.phase with
  | .entry => true
  | .decode | .unpack => s.hasRoom
  | .idle | .load | .error => false

/-- The value of STATE (10_state.md R11). -/
def phaseCode : Phase → BitVec 3
  | .idle => 0
  | .load => 1
  | .entry => 2
  | .decode => 3
  | .unpack => 4
  | .error => 7

/-- STATUS (30_encoding.md R62). -/
def State.statusWord (s : State) : Word :=
  field (phaseCode s.phase) 0 ||| flag s.treeValid 4 ||| flag s.done 5 ||| flag s.dinRdy 6 ||| flag s.outAvail 7
    ||| flag s.atRoot 8 ||| field s.outqLevel 16

/-- ERR (30_encoding.md R63): kind in [11:8], cause in [7:0]. -/
def State.errWord (s : State) : Word :=
  match s.errCause with
  | none => 0#32
  | some c => field c.kind 8 ||| field c.code 0

/-- CONFIG (30_encoding.md R70): OUTQ_DEPTH in [31:16], NNODES - 1 in [15:0]. -/
def State.configWord (s : State) : Word :=
  field (BitVec.ofNat 16 s.params.outqDepth) 16 ||| field (BitVec.ofNat 16 (s.params.nnodes - 1)) 0

/-- Whether the node NODEIDX selects is allocated (30_encoding.md R71). -/
def State.nodeShown (s : State) : Bool := decide (s.nodeidx.toNat < s.nodecnt.toNat)

/-- NODEDAT0 (30_encoding.md R71). -/
def State.nodedat0Word (s : State) : Word :=
  if s.nodeShown then
    flag true 31 ||| flag (s.node s.nodeidx).leaf 30 ||| field (s.node s.nodeidx).sym 0
  else 0#32

/-- NODEDAT1 (30_encoding.md R71). -/
def State.nodedat1Word (s : State) : Word :=
  if s.nodeShown then field (s.node s.nodeidx).right 16 ||| field (s.node s.nodeidx).left 0 else 0#32

/-- The interrupt output (60_exceptions.md R208): a pure function of the state. -/
def State.irq (s : State) : Bool :=
  (s.inten.getLsbD 0 && s.done) || (s.inten.getLsbD 1 && s.phase == .error)
    || (s.inten.getLsbD 2 && s.dinRdy) || (s.inten.getLsbD 3 && s.outAvail)

end Sys2Proof.Machine
end

