-- ==== Sys2Proof/Machine/Unpacker.lean ====
section
/-! DEFINITION. Opening a record (shared by DEC_BEGIN and UNPK_BEGIN) and the bit unpacker (40_bit_unpacker.md). -/

namespace Sys2Proof.Machine

/-- The registers of a record whose operands passed the checks (40_bit_unpacker.md R95, 42_decode_automaton.md R141): a
record of length 0 is complete at once, any other puts STATE at `p`. -/
def openRecord (p : Phase) (s : State) : State :=
  let l := (signed s.arg0).toNat
  let s1 := { s with
    bitlen := BitVec.ofNat 31 l
    lastvalid := BitVec.ofInt 4 (signed s.arg1)
    bytesLeft := BitVec.ofNat 29 (ceil8 l)
    bitcnt := 0#32
    outcnt := 0#32 }
  if l = 0 then { s1 with done := true } else { s1 with phase := p }

/-- UNPK_BEGIN (R95). In ERROR it is ignored (43_control_and_io.md R171). -/
def unpkBegin (s : State) : State :=
  match s.phase with
  | .error => s
  | .load | .entry | .decode | .unpack => raise .badState 0x04#32 s
  | .idle =>
    match recordFault s.arg0 s.arg1 with
    | some (cause, info) => raise cause info { s with done := false }
    | none => openRecord .unpack { s with done := false }

/-- One bit becomes one bit character on OUTQ (R96). -/
def unpackBit (bit : Bool) (s : State) : State :=
  let s1 := s.push (charOfBit bit)
  { s1 with bitcnt := s.bitcnt + 1#32 }

/-- The bits of a byte, first to last (R96). -/
def unpackBits : List Bool → State → State
  | [], s => s
  | bit :: rest, s => unpackBits rest (unpackBit bit s)

/-- A byte written to DIN in state UNPACK (R96). -/
def unpackByte (b : Byte) (s : State) : State :=
  if s.hasRoom then
    let s1 := unpackBits (bitsOfByte b s.validBits) s
    let s2 := { s1 with bytesLeft := s1.bytesLeft - 1#29 }
    if s2.bytesLeft = 0#29 then { s2 with phase := .idle, done := true } else s2
  else raise .dinOverrun (s.outqLevel.setWidth 32) s

end Sys2Proof.Machine
end

