-- ==== Sys2Proof/Machine/Automaton.lean ====
section
/-! DEFINITION. The decode automaton (42_decode_automaton.md): DEC_BEGIN and one packed byte. -/

namespace Sys2Proof.Machine

/-- DEC_BEGIN (R141). In ERROR it is ignored (43_control_and_io.md R171). -/
def decBegin (s : State) : State :=
  match s.phase with
  | .error => s
  | .load | .entry | .decode | .unpack => raise .badState 0x03#32 s
  | .idle =>
    if s.treeValid then
      match recordFault s.arg0 s.arg1 with
      | some (cause, info) => raise cause info { s with done := false }
      | none => openRecord .decode { s with done := false, pos := 0#16 }
    else raise .badState 0x103#32 s

/-- `step(bit)` (R142). -/
def stepBit (bit : Bool) (s : State) : Progress :=
  let ch := (s.node s.pos).child bit
  if ch = 0#16 then .raised (raise .absentChild s.bitcnt s)
  else
    let s1 := { s with pos := ch, bitcnt := s.bitcnt + 1#32 }
    if (s.node ch).leaf then
      let s2 := s1.push (s.node ch).sym
      .on { s2 with pos := 0#16 }
    else .on s1

/-- The bits of a byte, first to last; a fault ends the rule (R143). -/
def stepBits : List Bool → State → Progress
  | [], s => .on s
  | bit :: rest, s =>
    match stepBit bit s with
    | .on s1 => stepBits rest s1
    | .raised s1 => .raised s1

/-- A byte of the record has been stepped: with the last one the record ends, well-formed at the root (R143, R144). -/
def endOfByte (s : State) : State :=
  let s1 := { s with bytesLeft := s.bytesLeft - 1#29 }
  if s1.bytesLeft = 0#29 then
    if s1.pos = 0#16 then { s1 with phase := .idle, done := true }
    else raise .endNotAtRoot (s1.pos.setWidth 32) s1
  else s1

/-- A byte written to DIN in state DECODE (R143). -/
def decodeByte (b : Byte) (s : State) : State :=
  if s.hasRoom then
    match stepBits (bitsOfByte b s.validBits) s with
    | .raised s1 => s1
    | .on s1 => endOfByte s1
  else raise .dinOverrun (s.outqLevel.setWidth 32) s

end Sys2Proof.Machine
end

