-- ==== Sys2Proof/Machine/Tree.lean ====
section
/-! DEFINITION. The tree reconstructor (41_tree_reconstructor.md): TBL_BEGIN, TBL_ENTRY, and one bit character of a code. -/

namespace Sys2Proof.Machine

/-- TBL_BEGIN (R112). In ERROR it is ignored (43_control_and_io.md R171). -/
def tblBegin (s : State) : State :=
  match s.phase with
  | .error => s
  | .load | .entry | .decode | .unpack => raise .badState 0x01#32 s
  | .idle =>
    let s1 := { s with treeValid := false, done := false }
    if signed s.arg0 < 1 ∨ signed s.arg0 > 256 then raise .badCodeCount s.arg0 s1
    else
      { s1.writeNode 0#16 .placeholder with
        nodecnt := 1#17, remain := BitVec.ofInt 9 (signed s.arg0), phase := .load }

/-- TBL_ENTRY (R114). In ERROR it is ignored (43_control_and_io.md R171). -/
def tblEntry (s : State) : State :=
  match s.phase with
  | .error => s
  | .idle | .entry | .decode | .unpack => raise .badState 0x02#32 s
  | .load =>
    if signed s.arg1 < 1 ∨ signed s.arg1 > 255 then raise .badCodeLength s.arg1 s
    else
      { s with
        eSym := s.arg0.extractLsb' 0 8
        eLen := BitVec.ofInt 8 (signed s.arg1)
        eLeft := BitVec.ofInt 8 (signed s.arg1)
        wpos := 0#16
        phase := .entry }

/-- A step of the walk that is not the final one has reached node `ch` (R118). -/
def walkOn (ch : NodeIdx) (s : State) : State := { s with wpos := ch, eLeft := s.eLeft - 1#8 }

/-- The final step of an entry has placed its Leaf (R118): the entry is closed, and with the last one the load. -/
def closeEntry (s : State) : State :=
  let s1 := { s with eLeft := 0#8, remain := s.remain - 1#9 }
  if s1.remain = 0#9 then { s1 with phase := .idle, treeValid := true, done := true }
  else { s1 with phase := .load }

/-- R118 with E_LEFT > 1: step to the child on `bit`, making a placeholder where it is missing. -/
def innerStep (bit : Bool) (s : State) : State :=
  let ch := (s.node s.wpos).child bit
  if ch = 0#16 then
    match allocChild bit .placeholder s with
    | .raised s1 => s1
    | .on s1 => walkOn s.nextNode s1
  else if (s.node ch).leaf then raise .prefixConflict (s.entryInfo s.eSym) s
  else walkOn ch s

/-- R118 with E_LEFT = 1: attach a Leaf carrying E_SYM, or overwrite the symbol of the one that is there. -/
def finalStep (bit : Bool) (s : State) : State :=
  let ch := (s.node s.wpos).child bit
  if ch = 0#16 then
    match allocChild bit (.leafOf s.eSym) s with
    | .raised s1 => s1
    | .on s1 => closeEntry s1
  else if (s.node ch).leaf then closeEntry (s.writeNode ch { s.node ch with sym := s.eSym })
  else raise .prefixConflict (s.entryInfo s.eSym) s

/-- A byte written to DIN in state ENTRY is one bit character of the open entry (R118). -/
def entryByte (c : Byte) (s : State) : State :=
  match bitOfChar c with
  | none => raise .badBitChar (s.entryInfo c) s
  | some bit => if s.eLeft.toNat > 1 then innerStep bit s else finalStep bit s

end Sys2Proof.Machine
end

