-- ==== Sys2Proof/Machine/Control.lean ====
section
/-! DEFINITION. Dispatch of DIN writes, DOUT, the accesses that are no instruction (43_control_and_io.md), and the meaning
of each of the thirty instructions: each is one definition, and answers the next state in every state. -/

namespace Sys2Proof.Machine

/-- A write to DIN is handled according to STATE (43_control_and_io.md R177). -/
def dinWrite (v : Word) (s : State) : State :=
  match s.phase with
  | .error => s
  | .entry => entryByte (dinByte v) s
  | .decode => decodeByte (dinByte v) s
  | .unpack => unpackByte (dinByte v) s
  | .idle | .load => raise .dinUnexpected ((dinByte v).setWidth 32) s

/-- A read of DOUT pops one byte if there is one (43_control_and_io.md R174). -/
def doutRead (s : State) : State :=
  match s.outq with
  | [] => s.respond 0#32
  | d :: rest => { s with outq := rest }.respond (flag true 8 ||| field d 0)

/-- What an access does that is no instruction. -/
def rejected (r : Reject) (s : State) : State :=
  match r with
  | .portError => { s with answer := .error }
  | .badCommand v => if s.phase = .error then s else raise .badCommand v s
  | .dinInError => s
  | .ignoredWrite => s
  | .zeroRead => s.respond 0#32

/-- The three outcomes of a step of this machine. -/
abbrev Result := Host.Outcome State Fault Refusal

/-! ### Commands -/

/-- NOP (R170). -/
def execNop (s : State) : Result := .next s

/-- TBL_BEGIN (R112). -/
def execTblBegin (s : State) : Result := .next (tblBegin s)

/-- TBL_ENTRY (R114). -/
def execTblEntry (s : State) : Result := .next (tblEntry s)

/-- DEC_BEGIN (R141). -/
def execDecBegin (s : State) : Result := .next (decBegin s)

/-- UNPK_BEGIN (R95). -/
def execUnpkBegin (s : State) : Result := .next (unpkBegin s)

/-- ABORT (R172): legal in every state. -/
def execAbort (s : State) : Result := .next (giveUp s)

/-- SOFT_RESET (R173): legal in every state. -/
def execSoftReset (s : State) : Result := .next (resetBlock s)

/-! ### DIN and DOUT. Which of the four DIN rows a write is, STATE decides (R79, log entry 7). -/

/-- DIN.ENTRY (R118 through R177). -/
def execDinEntry (v : Word) (s : State) : Result := .next (dinWrite v s)

/-- DIN.DECODE (R143 through R177). -/
def execDinDecode (v : Word) (s : State) : Result := .next (dinWrite v s)

/-- DIN.UNPACK (R96 through R177). -/
def execDinUnpack (v : Word) (s : State) : Result := .next (dinWrite v s)

/-- DIN.UNEXPECTED (R177). -/
def execDinUnexpected (v : Word) (s : State) : Result := .next (dinWrite v s)

/-- DOUT.POP (R174). -/
def execDoutPop (s : State) : Result := .next (doutRead s)

/-! ### Plain writes (R175): the written word, masked to the implemented bits. -/

/-- W.ARG0. -/
def execWArg0 (v : Word) (s : State) : Result := .next { s with arg0 := v }

/-- W.ARG1. -/
def execWArg1 (v : Word) (s : State) : Result := .next { s with arg1 := v }

/-- W.INTEN: bits [3:0]. -/
def execWInten (v : Word) (s : State) : Result := .next { s with inten := v.extractLsb' 0 4 }

/-- W.NODEIDX: bits [15:0]. -/
def execWNodeidx (v : Word) (s : State) : Result := .next { s with nodeidx := v.extractLsb' 0 16 }

/-! ### Plain reads (R176): the register's word, and nothing changes. -/

/-- R.CONFIG. -/
def execRConfig (s : State) : Result := .next (s.respond s.configWord)

/-- R.STATUS. -/
def execRStatus (s : State) : Result := .next (s.respond s.statusWord)

/-- R.ERR. -/
def execRErr (s : State) : Result := .next (s.respond s.errWord)

/-- R.ERRINFO. -/
def execRErrinfo (s : State) : Result := .next (s.respond s.errInfo)

/-- R.INTEN. -/
def execRInten (s : State) : Result := .next (s.respond (s.inten.setWidth 32))

/-- R.ARG0. -/
def execRArg0 (s : State) : Result := .next (s.respond s.arg0)

/-- R.ARG1. -/
def execRArg1 (s : State) : Result := .next (s.respond s.arg1)

/-- R.BITCNT. -/
def execRBitcnt (s : State) : Result := .next (s.respond s.bitcnt)

/-- R.OUTCNT. -/
def execROutcnt (s : State) : Result := .next (s.respond s.outcnt)

/-- R.POS. -/
def execRPos (s : State) : Result := .next (s.respond (s.pos.setWidth 32))

/-- R.NODECNT. -/
def execRNodecnt (s : State) : Result := .next (s.respond (s.nodecnt.setWidth 32))

/-- R.NODEIDX. -/
def execRNodeidx (s : State) : Result := .next (s.respond (s.nodeidx.setWidth 32))

/-- R.NODEDAT0. -/
def execRNodedat0 (s : State) : Result := .next (s.respond s.nodedat0Word)

/-- R.NODEDAT1. -/
def execRNodedat1 (s : State) : Result := .next (s.respond s.nodedat1Word)

end Sys2Proof.Machine
end

