-- ==== Sys2Proof/Machine/Dispatch.lean ====
section
/-! DEFINITION. One arm per instruction: a direct call of its meaning. -/

namespace Sys2Proof.Machine

/-- The meaning of an instruction in a state. -/
def exec (i : Instr) (s : State) : Host.Outcome State Fault Refusal :=
  match i with
  | .nop => Sys2Proof.Machine.execNop s
  | .tblBegin => Sys2Proof.Machine.execTblBegin s
  | .tblEntry => Sys2Proof.Machine.execTblEntry s
  | .decBegin => Sys2Proof.Machine.execDecBegin s
  | .unpkBegin => Sys2Proof.Machine.execUnpkBegin s
  | .abort => Sys2Proof.Machine.execAbort s
  | .softReset => Sys2Proof.Machine.execSoftReset s
  | .dinEntry v => Sys2Proof.Machine.execDinEntry v s
  | .dinDecode v => Sys2Proof.Machine.execDinDecode v s
  | .dinUnpack v => Sys2Proof.Machine.execDinUnpack v s
  | .dinUnexpected v => Sys2Proof.Machine.execDinUnexpected v s
  | .doutPop => Sys2Proof.Machine.execDoutPop s
  | .wArg0 v => Sys2Proof.Machine.execWArg0 v s
  | .wArg1 v => Sys2Proof.Machine.execWArg1 v s
  | .wInten v => Sys2Proof.Machine.execWInten v s
  | .wNodeidx v => Sys2Proof.Machine.execWNodeidx v s
  | .rConfig => Sys2Proof.Machine.execRConfig s
  | .rStatus => Sys2Proof.Machine.execRStatus s
  | .rErr => Sys2Proof.Machine.execRErr s
  | .rErrinfo => Sys2Proof.Machine.execRErrinfo s
  | .rInten => Sys2Proof.Machine.execRInten s
  | .rArg0 => Sys2Proof.Machine.execRArg0 s
  | .rArg1 => Sys2Proof.Machine.execRArg1 s
  | .rBitcnt => Sys2Proof.Machine.execRBitcnt s
  | .rOutcnt => Sys2Proof.Machine.execROutcnt s
  | .rPos => Sys2Proof.Machine.execRPos s
  | .rNodecnt => Sys2Proof.Machine.execRNodecnt s
  | .rNodeidx => Sys2Proof.Machine.execRNodeidx s
  | .rNodedat0 => Sys2Proof.Machine.execRNodedat0 s
  | .rNodedat1 => Sys2Proof.Machine.execRNodedat1 s

end Sys2Proof.Machine
end

