-- ==== Sys2Proof/Machine/Step.lean ====
section
/-! DEFINITION. One step of the machine: the block's whole reaction to the oldest pending event (20_memory.md R48, R50). -/

namespace Sys2Proof.Machine

/-- The block's reaction to one event, in the state `fetch` left. -/
def react (e : HostEvent) (s : State) : Host.Outcome State Fault Refusal :=
  match e with
  | .resetInput _ => .next (resetInput s)
  | .access a =>
    match decode s.phase a with
    | .instr i => exec i s
    | .rejected r => .next (rejected r s)

/-- One step. With no event pending the block waits: nothing changes (10_state.md R10, log entry 1). -/
def step (s : State) : Host.Outcome State Fault Refusal :=
  match fetch s with
  | none => .next s
  | some (e, s1) => react e s1

/-- The state whose next event is the access that a word of opcode_table.json stands for (log entries 1 and 8). -/
def State.withFetchWord (s : State) (nbits w : Nat) : State :=
  match tableAccess s.params.base nbits w with
  | some a => { s with pending := .access a :: s.pending }
  | none => s

end Sys2Proof.Machine
end

