-- ==== Sys2Proof/Machine/Reference.lean ====
section
/-! DEFINITION. The reference functions of the spec: `pack` and `unpack` (40_bit_unpacker.md R90, R93) and `decode`
(42_decode_automaton.md R147). No part of the block calls them; claims compare the block with them. -/

namespace Sys2Proof.Machine

/-- The byte whose bit `7 - k` is `f k` (40_bit_unpacker.md R90). -/
def byteOfBits (f : Nat → Bool) : Byte :=
  (flag (f 0) 7 ||| flag (f 1) 6 ||| flag (f 2) 5 ||| flag (f 3) 4
    ||| flag (f 4) 3 ||| flag (f 5) 2 ||| flag (f 6) 1 ||| flag (f 7) 0).setWidth 8

/-- `pack(s)` (R90): the packed bytes, the bit length, and the trailing valid-bit count. -/
def pack (s : List Bool) : List Byte × Nat × Nat :=
  ((List.range (ceil8 s.length)).map fun j => byteOfBits fun k => s.getD (8 * j + k) false, s.length, trail s.length)

/-- `unpack(B, L, T)` (R93): 8 bits of every byte but the last, `T` of the last. Defined where `|B| = ceil8(L)` and
`T = trail(L)`; then `L` is the length of the result. -/
def unpack (bytes : List Byte) (l t : Nat) : List Bool :=
  match bytes with
  | [] => []
  | [b] => bitsOfByte b t
  | b :: rest => bitsOfByte b 8 ++ unpack rest (l - 8) t

/-- How far walking a bit string gets (R147): the symbols emitted, the bits stepped, the node reached, and whether the
next bit selects an absent child. -/
structure Walk where
  out : List Byte
  stepped : Nat
  pos : NodeIdx
  absent : Bool
deriving DecidableEq, Repr

/-- One more bit before a walk, emitting `out`. -/
def Walk.before (out : List Byte) (w : Walk) : Walk := { w with out := out ++ w.out, stepped := w.stepped + 1 }

/-- Walk a bit string from node `p` (R147): each bit moves to the selected child; a Leaf emits its symbol and sends the
walk back to the root; an absent child ends it. -/
def walk (trie : NodeIdx → Node) (p : NodeIdx) : List Bool → Walk
  | [] => { out := [], stepped := 0, pos := p, absent := false }
  | bit :: rest =>
    if (trie p).child bit = 0#16 then { out := [], stepped := 0, pos := p, absent := true }
    else if (trie ((trie p).child bit)).leaf then
      (walk trie 0#16 rest).before [(trie ((trie p).child bit)).sym]
    else (walk trie ((trie p).child bit) rest).before []

/-- How decoding a bit string ends (R147). -/
inductive Verdict where
  | wellFormed
  | absentChild (index : Nat)
  | endNotAtRoot (p : NodeIdx)
deriving DecidableEq, Repr

/-- The verdict of a walk over a whole record (R147). -/
def Walk.verdict (w : Walk) : Verdict :=
  if w.absent then .absentChild w.stepped else if w.pos = 0#16 then .wellFormed else .endNotAtRoot w.pos

/-- `decode(trie, s)` (R147): the symbols emitted, and how it ends. -/
def decodeRecord (trie : NodeIdx → Node) (s : List Bool) : List Byte × Verdict :=
  ((walk trie 0#16 s).out, (walk trie 0#16 s).verdict)

end Sys2Proof.Machine
end

