-- ==== Sys2Proof/Safety.lean ====
section
/-! DEFINITION. What claims about the machine are said in: the invariant of every state a run reaches, the paths of the
trie, what two states share when they differ only in unspecified node content, and the sequences of host actions of
30_encoding.md R78 (the macros TABLE, CODE, DECODE, UNPACK and DRAIN). -/

namespace Sys2Proof.Machine

/-! ### Which instructions are what -/

/-- The four rows of a DIN write (30_encoding.md R79). -/
def IsDin (i : Instr) : Prop := ∃ v, i = .dinEntry v ∨ i = .dinDecode v ∨ i = .dinUnpack v ∨ i = .dinUnexpected v

/-- The four commands that open an operation, legal in one STATE only (30_encoding.md R64). -/
def IsOperationCommand (i : Instr) : Prop := i = .tblBegin ∨ i = .tblEntry ∨ i = .decBegin ∨ i = .unpkBegin

/-- ABORT and SOFT_RESET, the two commands that leave ERROR (60_exceptions.md R206). -/
def IsAbortOrReset (i : Instr) : Prop := i = .abort ∨ i = .softReset

/-- The writes to ARG0, ARG1, INTEN and NODEIDX (43_control_and_io.md R175). -/
def IsPlainWrite (i : Instr) : Prop := ∃ v, i = .wArg0 v ∨ i = .wArg1 v ∨ i = .wInten v ∨ i = .wNodeidx v

/-- The reads (43_control_and_io.md R174, R176). -/
def IsRead (i : Instr) : Prop :=
  i = .doutPop ∨ i = .rConfig ∨ i = .rStatus ∨ i = .rErr ∨ i = .rErrinfo ∨ i = .rInten ∨ i = .rArg0 ∨ i = .rArg1
    ∨ i = .rBitcnt ∨ i = .rOutcnt ∨ i = .rPos ∨ i = .rNodecnt ∨ i = .rNodeidx ∨ i = .rNodedat0 ∨ i = .rNodedat1

/-! ### Paths of the trie -/

/-- The node reached from `p` along a bit string, 0 to `left` and 1 to `right`; none where a child is absent. -/
def State.follow (s : State) (p : NodeIdx) : List Bool → Option NodeIdx
  | [] => some p
  | bit :: rest => if (s.node p).child bit = 0#16 then none else s.follow ((s.node p).child bit) rest

/-- Node `i` is allocated (10_state.md R16). -/
def State.Allocated (s : State) (i : NodeIdx) : Prop := i.toNat < s.nodecnt.toNat

/-! ### The invariant -/

/-- The node memory holds its canonical form, no index of NNODES or above, and every allocated node (10_state.md R16). -/
structure MemoryOk (s : State) : Prop where
  canonical : s.nodes.wf = true
  inArena : ∀ i n, (i, n) ∈ s.nodes → i < s.params.nnodes
  countFits : s.nodecnt.toNat ≤ s.params.nnodes
  written : ∀ i : NodeIdx, s.Allocated i → (s.nodes.read? i.toNat).isSome = true

/-- The trie of the allocated nodes (10_state.md R15, R17): a tree of Internal nodes and childless Leaves, rooted at
node 0. A child has a higher index than its parent, so there is no cycle. -/
structure TrieOk (s : State) : Prop where
  rootInternal : 0 < s.nodecnt.toNat → (s.node 0#16).leaf = false
  leafChildless : ∀ i, s.Allocated i → (s.node i).leaf = true → (s.node i).left = 0#16 ∧ (s.node i).right = 0#16
  internalSymZero : ∀ i, s.Allocated i → (s.node i).leaf = false → (s.node i).sym = 0#8
  childAllocated : ∀ i bit, s.Allocated i → (s.node i).child bit ≠ 0#16 →
    s.Allocated ((s.node i).child bit) ∧ i.toNat < ((s.node i).child bit).toNat
  oneParent : ∀ i j b c, s.Allocated i → s.Allocated j → (s.node i).child b ≠ 0#16 →
    (s.node i).child b = (s.node j).child c → i = j ∧ b = c
  noOrphan : ∀ k, s.Allocated k → k ≠ 0#16 → ∃ i b, s.Allocated i ∧ (s.node i).child b = k

/-- The fault record (10_state.md R23) and DONE (R13). -/
structure RecordFlagsOk (s : State) : Prop where
  causeIffError : s.errCause ≠ none ↔ s.phase = .error
  infoClear : s.phase ≠ .error → s.errInfo = 0#32
  doneIdle : s.done = true → s.phase = .idle

/-- The table-load registers (10_state.md R18) in the states that use them, and TREE_VALID (R12). -/
structure LoadOk (s : State) : Prop where
  treeHasRoot : s.treeValid = true → 0 < s.nodecnt.toNat
  opened : s.phase = .load ∨ s.phase = .entry →
    s.treeValid = false ∧ 0 < s.nodecnt.toNat ∧ 1 ≤ s.remain.toNat ∧ s.remain.toNat ≤ 256
  entryOpen : s.phase = .entry →
    1 ≤ s.eLeft.toNat ∧ s.eLeft.toNat ≤ s.eLen.toNat ∧ s.Allocated s.wpos ∧ (s.node s.wpos).leaf = false

/-- The depth of the trie (41_tree_reconstructor.md R125), and where the walk pointer stands in it (R118). -/
structure DepthOk (s : State) : Prop where
  bounded : 0 < s.nodecnt.toNat → ∀ w i, s.follow 0#16 w = some i → w.length ≤ 255
  walkReached : s.phase = .entry → ∃ w, s.follow 0#16 w = some s.wpos
  walkDepth : s.phase = .entry → ∀ w, s.follow 0#16 w = some s.wpos → w.length = s.eLen.toNat - s.eLeft.toNat

/-- The record registers and counters (10_state.md R19, R20, R21). -/
structure RecordOk (s : State) : Prop where
  posPlace : s.pos = 0#16 ∨ (s.Allocated s.pos ∧ (s.node s.pos).leaf = false)
  posZero : s.phase = .idle ∨ s.phase = .load ∨ s.phase = .entry ∨ s.phase = .unpack → s.pos = 0#16
  decoding : s.phase = .decode → s.treeValid = true
  lastvalidRange : 1 ≤ s.lastvalid.toNat ∧ s.lastvalid.toNat ≤ 8
  bytesRange : s.bytesLeft.toNat ≤ 2 ^ 28
  bitsBounded : s.bitcnt.toNat ≤ s.bitlen.toNat
  outBounded : s.outcnt.toNat ≤ s.bitcnt.toNat
  recordOpen : s.phase = .decode ∨ s.phase = .unpack →
    1 ≤ s.bytesLeft.toNat ∧ s.lastvalid.toNat = trail s.bitlen.toNat
      ∧ s.bitcnt.toNat + 8 * (s.bytesLeft.toNat - 1) + s.lastvalid.toNat = s.bitlen.toNat

/-- The invariant of every state a run from reset reaches: legal parameters, an output queue within its capacity
(10_state.md R22), and the parts above. -/
structure Inv (s : State) : Prop where
  params : s.params.Legal
  queue : s.outq.length ≤ s.params.outqDepth
  memory : MemoryOk s
  trie : TrieOk s
  depth : DepthOk s
  flags : RecordFlagsOk s
  load : LoadOk s
  record : RecordOk s

/-! ### States that differ in unspecified node content only -/

/-- Equal but for the content of nodes that are not allocated (10_state.md R16). -/
def SameButUnallocated (s t : State) : Prop :=
  t = { s with nodes := t.nodes } ∧ ∀ i, s.Allocated i → t.node i = s.node i

/-! ### Sequences of host actions (30_encoding.md R78) -/

/-- The state after an instruction. -/
def after (i : Instr) (s : State) : State :=
  match exec i s with
  | .next t => t
  | .fault _ => s
  | .refused _ => s

/-- A byte as the word the host writes (30_encoding.md R77, `DIN <byte>`). -/
def byteWord (b : Byte) : Word := b.setWidth 32

/-- Read DOUT until it returns VALID = 0, at most `n` times (70_reset_and_hazards.md R243): the bytes read. -/
def drain : Nat → State → List Byte × State
  | 0, s => ([], s)
  | n + 1, s =>
    let t := after .doutPop s
    match t.answer with
    | .data w =>
      if w.getLsbD 8 then
        let r := drain n t
        (w.extractLsb' 0 8 :: r.1, r.2)
      else ([], t)
    | .none | .done | .error => ([], t)

/-- Write the words of a record to DIN, reading DOUT until it is empty after each (70_reset_and_hazards.md R243): the bytes
read. `din` is the row of the opcode table. -/
def feed (din : Word → Instr) : List Word → State → List Byte × State
  | [], s => ([], s)
  | v :: rest, s =>
    let d := drain (s.params.outqDepth + 1) (after (din v) s)
    let r := feed din rest d.2
    (d.1 ++ r.1, r.2)

/-- `W ARG0, l ; W ARG1, t ; CMD c`. -/
def beginRecord (c : Instr) (l t : Word) (s : State) : State := after c (after (.wArg1 t) (after (.wArg0 l) s))

/-- `CODE sym, "b1 ... bL"`. -/
def loadEntry (e : Byte × List Bool) (s : State) : State :=
  e.2.foldl (fun s bit => after (.dinEntry (byteWord (charOfBit bit))) s)
    (after .tblEntry (after (.wArg1 (BitVec.ofNat 32 e.2.length)) (after (.wArg0 (byteWord e.1)) s)))

/-- `TABLE n ; CODE ... ; CODE ...`. -/
def loadTable (table : List (Byte × List Bool)) (s : State) : State :=
  table.foldl (fun s e => loadEntry e s) (after .tblBegin (after (.wArg0 (BitVec.ofNat 32 table.length)) s))

/-- The distinct non-empty prefixes of the code strings of a table (41_tree_reconstructor.md R122). -/
def codePrefixes (table : List (Byte × List Bool)) : List (List Bool) :=
  ((table.map fun e => e.2.inits.tail).flatten).dedup

/-- No code string is a proper prefix of another; equal strings are allowed (R122 d). -/
def NoProperPrefix (table : List (Byte × List Bool)) : Prop :=
  ∀ a ∈ table, ∀ b ∈ table, a.2 <+: b.2 → a.2 = b.2

/-- The symbol of the last entry of a table that has the code string `w` (R121). -/
def lastSymbol (table : List (Byte × List Bool)) (w : List Bool) : Option Byte :=
  (table.reverse.find? fun e => e.2 == w).map fun e => e.1

end Sys2Proof.Machine
end

