-- ==== Sys2Proof/Certificates/Slice0/Obligations.lean ====
section
/-! DEFINITION. The statements about the machine, from the numbered rules of the spec. -/

open Sys2Proof Sys2Proof.Machine

/-! ### Reset, the control commands and the host port -/

/-- 70_reset_and_hazards.md R240: every element's reset value, and the register view after reset, whatever legal parameters
the implementation has (State.reset itself has the defaults of 00_scope.md R4, log entry 3). -/
def Obligations.ResetLeavesTheTabledValues : Prop :=
  ∀ p : Params, p.Legal →
  let s := { State.reset with params := p }
  (s.phase = .idle ∧ s.treeValid = false ∧ s.done = false ∧ s.arg0 = 0#32 ∧ s.arg1 = 0#32 ∧ s.nodecnt = 0#17 ∧ s.remain = 0#9
    ∧ s.eSym = 0#8 ∧ s.eLen = 0#8 ∧ s.eLeft = 0#8 ∧ s.wpos = 0#16 ∧ s.pos = 0#16 ∧ s.bitlen = 0#31 ∧ s.bytesLeft = 0#29
    ∧ s.lastvalid = 8#4 ∧ s.bitcnt = 0#32 ∧ s.outcnt = 0#32 ∧ s.outq = [] ∧ s.errCause = none ∧ s.errInfo = 0#32
    ∧ s.inten = 0#4 ∧ s.nodeidx = 0#16 ∧ s.irq = false)
  ∧ (∃ w : Word, exec .rConfig s = .next { s with answer := .data w }
      ∧ (w.extractLsb' 0 16).toNat + 1 = p.nnodes ∧ (w.extractLsb' 16 16).toNat = p.outqDepth)
  ∧ exec .rStatus s = .next { s with answer := .data 0x00000100#32 }
  ∧ (∀ i, i = .rErr ∨ i = .rErrinfo ∨ i = .rInten ∨ i = .rArg0 ∨ i = .rArg1 ∨ i = .doutPop ∨ i = .rBitcnt
      ∨ i = .rOutcnt ∨ i = .rPos ∨ i = .rNodecnt ∨ i = .rNodeidx ∨ i = .rNodedat0 ∨ i = .rNodedat1 →
    exec i s = .next { s with answer := .data 0#32 })

/-- 70_reset_and_hazards.md R241, 43_control_and_io.md R173: SOFT_RESET and the reset input both put every state element at
its reset value, from every state; node content is not cleared. R241 says that an action in flight at the reset input is not
completed; that it has no effect and no answer, and that the later events stay pending, is the model's reading (log entry 9,
DEDUCED). -/
def Obligations.SoftResetAndResetInputReset : Prop :=
  (∀ s, exec .softReset s =
    .next { State.reset with nodes := s.nodes, params := s.params, pending := s.pending, answer := s.answer })
  ∧ ∀ s inFlight rest, s.pending = .resetInput inFlight :: rest →
    step s = .next { State.reset with nodes := s.nodes, params := s.params, pending := rest, answer := .none }

/-- 43_control_and_io.md R170: NOP leaves every state element as it was, in every state. -/
def Obligations.NopChangesNothing : Prop := ∀ s, exec .nop s = .next s

/-- 43_control_and_io.md R172: what ABORT writes, in every state, and that it writes nothing else. -/
def Obligations.AbortReturnsToIdleAndKeepsTheTrie : Prop :=
  ∀ s, exec .abort s = .next { s with
    phase := .idle, errCause := none, errInfo := 0#32, done := false, outq := [], pos := 0#16, bitcnt := 0#32, outcnt := 0#32,
    bytesLeft := 0#29, eLeft := 0#8, remain := 0#9 }

/-- 43_control_and_io.md R176: a read answers the register's value at that instant and changes nothing (registers that
are one state element; the laid-out ones have statements of their own). -/
def Obligations.PlainReadsAnswerTheirElement : Prop :=
  ∀ s : State,
    exec .rErrinfo s = .next { s with answer := .data s.errInfo }
    ∧ exec .rInten s = .next { s with answer := .data (s.inten.setWidth 32) }
    ∧ exec .rArg0 s = .next { s with answer := .data s.arg0 }
    ∧ exec .rArg1 s = .next { s with answer := .data s.arg1 }
    ∧ exec .rBitcnt s = .next { s with answer := .data s.bitcnt }
    ∧ exec .rOutcnt s = .next { s with answer := .data s.outcnt }
    ∧ exec .rPos s = .next { s with answer := .data (s.pos.setWidth 32) }
    ∧ exec .rNodecnt s = .next { s with answer := .data (s.nodecnt.setWidth 32) }
    ∧ exec .rNodeidx s = .next { s with answer := .data (s.nodeidx.setWidth 32) }

/-- 30_encoding.md R62 with 10_state.md R25: every field of the STATUS word, read live, and nothing else changes. -/
def Obligations.StatusReadShowsEveryField : Prop :=
  ∀ s : State, s.params.Legal → s.outq.length ≤ s.params.outqDepth →
    ∃ w : Word, exec .rStatus s = .next { s with answer := .data w }
      ∧ (w.extractLsb' 0 3).toNat = (match s.phase with
          | .idle => 0 | .load => 1 | .entry => 2 | .decode => 3 | .unpack => 4 | .error => 7)
      ∧ w.getLsbD 3 = false
      ∧ w.getLsbD 4 = s.treeValid
      ∧ w.getLsbD 5 = s.done
      ∧ (w.getLsbD 6 = true ↔ s.phase = .entry
          ∨ ((s.phase = .decode ∨ s.phase = .unpack) ∧ s.outq.length + 8 ≤ s.params.outqDepth))
      ∧ (w.getLsbD 7 = true ↔ s.outq ≠ [])
      ∧ (w.getLsbD 8 = true ↔ s.pos = 0#16)
      ∧ w.extractLsb' 9 7 = 0#7
      ∧ (w.extractLsb' 16 16).toNat = s.outq.length

/-- 30_encoding.md R63 with the codes and kinds of 60_exceptions.md R201 and R202: the ERR word for every recorded cause, and
ERRINFO. -/
def Obligations.ErrReadShowsCauseAndKind : Prop :=
  ∀ s : State, exec .rErr s = .next { s with answer := .data (match s.errCause with
    | none => 0x000
    | some .badCodeCount => 0x201
    | some .badCodeLength => 0x202
    | some .badBitChar => 0x503
    | some .prefixConflict => 0x504
    | some .nodeExhausted => 0x105
    | some .badBitLength => 0x606
    | some .badTrailCount => 0x607
    | some .absentChild => 0x408
    | some .endNotAtRoot => 0x409
    | some .badCommand => 0x70A
    | some .badState => 0x70B
    | some .dinUnexpected => 0x70C
    | some .dinOverrun => 0x70D) }
  ∧ exec .rErrinfo s = .next { s with answer := .data s.errInfo }

/-- 30_encoding.md R70: CONFIG shows NNODES - 1 and OUTQ_DEPTH, for all legal parameters. -/
def Obligations.ConfigReadShowsTheParameters : Prop :=
  ∀ s : State, s.params.Legal → ∃ w : Word, exec .rConfig s = .next { s with answer := .data w }
    ∧ (w.extractLsb' 0 16).toNat + 1 = s.params.nnodes ∧ (w.extractLsb' 16 16).toNat = s.params.outqDepth

/-- 30_encoding.md R71: NODEDAT0 and NODEDAT1 show the selected node when it is allocated, and 0 when it is not. -/
def Obligations.NodeReadsShowAllocatedNodesOnly : Prop :=
  ∀ s : State, ∃ w0 w1 : Word,
    exec .rNodedat0 s = .next { s with answer := .data w0 } ∧ exec .rNodedat1 s = .next { s with answer := .data w1 }
    ∧ (s.nodeidx.toNat < s.nodecnt.toNat →
        w0.getLsbD 31 = true ∧ w0.getLsbD 30 = (s.node s.nodeidx).leaf ∧ w0.extractLsb' 8 22 = 0#22
        ∧ w0.extractLsb' 0 8 = (s.node s.nodeidx).sym
        ∧ w1.extractLsb' 16 16 = (s.node s.nodeidx).right ∧ w1.extractLsb' 0 16 = (s.node s.nodeidx).left)
    ∧ (s.nodecnt.toNat ≤ s.nodeidx.toNat → w0 = 0#32 ∧ w1 = 0#32)

/-- 43_control_and_io.md R175: the four plain writes, in every state, and the writes that are ignored in every state
(`off` is the byte offset of a read-only or reserved register). -/
def Obligations.PlainWritesStoreMaskedOthersAreIgnored : Prop :=
  (∀ (s : State) (v : Word),
    exec (.wArg0 v) s = .next { s with arg0 := v }
    ∧ exec (.wArg1 v) s = .next { s with arg1 := v }
    ∧ exec (.wInten v) s = .next { s with inten := v.extractLsb' 0 4 }
    ∧ exec (.wNodeidx v) s = .next { s with nodeidx := v.extractLsb' 0 16 })
  ∧ ∀ (s : State) (addr : Nat) (v : Word) (rest : List HostEvent),
    s.pending = .access (.write addr 4 v) :: rest → addr % 4 = 0 →
    addr % 256 ∉ [0x04, 0x14, 0x18, 0x1C, 0x20, 0x38] →
    step s = .next { s with pending := rest, answer := .done }

/-- 20_memory.md R41, 30_encoding.md R61: a reserved offset and the write-only registers CMD and DIN read 0, with no
effect. -/
def Obligations.WriteOnlyAndReservedOffsetsReadZero : Prop :=
  ∀ (s : State) (addr : Nat) (rest : List HostEvent),
    s.pending = .access (.read addr 4) :: rest → addr % 4 = 0 →
    (addr % 256 = 0x04 ∨ addr % 256 = 0x20 ∨ 0x44 ≤ addr % 256) →
    step s = .next { s with pending := rest, answer := .data 0#32 }

/-- 20_memory.md R47: a misaligned access, or one of another width than four bytes, gets an error response and changes no
state element. -/
def Obligations.MisalignedOrNarrowAccessIsRefusedByThePort : Prop :=
  ∀ (s : State) (a : Access) (rest : List HostEvent), s.pending = .access a :: rest →
    (a.addr % 4 ≠ 0 ∨ a.width ≠ 4) → step s = .next { s with pending := rest, answer := .error }

/-- 43_control_and_io.md R174 with 30_encoding.md R68: a read of DOUT pops the head, and answers 0 from an empty queue; in
every state, and nothing else changes. -/
def Obligations.DoutReadPopsTheHead : Prop :=
  (∀ s : State, s.outq = [] → exec .doutPop s = .next { s with answer := .data 0#32 })
  ∧ ∀ (s : State) (d : Byte) (rest : List Byte), s.outq = d :: rest →
    ∃ w : Word, exec .doutPop s = .next { s with outq := rest, answer := .data w }
      ∧ w.extractLsb' 0 8 = d ∧ w.getLsbD 8 = true ∧ w.extractLsb' 9 23 = 0#23

/-- 60_exceptions.md R208: the interrupt line. -/
def Obligations.InterruptLineIsItsFourSources : Prop :=
  ∀ s : State, (s.irq = true ↔
      (s.inten.getLsbD 0 = true ∧ s.done = true)
      ∨ (s.inten.getLsbD 1 = true ∧ s.phase = .error)
      ∨ (s.inten.getLsbD 2 = true ∧ (s.phase = .entry
          ∨ ((s.phase = .decode ∨ s.phase = .unpack) ∧ 8 ≤ s.params.outqDepth - s.outq.length)))
      ∨ (s.inten.getLsbD 3 = true ∧ s.outq ≠ []))

/-! ### A step -/

/-- 20_memory.md R48, R50: the oldest pending access is decoded in the present STATE, and the step is `exec` of what it
decodes to; around it the access is no longer pending and the port answers `done`, unless `exec` answers a read. -/
def Obligations.StepRunsTheDecodedInstruction : Prop :=
  ∀ (s : State) (a : Access) (rest : List HostEvent) (i : Instr), s.pending = .access a :: rest →
    decode s.phase a = .instr i → step s = exec i { s with pending := rest, answer := .done }

/-- 10_state.md R10: with no host action to react to, nothing changes. -/
def Obligations.NothingChangesBetweenActions : Prop := ∀ s : State, s.pending = [] → step s = .next s

/-- Every instruction answers a next state in every state, and so does every step: nothing the host does stops the
machine. -/
def Obligations.EveryActionCompletes : Prop :=
  (∀ i s, ∃ t, exec i s = .next t) ∧ ∀ s, ∃ t, step s = .next t

/-! ### Encoding -/

/-- A sanity check of the decoder on words written out from the spec: 30_encoding.md R64 (command words), R61 (offsets),
95_test_vectors.md section 3, program P1 (lines 3, 5, 6, 14 and 15), and section 2, vector V-C6 (the word 0x101). -/
def Obligations.WordsOfProgramP1Decode : Prop :=
  decode .load (.write 0x18 4 0x00000061) = .instr (.wArg0 0x61)
  ∧ decode .load (.write 0x04 4 0x00000002) = .instr .tblEntry
  ∧ decode .entry (.write 0x20 4 0x00000030) = .instr (.dinEntry 0x30)
  ∧ decode .decode (.write 0x20 4 0x00000010) = .instr (.dinDecode 0x10)
  ∧ decode .idle (.read 0x24 4) = .instr .doutPop
  ∧ decode .idle (.write 0x04 4 0x00000101) = .rejected (.badCommand 0x101)

/-- Decode and encode agree: for every window base, every STATE and every instruction that STATE selects, with every
written word. -/
def Obligations.DecodeOfEncode : Prop :=
  ∀ (base : Nat) (p : Phase) (i : Instr), base % 256 = 0 → i.wellFormed p = true →
    decode p (encode base i) = .instr i

/-- The other direction: an access that decodes to an instruction IS that instruction's encoding in its window, and STATE
selects it. So no access has two meanings. -/
def Obligations.EncodeOfDecode : Prop :=
  ∀ (p : Phase) (a : Access) (i : Instr), decode p a = .instr i →
    i.wellFormed p = true ∧ encode (a.addr - a.addr % 256) i = a

/-- 30_encoding.md R65: a word written to CMD with an opcode above 0x06 or a bit of [31:8] set raises BadCommand with the
word as ERR_INFO, and is ignored in ERROR. -/
def Obligations.IllegalCommandWordRaisesBadCommand : Prop :=
  ∀ (s : State) (addr : Nat) (v : Word) (rest : List HostEvent),
    s.pending = .access (.write addr 4 v) :: rest → addr % 256 = 0x04 → 0x06 < v.toNat →
    (s.phase ≠ .error → step s = .next { s with
      pending := rest, answer := .done, errCause := some .badCommand, errInfo := v, phase := .error, done := false })
    ∧ (s.phase = .error → step s = .next { s with pending := rest, answer := .done })

/-- 30_encoding.md R67: bits [31:8] of a word written to DIN are ignored, in every state. -/
def Obligations.DinIgnoresUpperBits : Prop :=
  ∀ (s : State) (v w : Word), v.toNat % 256 = w.toNat % 256 →
    exec (.dinEntry v) s = exec (.dinEntry w) s ∧ exec (.dinDecode v) s = exec (.dinDecode w) s
    ∧ exec (.dinUnpack v) s = exec (.dinUnpack w) s ∧ exec (.dinUnexpected v) s = exec (.dinUnexpected w) s

/-! ### Commands -/

/-- 41_tree_reconstructor.md R112: TBL_BEGIN in every state. In IDLE a legal count opens a load with a single empty root, and
an illegal one faults after TREE_VALID and DONE are cleared; in LOAD, ENTRY, DECODE and UNPACK it faults and writes nothing
else; every node but node 0 reads as before. -/
def Obligations.TblBeginOpensALoad : Prop :=
  ∀ s : State,
    (s.phase = .idle → 1 ≤ s.arg0.toInt → s.arg0.toInt ≤ 256 →
      ∃ m : Memory, exec .tblBegin s = .next { s with
          treeValid := false, done := false, nodes := m, nodecnt := 1#17, remain := s.arg0.setWidth 9,
          phase := .load }
        ∧ m.read 0 = { leaf := false, sym := 0#8, left := 0#16, right := 0#16 } ∧ ∀ i, i ≠ 0 → m.read i = s.nodes.read i)
    ∧ (s.phase = .idle → (s.arg0.toInt < 1 ∨ 256 < s.arg0.toInt) →
      exec .tblBegin s = .next { s with
        treeValid := false, done := false, errCause := some .badCodeCount, errInfo := s.arg0, phase := .error })
    ∧ (s.phase = .load ∨ s.phase = .entry ∨ s.phase = .decode ∨ s.phase = .unpack →
      exec .tblBegin s = .next { s with
        done := false, errCause := some .badState, errInfo := 0x01#32, phase := .error })
    ∧ (s.phase = .error → exec .tblBegin s = .next s)

/-- 41_tree_reconstructor.md R114: TBL_ENTRY in every state. -/
def Obligations.TblEntryOpensAnEntry : Prop :=
  ∀ s : State,
    (s.phase = .load → 1 ≤ s.arg1.toInt → s.arg1.toInt ≤ 255 →
      exec .tblEntry s = .next { s with
        eSym := s.arg0.extractLsb' 0 8, eLen := s.arg1.setWidth 8, eLeft := s.arg1.setWidth 8,
        wpos := 0#16, phase := .entry })
    ∧ (s.phase = .load → (s.arg1.toInt < 1 ∨ 255 < s.arg1.toInt) →
      exec .tblEntry s = .next { s with
        done := false, errCause := some .badCodeLength, errInfo := s.arg1, phase := .error })
    ∧ (s.phase = .idle ∨ s.phase = .entry ∨ s.phase = .decode ∨ s.phase = .unpack →
      exec .tblEntry s = .next { s with
        done := false, errCause := some .badState, errInfo := 0x02#32, phase := .error })
    ∧ (s.phase = .error → exec .tblEntry s = .next s)

/-- 42_decode_automaton.md R141: DEC_BEGIN in every state, with its checks in their order; a record of length 0 is complete
at once. -/
def Obligations.DecBeginOpensARecord : Prop :=
  ∀ s : State, let l := s.arg0.toInt; let t := s.arg1.toInt
    let opened := { s with
      bitlen := s.arg0.setWidth 31, lastvalid := s.arg1.setWidth 4, bytesLeft := BitVec.ofNat 29 ((s.arg0.toNat + 7) / 8),
      bitcnt := 0#32, outcnt := 0#32, pos := 0#16 }
    let legal := t = if l % 8 = 0 then 8 else l % 8
    (s.phase = .idle → s.treeValid = true → 0 < l → legal →
      exec .decBegin s = .next { opened with done := false, phase := .decode })
    ∧ (s.phase = .idle → s.treeValid = true → l = 0 → t = 8 → exec .decBegin s = .next { opened with done := true })
    ∧ (s.phase = .idle → s.treeValid = true → l < 0 →
      exec .decBegin s = .next { s with
        done := false, errCause := some .badBitLength, errInfo := s.arg0, phase := .error })
    ∧ (s.phase = .idle → s.treeValid = true → 0 ≤ l → (t < 1 ∨ 8 < t ∨ ¬ legal) →
      exec .decBegin s = .next { s with
        done := false, errCause := some .badTrailCount, errInfo := s.arg1, phase := .error })
    ∧ (s.phase = .idle → s.treeValid = false →
      exec .decBegin s = .next { s with
        done := false, errCause := some .badState, errInfo := 0x103#32, phase := .error })
    ∧ (s.phase = .load ∨ s.phase = .entry ∨ s.phase = .decode ∨ s.phase = .unpack →
      exec .decBegin s = .next { s with
        done := false, errCause := some .badState, errInfo := 0x03#32, phase := .error })
    ∧ (s.phase = .error → exec .decBegin s = .next s)

/-- 40_bit_unpacker.md R95: UNPK_BEGIN in every state, with its checks in their order; TREE_VALID is neither read nor
written, and POS is not written. -/
def Obligations.UnpkBeginOpensARecord : Prop :=
  ∀ s : State, let l := s.arg0.toInt; let t := s.arg1.toInt
    let opened := { s with
      bitlen := s.arg0.setWidth 31, lastvalid := s.arg1.setWidth 4, bytesLeft := BitVec.ofNat 29 ((s.arg0.toNat + 7) / 8),
      bitcnt := 0#32, outcnt := 0#32 }
    let legal := t = if l % 8 = 0 then 8 else l % 8
    (s.phase = .idle → 0 < l → legal → exec .unpkBegin s = .next { opened with done := false, phase := .unpack })
    ∧ (s.phase = .idle → l = 0 → t = 8 → exec .unpkBegin s = .next { opened with done := true })
    ∧ (s.phase = .idle → l < 0 →
      exec .unpkBegin s = .next { s with
        done := false, errCause := some .badBitLength, errInfo := s.arg0, phase := .error })
    ∧ (s.phase = .idle → 0 ≤ l → (t < 1 ∨ 8 < t ∨ ¬ legal) →
      exec .unpkBegin s = .next { s with
        done := false, errCause := some .badTrailCount, errInfo := s.arg1, phase := .error })
    ∧ (s.phase = .load ∨ s.phase = .entry ∨ s.phase = .decode ∨ s.phase = .unpack →
      exec .unpkBegin s = .next { s with
        done := false, errCause := some .badState, errInfo := 0x04#32, phase := .error })
    ∧ (s.phase = .error → exec .unpkBegin s = .next s)

/-! ### Bytes written to DIN -/

/-- 41_tree_reconstructor.md R118: one bit character of the open entry, in every case of the rule. The walk pointer stands on
an allocated node and the node memory is within its arena (both parts of `Inv`). `m` is the node memory after a step that
allocates node NODECNT and links it to WPOS's slot `bit`, or that overwrites a Leaf's symbol: every other node reads as
before. With the last entry's final step the load ends. -/
def Obligations.EntryByteTakesOneStepOfTheWalk : Prop :=
  ∀ (s : State) (v : Word), s.phase = .entry → s.wpos.toNat < s.nodecnt.toNat → s.nodecnt.toNat ≤ s.params.nnodes →
    s.params.nnodes ≤ 65536 →
    let c := v.extractLsb' 0 8
    let i := s.eLen - s.eLeft
    let fresh : NodeIdx := s.nodecnt.setWidth 16
    let closed (t : State) : State :=
      if s.remain = 1#9 then { t with eLeft := 0#8, remain := 0#9, phase := .idle, treeValid := true, done := true }
      else { t with eLeft := 0#8, remain := s.remain - 1#9, phase := .load }
    let faulted (cause : Cause) (info : Word) : State :=
      { s with done := false, errCause := some cause, errInfo := info, phase := .error }
    (c ≠ 0x30#8 → c ≠ 0x31#8 → exec (.dinEntry v) s = .next (faulted .badBitChar (BitVec.ofNat 32 (i.toNat * 256 + c.toNat))))
    ∧ ∀ bit : Bool, c = (if bit = true then 0x31#8 else 0x30#8) →
      let ch := if bit then (s.node s.wpos).right else (s.node s.wpos).left
      (ch = 0#16 → s.nodecnt.toNat = s.params.nnodes →
        exec (.dinEntry v) s = .next (faulted .nodeExhausted (s.eSym.setWidth 32)))
      ∧ (ch = 0#16 → s.nodecnt.toNat < s.params.nnodes → 1 < s.eLeft.toNat →
        ∃ m : Memory, exec (.dinEntry v) s = .next { s with
            nodes := m, nodecnt := s.nodecnt + 1#17, wpos := fresh, eLeft := s.eLeft - 1#8 }
          ∧ m.read fresh.toNat = { leaf := false, sym := 0#8, left := 0#16, right := 0#16 }
          ∧ m.read s.wpos.toNat = (if bit = true then { s.node s.wpos with right := fresh } else { s.node s.wpos with left := fresh })
          ∧ ∀ j, j ≠ fresh.toNat → j ≠ s.wpos.toNat → m.read j = s.nodes.read j)
      ∧ (ch ≠ 0#16 → (s.node ch).leaf = false → 1 < s.eLeft.toNat →
        exec (.dinEntry v) s = .next { s with wpos := ch, eLeft := s.eLeft - 1#8 })
      ∧ (ch ≠ 0#16 → (s.node ch).leaf = true → 1 < s.eLeft.toNat →
        exec (.dinEntry v) s = .next (faulted .prefixConflict (BitVec.ofNat 32 (i.toNat * 256 + s.eSym.toNat))))
      ∧ (ch = 0#16 → s.nodecnt.toNat < s.params.nnodes → s.eLeft.toNat = 1 →
        ∃ m : Memory, exec (.dinEntry v) s = .next (closed { s with nodes := m, nodecnt := s.nodecnt + 1#17 })
          ∧ m.read fresh.toNat = { leaf := true, sym := s.eSym, left := 0#16, right := 0#16 }
          ∧ m.read s.wpos.toNat = (if bit = true then { s.node s.wpos with right := fresh } else { s.node s.wpos with left := fresh })
          ∧ ∀ j, j ≠ fresh.toNat → j ≠ s.wpos.toNat → m.read j = s.nodes.read j)
      ∧ (ch ≠ 0#16 → (s.node ch).leaf = true → s.eLeft.toNat = 1 →
        ∃ m : Memory, exec (.dinEntry v) s = .next (closed { s with nodes := m })
          ∧ m.read ch.toNat = { s.node ch with sym := s.eSym }
          ∧ ∀ j, j ≠ ch.toNat → m.read j = s.nodes.read j)
      ∧ (ch ≠ 0#16 → (s.node ch).leaf = false → s.eLeft.toNat = 1 →
        exec (.dinEntry v) s = .next (faulted .prefixConflict (BitVec.ofNat 32 (i.toNat * 256 + s.eSym.toNat))))

/-- 42_decode_automaton.md R143 with R142: one packed byte in state DECODE, in every case of the rule, against the walk of
its bits from POS (`w`). Nothing that the cases do not name changes: no node, no other register. -/
def Obligations.DecodeByteStepsItsBits : Prop :=
  ∀ (s : State) (v : Word), s.phase = .decode →
    let n := if s.bytesLeft = 1#29 then s.lastvalid.toNat else 8
    let w := walk s.node s.pos (bitsOfByte (v.extractLsb' 0 8) n)
    let walked := { s with
      outq := s.outq ++ w.out, outcnt := s.outcnt + BitVec.ofNat 32 w.out.length,
      bitcnt := s.bitcnt + BitVec.ofNat 32 w.stepped, pos := w.pos }
    (s.params.outqDepth - s.outq.length < 8 →
      exec (.dinDecode v) s = .next { s with
        done := false, errCause := some .dinOverrun, errInfo := (BitVec.ofNat 16 s.outq.length).setWidth 32,
        phase := .error })
    ∧ (8 ≤ s.params.outqDepth - s.outq.length → w.absent = true →
      exec (.dinDecode v) s = .next { walked with
        done := false, errCause := some .absentChild, errInfo := walked.bitcnt, phase := .error })
    ∧ (8 ≤ s.params.outqDepth - s.outq.length → w.absent = false → s.bytesLeft ≠ 1#29 →
      exec (.dinDecode v) s = .next { walked with bytesLeft := s.bytesLeft - 1#29 })
    ∧ (8 ≤ s.params.outqDepth - s.outq.length → w.absent = false → s.bytesLeft = 1#29 → w.pos = 0#16 →
      exec (.dinDecode v) s = .next { walked with bytesLeft := 0#29, phase := .idle, done := true })
    ∧ (8 ≤ s.params.outqDepth - s.outq.length → w.absent = false → s.bytesLeft = 1#29 → w.pos ≠ 0#16 →
      exec (.dinDecode v) s = .next { walked with
        bytesLeft := 0#29, done := false, errCause := some .endNotAtRoot, errInfo := w.pos.setWidth 32, phase := .error })

/-- 40_bit_unpacker.md R96: one packed byte in state UNPACK, in every case of the rule; nothing else changes. -/
def Obligations.UnpackByteEmitsItsBitCharacters : Prop :=
  ∀ (s : State) (v : Word), s.phase = .unpack →
    let n := if s.bytesLeft = 1#29 then s.lastvalid.toNat else 8
    let bits := bitsOfByte (v.extractLsb' 0 8) n
    let emitted := { s with
      outq := s.outq ++ bits.map (fun bit : Bool => if bit then 0x31#8 else 0x30#8)
      outcnt := s.outcnt + BitVec.ofNat 32 bits.length, bitcnt := s.bitcnt + BitVec.ofNat 32 bits.length }
    (s.params.outqDepth - s.outq.length < 8 →
      exec (.dinUnpack v) s = .next { s with
        done := false, errCause := some .dinOverrun, errInfo := (BitVec.ofNat 16 s.outq.length).setWidth 32,
        phase := .error })
    ∧ (8 ≤ s.params.outqDepth - s.outq.length → s.bytesLeft ≠ 1#29 →
      exec (.dinUnpack v) s = .next { emitted with bytesLeft := s.bytesLeft - 1#29 })
    ∧ (8 ≤ s.params.outqDepth - s.outq.length → s.bytesLeft = 1#29 →
      exec (.dinUnpack v) s = .next { emitted with bytesLeft := 0#29, phase := .idle, done := true })

/-- 40_bit_unpacker.md R92: the bits a byte gives are its `n` high-order bits, highest first, and no lower bit counts. -/
def Obligations.BitsOfByteAreTheHighOrderBits : Prop :=
  ∀ (b : Byte) (n : Nat), 1 ≤ n → n ≤ 8 → (bitsOfByte b n).length = n
    ∧ (∀ k, k < n → (bitsOfByte b n)[k]? = some (b.getLsbD (7 - k)))
    ∧ ∀ b' : Byte, (∀ j, 8 - n ≤ j → j < 8 → b'.getLsbD j = b.getLsbD j) → bitsOfByte b' n = bitsOfByte b n

/-- 20_memory.md R44: in the last byte of a record the bits below the LASTVALID high-order bits make no difference. -/
def Obligations.PaddingBitsMakeNoDifference : Prop :=
  ∀ (s : State) (v w : Word), s.bytesLeft = 1#29 →
    (∀ j, 8 - s.lastvalid.toNat ≤ j → j < 8 → v.getLsbD j = w.getLsbD j) →
    (s.phase = .decode → exec (.dinDecode v) s = exec (.dinDecode w) s)
    ∧ (s.phase = .unpack → exec (.dinUnpack v) s = exec (.dinUnpack w) s)

/-- 43_control_and_io.md R177: a byte nobody asked for faults DinUnexpected in IDLE and LOAD; a DIN write is ignored in
ERROR; and STATE alone, not the row's name, says what a DIN write does (log entry 7). -/
def Obligations.DinIsDispatchedOnState : Prop :=
  ∀ (s : State) (v : Word),
    (s.phase = .idle ∨ s.phase = .load →
      exec (.dinUnexpected v) s = .next { s with
        done := false, errCause := some .dinUnexpected, errInfo := (v.extractLsb' 0 8).setWidth 32, phase := .error })
    ∧ (s.phase = .error → exec (.dinUnexpected v) s = .next s)
    ∧ exec (.dinEntry v) s = exec (.dinUnexpected v) s
    ∧ exec (.dinDecode v) s = exec (.dinUnexpected v) s
    ∧ exec (.dinUnpack v) s = exec (.dinUnexpected v) s

/-! ### Faults and the state machine -/

/-- 60_exceptions.md R203, R204: fault entry writes ERR_CAUSE, ERR_INFO, STATE and DONE, and beside them stands only what the
rule did before the raise: for AbsentChild and EndNotAtRoot the steps of the automaton, for TBL_BEGIN the clearing of
TREE_VALID, for every other fault nothing. -/
def Obligations.FaultEntryWritesNothingElse : Prop :=
  ∀ (i : Instr) (s t : State), exec i s = .next t → s.phase ≠ .error → t.phase = .error →
    ∃ cause, t.errCause = some cause ∧ t.done = false ∧
      (cause = .absentChild → t = { s with
        pos := t.pos, bitcnt := t.bitcnt, outcnt := t.outcnt, outq := t.outq,
        errCause := some cause, errInfo := t.bitcnt, phase := .error, done := false })
      ∧ (cause = .endNotAtRoot → t = { s with
        pos := t.pos, bitcnt := t.bitcnt, outcnt := t.outcnt, outq := t.outq, bytesLeft := 0#29,
        errCause := some cause, errInfo := t.pos.setWidth 32, phase := .error, done := false })
      ∧ (cause = .badCodeCount → t = { s with
        treeValid := false, errCause := some cause, errInfo := s.arg0, phase := .error, done := false })
      ∧ (cause ≠ .absentChild → cause ≠ .endNotAtRoot → cause ≠ .badCodeCount → t = { s with
        errCause := some cause, errInfo := t.errInfo, phase := .error, done := false })

/-- 60_exceptions.md R200: the block enters ERROR only in the step of a whole-word write to CMD or DIN. -/
def Obligations.FaultsComeOnlyFromWritesToCmdAndDin : Prop :=
  ∀ (s t : State), step s = .next t → s.phase ≠ .error → t.phase = .error →
    ∃ addr v rest, s.pending = .access (.write addr 4 v) :: rest ∧ (addr % 256 = 0x04 ∨ addr % 256 = 0x20)

/-- 60_exceptions.md R201, the column "raised by": an instruction that enters ERROR records a cause of its own rule, in a STATE
of that rule (BadCommand is raised by no instruction: an illegal word is none). -/
def Obligations.EachCauseComesFromItsOwnRule : Prop :=
  ∀ (i : Instr) (s t : State), exec i s = .next t → s.phase ≠ .error → t.phase = .error →
    match t.errCause with
    | some .badCodeCount => i = .tblBegin ∧ s.phase = .idle
    | some .badCodeLength => i = .tblEntry ∧ s.phase = .load
    | some .badBitChar => IsDin i ∧ s.phase = .entry
    | some .prefixConflict => IsDin i ∧ s.phase = .entry
    | some .nodeExhausted => IsDin i ∧ s.phase = .entry
    | some .badBitLength => (i = .decBegin ∨ i = .unpkBegin) ∧ s.phase = .idle
    | some .badTrailCount => (i = .decBegin ∨ i = .unpkBegin) ∧ s.phase = .idle
    | some .absentChild => IsDin i ∧ s.phase = .decode
    | some .endNotAtRoot => IsDin i ∧ s.phase = .decode
    | some .badState => IsOperationCommand i
    | some .dinUnexpected => IsDin i ∧ (s.phase = .idle ∨ s.phase = .load)
    | some .dinOverrun => IsDin i ∧ (s.phase = .decode ∨ s.phase = .unpack)
    | some .badCommand => False
    | none => False

/-- 70_reset_and_hazards.md R243: in DECODE and UNPACK the bit DIN_RDY of a STATUS read says whether the next byte will
overrun, exactly. -/
def Obligations.ReadinessTellsOverrun : Prop :=
  ∀ (s t : State) (w : Word) (i : Instr), s.phase = .decode ∨ s.phase = .unpack → s.errCause = none →
    exec .rStatus s = .next { s with answer := .data w } → IsDin i → exec i s = .next t →
    (t.errCause = some .dinOverrun ↔ w.getLsbD 6 = false)

/-- 60_exceptions.md R205, R206: in ERROR every event but the reset input and the command words ABORT and SOFT_RESET leaves
STATE and the fault record as they are. -/
def Obligations.ErrorIsLeftOnlyByAbortOrReset : Prop :=
  ∀ (s t : State) (e : HostEvent) (rest : List HostEvent), s.phase = .error → s.pending = e :: rest → step s = .next t →
    (t.phase = .error ∧ t.errCause = s.errCause ∧ t.errInfo = s.errInfo)
    ∨ (∃ inFlight, e = .resetInput inFlight)
    ∨ (∃ addr v, e = .access (.write addr 4 v) ∧ addr % 256 = 0x04 ∧ (v = 0x05#32 ∨ v = 0x06#32) ∧ t.phase = .idle
        ∧ t.errCause = none ∧ t.errInfo = 0#32)

/-- 60_exceptions.md R205: in ERROR a word written to CMD other than ABORT and SOFT_RESET, and any word written to DIN,
changes no state element. -/
def Obligations.ErrorIgnoresCommandsAndData : Prop :=
  ∀ (s : State) (addr : Nat) (v : Word) (rest : List HostEvent), s.phase = .error →
    s.pending = .access (.write addr 4 v) :: rest →
    ((addr % 256 = 0x04 ∧ v ≠ 0x05#32 ∧ v ≠ 0x06#32) ∨ addr % 256 = 0x20) →
    step s = .next { s with pending := rest, answer := .done }

/-- 43_control_and_io.md R178: an instruction changes STATE only from and to the values its table names for it. -/
def Obligations.StateChangesOnlyAsTabled : Prop :=
  ∀ (i : Instr) (s t : State), exec i s = .next t → t.phase ≠ s.phase →
    (s.phase = .idle ∧ t.phase = .load ∧ i = .tblBegin)
    ∨ (s.phase = .idle ∧ t.phase = .decode ∧ i = .decBegin)
    ∨ (s.phase = .idle ∧ t.phase = .unpack ∧ i = .unpkBegin)
    ∨ (s.phase = .load ∧ t.phase = .entry ∧ i = .tblEntry)
    ∨ (s.phase = .entry ∧ t.phase = .load ∧ IsDin i)
    ∨ (s.phase = .entry ∧ t.phase = .idle ∧ IsDin i ∧ t.treeValid = true ∧ t.done = true)
    ∨ (s.phase = .decode ∧ t.phase = .idle ∧ IsDin i ∧ t.pos = 0#16 ∧ t.done = true)
    ∨ (s.phase = .unpack ∧ t.phase = .idle ∧ IsDin i ∧ t.done = true)
    ∨ (t.phase = .idle ∧ IsAbortOrReset i)
    ∨ (s.phase ≠ .error ∧ t.phase = .error ∧ (IsOperationCommand i ∨ IsDin i))

/-! ### Who writes what -/

/-- 20_memory.md R52: the only writers of the node memory are TBL_BEGIN in IDLE and a DIN write in ENTRY, and a TBL_BEGIN
written in DECODE faults BadState and writes nothing. -/
def Obligations.NodeMemoryHasTwoWriters : Prop :=
  (∀ (i : Instr) (s t : State), exec i s = .next t → t.nodes ≠ s.nodes →
    (i = .tblBegin ∧ s.phase = .idle) ∨ (IsDin i ∧ s.phase = .entry))
  ∧ (∀ (i : Instr) (s t : State), exec i s = .next t → s.phase = .decode → i ≠ .softReset →
    t.nodes = s.nodes ∧ t.nodecnt = s.nodecnt ∧ t.treeValid = s.treeValid)
  ∧ ∀ s : State, s.phase = .decode →
    exec .tblBegin s = .next { s with
      errCause := some .badState, errInfo := 0x01#32, phase := .error, done := false }

/-- 10_state.md R17 (c): outside TBL_BEGIN in IDLE and SOFT_RESET no node is given back, no child field that is set is ever
rewritten, and no node turns from Leaf to Internal or back. -/
def Obligations.TheTrieOnlyGrows : Prop :=
  ∀ (i : Instr) (s t : State), Inv s → exec i s = .next t → ¬ (i = .tblBegin ∧ s.phase = .idle) → i ≠ .softReset →
    s.nodecnt.toNat ≤ t.nodecnt.toNat
    ∧ ∀ k : NodeIdx, s.Allocated k → (t.node k).leaf = (s.node k).leaf
      ∧ ((s.node k).left ≠ 0#16 → (t.node k).left = (s.node k).left)
      ∧ ((s.node k).right ≠ 0#16 → (t.node k).right = (s.node k).right)

/-- 10_state.md R12, R13: what sets and what clears the two stored flags. -/
def Obligations.StoredFlagsChangeOnlyAsRuled : Prop :=
  ∀ (i : Instr) (s t : State), exec i s = .next t →
    (s.treeValid = false → t.treeValid = true → IsDin i ∧ s.phase = .entry ∧ t.phase = .idle ∧ t.remain = 0#9)
    ∧ (s.treeValid = true → t.treeValid = false → (i = .tblBegin ∧ s.phase = .idle) ∨ i = .softReset)
    ∧ (s.done = false → t.done = true →
        t.phase = .idle ∧ t.errCause = s.errCause
        ∧ ((IsDin i ∧ (s.phase = .entry ∨ s.phase = .decode ∨ s.phase = .unpack))
          ∨ ((i = .decBegin ∨ i = .unpkBegin) ∧ s.phase = .idle ∧ s.arg0 = 0#32)))
    ∧ (s.done = true → t.done = false →
        IsOperationCommand i ∨ IsAbortOrReset i ∨ (IsDin i ∧ t.phase = .error))

/-- 10_state.md R14, R24: ARG0, ARG1, INTEN and NODEIDX are written by the host's write to them and by SOFT_RESET alone. -/
def Obligations.HostRegistersHaveOneWriter : Prop :=
  ∀ (i : Instr) (s t : State), exec i s = .next t → i ≠ .softReset →
    (t.arg0 ≠ s.arg0 → ∃ v, i = .wArg0 v ∧ t.arg0 = v)
    ∧ (t.arg1 ≠ s.arg1 → ∃ v, i = .wArg1 v ∧ t.arg1 = v)
    ∧ (t.inten ≠ s.inten → ∃ v, i = .wInten v ∧ t.inten = v.extractLsb' 0 4)
    ∧ (t.nodeidx ≠ s.nodeidx → ∃ v, i = .wNodeidx v ∧ t.nodeidx = v.extractLsb' 0 16)

/-- 10_state.md R18, R20: the hidden registers are written by the rules that use them, by ABORT where 43_control_and_io.md
R172 says so, and by SOFT_RESET. -/
def Obligations.HiddenRegistersHaveTheirWriters : Prop :=
  ∀ (i : Instr) (s t : State), exec i s = .next t → i ≠ .softReset →
    (t.remain ≠ s.remain → (i = .tblBegin ∧ s.phase = .idle) ∨ (IsDin i ∧ s.phase = .entry) ∨ i = .abort)
    ∧ ((t.eSym ≠ s.eSym ∨ t.eLen ≠ s.eLen) → i = .tblEntry ∧ s.phase = .load)
    ∧ (t.eLeft ≠ s.eLeft → (i = .tblEntry ∧ s.phase = .load) ∨ (IsDin i ∧ s.phase = .entry) ∨ i = .abort)
    ∧ (t.wpos ≠ s.wpos → (i = .tblEntry ∧ s.phase = .load) ∨ (IsDin i ∧ s.phase = .entry))
    ∧ ((t.bitlen ≠ s.bitlen ∨ t.lastvalid ≠ s.lastvalid) → (i = .decBegin ∨ i = .unpkBegin) ∧ s.phase = .idle)
    ∧ (t.bytesLeft ≠ s.bytesLeft → ((i = .decBegin ∨ i = .unpkBegin) ∧ s.phase = .idle)
        ∨ (IsDin i ∧ (s.phase = .decode ∨ s.phase = .unpack)) ∨ i = .abort)

/-- 10_state.md R19, R21, R22: POS, the counters and OUTQ are written by the rules of a record, OUTQ by a read of DOUT too,
and all of them by ABORT and SOFT_RESET. -/
def Obligations.RecordRegistersHaveTheirWriters : Prop :=
  ∀ (i : Instr) (s t : State), exec i s = .next t → ¬ IsAbortOrReset i →
    (t.pos ≠ s.pos → (i = .decBegin ∧ s.phase = .idle) ∨ (IsDin i ∧ s.phase = .decode))
    ∧ ((t.bitcnt ≠ s.bitcnt ∨ t.outcnt ≠ s.outcnt) →
        ((i = .decBegin ∨ i = .unpkBegin) ∧ s.phase = .idle)
        ∨ (IsDin i ∧ (s.phase = .decode ∨ s.phase = .unpack)))
    ∧ (t.outq ≠ s.outq →
        (∃ new, t.outq = s.outq ++ new ∧ new.length ≤ 8 ∧ IsDin i ∧ (s.phase = .decode ∨ s.phase = .unpack)
          ∧ t.outcnt = s.outcnt + BitVec.ofNat 32 new.length)
        ∨ (∃ d, s.outq = d :: t.outq ∧ i = .doutPop))

/-! ### Invariants -/

/-- The invariant holds after reset. -/
def Obligations.ResetMeetsTheInvariant : Prop := Inv State.reset

/-- Every step keeps the invariant: a legal configuration, a canonical node memory within its arena, the trie of R15 and R17
with the depth of R125, a fault record exactly in ERROR (R23), and the registers of R12, R13, R18 to R22 in their ranges. -/
def Obligations.EveryStepKeepsTheInvariant : Prop := ∀ s t : State, Inv s → step s = .next t → Inv t

/-- The canonical form of the node memory is kept from every state that has it, with no other premise. -/
def Obligations.EveryStepKeepsTheMemoryCanonical : Prop :=
  ∀ s t : State, s.nodes.wf = true → step s = .next t → t.nodes.wf = true

/-- 10_state.md R23: a cause is recorded exactly in ERROR, kept from every state where it is so. -/
def Obligations.EveryStepKeepsTheFaultRecord : Prop :=
  ∀ s t : State, (s.errCause ≠ none ↔ s.phase = .error) → step s = .next t →
    (t.errCause ≠ none ↔ t.phase = .error)

/-- 10_state.md R16, 93_implementation_defined.md V6: what nodes at or above NODECNT hold makes no difference. Two states
that differ only there answer the same to the next event and differ only there again. -/
def Obligations.UnallocatedNodesAreUnobservable : Prop :=
  ∀ s t s' t' : State, Inv s → SameButUnallocated s t → step s = .next s' → step t = .next t' →
    SameButUnallocated s' t'

/-! ### Whole records and whole tables -/

/-- 40_bit_unpacker.md section 1 (R94, which the spec derives from R90, R92 and R93): unpacking what `pack` gives reproduces the bit string, for every bit string; and the converse
clears the padding bits of the last byte and nothing else. -/
def Obligations.UnpackInvertsPack : Prop :=
  (∀ s : List Bool, unpack (pack s).1 (pack s).2.1 (pack s).2.2 = s ∧ (pack s).1.length = (s.length + 7) / 8)
  ∧ ∀ (bytes : List Byte) (l : Nat), bytes.length = (l + 7) / 8 →
    let back := (pack (unpack bytes l (trail l))).1
    back.length = bytes.length
    ∧ ∀ j b c, bytes[j]? = some b → back[j]? = some c → ∀ k, k < 8 →
      c.getLsbD (7 - k) = (b.getLsbD (7 - k) && decide (8 * j + k < l))

/-- 40_bit_unpacker.md R97: the characters of a complete UNPACK record are those of `unpack(B, L, T)`, read out through DOUT
after each byte, whatever the words' upper bits; the record ends in IDLE with DONE. -/
def Obligations.UnpackRecordEmitsUnpack : Prop :=
  ∀ (s : State) (l t : Word) (words : List Word), Inv s → s.phase = .idle → s.outq = [] →
    recordFault l t = none → words.length = ceil8 l.toNat →
    let r := feed .dinUnpack words (beginRecord .unpkBegin l t s)
    r.1 = (unpack (words.map fun v => v.extractLsb' 0 8) l.toNat t.toNat).map (fun bit : Bool => if bit then 0x31#8 else 0x30#8)
    ∧ r.2.phase = .idle ∧ r.2.done = true ∧ r.2.bitcnt = l ∧ r.2.outcnt = l ∧ r.2.outq = []

/-- 42_decode_automaton.md R147: a complete DECODE record emits the output of `decode(trie, unpack(B, L, T))`, read out
through DOUT after each byte, and ends as that says: in IDLE with DONE, or in ERROR with the corresponding fault. -/
def Obligations.DecodeRecordEmitsDecode : Prop :=
  ∀ (s : State) (l t : Word) (words : List Word), Inv s → s.phase = .idle → s.treeValid = true → s.outq = [] →
    recordFault l t = none → words.length = ceil8 l.toNat →
    let r := feed .dinDecode words (beginRecord .decBegin l t s)
    let d := decodeRecord s.node (unpack (words.map fun v => v.extractLsb' 0 8) l.toNat t.toNat)
    r.1 = d.1 ∧ r.2.outq = [] ∧ r.2.nodes = s.nodes ∧ r.2.treeValid = true
    ∧ match d.2 with
      | .wellFormed => r.2.phase = .idle ∧ r.2.done = true ∧ r.2.bitcnt = l
      | .absentChild k => r.2.phase = .error ∧ r.2.errCause = some .absentChild ∧ r.2.errInfo = BitVec.ofNat 32 k
      | .endNotAtRoot p => r.2.phase = .error ∧ r.2.errCause = some .endNotAtRoot ∧ r.2.errInfo = p.setWidth 32

/-- 41_tree_reconstructor.md section 6 (R120, R121 and R122, which the spec derives from R118): a table of 1 to 256 entries with codes of 1 to 255 bits, none a proper prefix
of another, whose prefixes fit the node memory, loads to completion in whatever order it is given; NODECNT is 1 plus the
number of distinct non-empty prefixes, the paths of the trie are those prefixes, and each code's path ends on a Leaf with the
symbol of the last entry that has the code, past Internal nodes only. -/
def Obligations.PrefixFreeTableLoads : Prop :=
  ∀ (s : State) (table : List (Byte × List Bool)), Inv s → s.phase = .idle → 1 ≤ table.length → table.length ≤ 256 →
    (∀ e ∈ table, 1 ≤ e.2.length ∧ e.2.length ≤ 255) → NoProperPrefix table →
    (codePrefixes table).length + 1 ≤ s.params.nnodes →
    let f := loadTable table s
    f.phase = .idle ∧ f.treeValid = true ∧ f.done = true ∧ f.nodecnt.toNat = 1 + (codePrefixes table).length
    ∧ (∀ w, (f.follow 0#16 w).isSome = true ↔ w = [] ∨ w ∈ codePrefixes table)
    ∧ (∀ e ∈ table, ∃ i, f.follow 0#16 e.2 = some i ∧ (f.node i).leaf = true ∧ some (f.node i).sym = lastSymbol table e.2)
    ∧ ∀ e ∈ table, ∀ v, v <+: e.2 → v ≠ e.2 → ∃ i, f.follow 0#16 v = some i ∧ (f.node i).leaf = false

/-- 41_tree_reconstructor.md R122, the other direction of (d) and (e): a table with a code that is a proper prefix of another,
or with more prefixes than there are nodes, ends in ERROR with one of the two faults of the reconstructor, and no valid trie. -/
def Obligations.TablesThatDoNotFitFault : Prop :=
  ∀ (s : State) (table : List (Byte × List Bool)), Inv s → s.phase = .idle → 1 ≤ table.length → table.length ≤ 256 →
    (∀ e ∈ table, 1 ≤ e.2.length ∧ e.2.length ≤ 255) →
    ¬ NoProperPrefix table ∨ s.params.nnodes < (codePrefixes table).length + 1 →
    let f := loadTable table s
    f.phase = .error ∧ f.treeValid = false ∧ (f.errCause = some .prefixConflict ∨ f.errCause = some .nodeExhausted)

/-- 42_decode_automaton.md R148: for a table that loads, with distinct codes, the record that packs the codes of the bytes of
a buffer decodes to that buffer. -/
def Obligations.DecodeOfEncodedBufferIsTheBuffer : Prop :=
  ∀ (s : State) (table : List (Byte × List Bool)) (code : Byte → List Bool) (buffer : List Byte), Inv s →
    s.phase = .idle → s.outq = [] → 1 ≤ table.length → table.length ≤ 256 →
    (∀ e ∈ table, 1 ≤ e.2.length ∧ e.2.length ≤ 255) → NoProperPrefix table → (table.map fun e => e.2).Nodup →
    (codePrefixes table).length + 1 ≤ s.params.nnodes →
    (∀ x ∈ buffer, (x, code x) ∈ table) →
    let p := pack (buffer.flatMap code)
    p.2.1 < 2 ^ 31 →
    let r := feed .dinDecode (p.1.map byteWord)
      (beginRecord .decBegin (BitVec.ofNat 32 p.2.1) (BitVec.ofNat 32 p.2.2) (loadTable table s))
    r.1 = buffer ∧ r.2.phase = .idle ∧ r.2.done = true

/-- 41_tree_reconstructor.md R123: the single-symbol table gives a root with a left child only, a Leaf carrying the symbol. -/
def Obligations.SingleSymbolTableHasOneLeaf : Prop :=
  ∀ (s : State) (x : Byte), Inv s → s.phase = .idle →
    let f := loadTable [(x, [false])] s
    f.phase = .idle ∧ f.treeValid = true ∧ f.done = true ∧ f.nodecnt = 2#17
    ∧ f.node 0#16 = { leaf := false, sym := 0#8, left := 1#16, right := 0#16 }
    ∧ f.node 1#16 = { leaf := true, sym := x, left := 0#16, right := 0#16 }
end

