-- ==== Sys2Proof/Laws/Memory.lean ====
section
/-! SUPPORT. The node memory: a read after a write, and the canonical form that every write keeps. -/

namespace Sys2Proof.Machine

theorem Memory.read?_write (m : Memory) (i j : Nat) (n : Node) :
    (m.write i n).read? j = if i = j then some n else m.read? j := by
  induction m with
  | nil => simp [Memory.write, Memory.read?]
  | cons e rest ih =>
    obtain ⟨k, x⟩ := e
    rcases Nat.lt_trichotomy i k with h | h | h
    · simp [Memory.write, Memory.read?, h]
    · subst h
      simp only [Memory.write, Nat.lt_irrefl, if_true, if_false, Memory.read?]
      split <;> rfl
    · have h1 : ¬ i < k := by omega
      have h2 : ¬ i = k := by omega
      simp only [Memory.write, h1, h2, if_false, Memory.read?, ih]
      by_cases hk : k = j
      · subst hk; simp [h2]
      · simp [hk]

@[simp] theorem Memory.read?_write_same (m : Memory) (i : Nat) (n : Node) : (m.write i n).read? i = some n := by
  simp [Memory.read?_write]

@[simp] theorem Memory.read?_write_of_ne (m : Memory) {i j : Nat} (n : Node) (h : i ≠ j) :
    (m.write i n).read? j = m.read? j := by
  simp [Memory.read?_write, h]

/-- A read after a write (00_scope.md R5, `NODE[i] <- v`). -/
theorem Memory.read_write (m : Memory) (i j : Nat) (n : Node) :
    (m.write i n).read j = if i = j then n else m.read j := by
  unfold Memory.read
  rw [Memory.read?_write]
  split <;> rfl

theorem Memory.risesFrom_write (m : Memory) (lo i : Nat) (n : Node) (h : m.risesFrom lo = true) (hi : lo ≤ i) :
    (m.write i n).risesFrom lo = true := by
  induction m generalizing lo with
  | nil => simpa [Memory.write, Memory.risesFrom] using hi
  | cons e rest ih =>
    obtain ⟨k, x⟩ := e
    simp only [Memory.risesFrom, Bool.and_eq_true, decide_eq_true_eq] at h
    rcases Nat.lt_trichotomy i k with hk | hk | hk
    · simp [Memory.write, Memory.risesFrom, hk, hi, h.2, Nat.succ_le_of_lt hk]
    · subst hk; simp [Memory.write, Memory.risesFrom, hi, h.2]
    · have h1 : ¬ i < k := by omega
      have h2 : ¬ i = k := by omega
      simp only [Memory.write, h1, h2, if_false, Memory.risesFrom, Bool.and_eq_true, decide_eq_true_eq]
      exact ⟨h.1, ih (k + 1) h.2 (by omega)⟩

/-- Every write keeps the canonical form. -/
theorem Memory.wf_write (m : Memory) (i : Nat) (n : Node) (h : m.wf = true) : (m.write i n).wf = true :=
  Memory.risesFrom_write m 0 i n h (Nat.zero_le i)

/-- A write lists its own index and no other new one. -/
theorem Memory.mem_write {m : Memory} {i j : Nat} {n x : Node} (h : (j, x) ∈ m.write i n) : j = i ∨ (j, x) ∈ m := by
  induction m with
  | nil => simp only [Memory.write, List.mem_singleton, Prod.mk.injEq] at h; exact .inl h.1
  | cons e rest ih =>
    obtain ⟨k, y⟩ := e
    simp only [Memory.write] at h
    split at h
    · rcases List.mem_cons.1 h with h | h
      · exact .inl (Prod.mk.inj h).1
      · exact .inr h
    · split at h
      · rcases List.mem_cons.1 h with h | h
        · exact .inl (Prod.mk.inj h).1
        · exact .inr (List.mem_cons_of_mem _ h)
      · rcases List.mem_cons.1 h with h | h
        · exact .inr (h ▸ List.mem_cons_self)
        · rcases ih h with h | h
          · exact .inl h
          · exact .inr (List.mem_cons_of_mem _ h)

/-- A written node reads as written, and every other node as before. -/
theorem State.node_writeNode (s : State) (i j : NodeIdx) (n : Node) :
    (s.writeNode i n).node j = if i = j then n else s.node j := by
  simp [State.writeNode, State.node, Memory.read_write, BitVec.toNat_inj]

@[simp] theorem State.node_writeNode_same (s : State) (i : NodeIdx) (n : Node) : (s.writeNode i n).node i = n := by
  simp [State.node_writeNode]

@[simp] theorem State.node_writeNode_of_ne (s : State) {i j : NodeIdx} (n : Node) (h : i ≠ j) :
    (s.writeNode i n).node j = s.node j := by
  simp [State.node_writeNode, h]

@[simp] theorem Node.child_setChild (n : Node) (bit b : Bool) (c : NodeIdx) :
    (n.setChild bit c).child b = if bit = b then c else n.child b := by
  cases bit <;> cases b <;> simp [Node.setChild, Node.child]

@[simp] theorem Node.leaf_setChild (n : Node) (bit : Bool) (c : NodeIdx) : (n.setChild bit c).leaf = n.leaf := by
  cases bit <;> rfl

@[simp] theorem Node.sym_setChild (n : Node) (bit : Bool) (c : NodeIdx) : (n.setChild bit c).sym = n.sym := by
  cases bit <;> rfl

@[simp] theorem Node.child_placeholder (bit : Bool) : Node.placeholder.child bit = 0#16 := by
  cases bit <;> rfl

@[simp] theorem Node.child_leafOf (v : Byte) (bit : Bool) : (Node.leafOf v).child bit = 0#16 := by
  cases bit <;> rfl

@[simp] theorem Node.leaf_placeholder : Node.placeholder.leaf = false := rfl

@[simp] theorem Node.leaf_leafOf (v : Byte) : (Node.leafOf v).leaf = true := rfl

end Sys2Proof.Machine
end

