-- ==== Sys2Proof/Laws/State.lean ====
section
/-! SUPPORT. One lemma per field per named update of State. -/

namespace Sys2Proof.Machine

/-! ### writeNode: `NODE[i] <- n` -/

@[simp] theorem writeNode_phase (s : State) (i : NodeIdx) (n : Node) : (s.writeNode i n).phase = s.phase := rfl
@[simp] theorem writeNode_treeValid (s : State) (i : NodeIdx) (n : Node) : (s.writeNode i n).treeValid = s.treeValid := rfl
@[simp] theorem writeNode_done (s : State) (i : NodeIdx) (n : Node) : (s.writeNode i n).done = s.done := rfl
@[simp] theorem writeNode_arg0 (s : State) (i : NodeIdx) (n : Node) : (s.writeNode i n).arg0 = s.arg0 := rfl
@[simp] theorem writeNode_arg1 (s : State) (i : NodeIdx) (n : Node) : (s.writeNode i n).arg1 = s.arg1 := rfl
@[simp] theorem writeNode_nodes (s : State) (i : NodeIdx) (n : Node) : (s.writeNode i n).nodes = s.nodes.write i.toNat n := rfl
@[simp] theorem writeNode_nodecnt (s : State) (i : NodeIdx) (n : Node) : (s.writeNode i n).nodecnt = s.nodecnt := rfl
@[simp] theorem writeNode_remain (s : State) (i : NodeIdx) (n : Node) : (s.writeNode i n).remain = s.remain := rfl
@[simp] theorem writeNode_eSym (s : State) (i : NodeIdx) (n : Node) : (s.writeNode i n).eSym = s.eSym := rfl
@[simp] theorem writeNode_eLen (s : State) (i : NodeIdx) (n : Node) : (s.writeNode i n).eLen = s.eLen := rfl
@[simp] theorem writeNode_eLeft (s : State) (i : NodeIdx) (n : Node) : (s.writeNode i n).eLeft = s.eLeft := rfl
@[simp] theorem writeNode_wpos (s : State) (i : NodeIdx) (n : Node) : (s.writeNode i n).wpos = s.wpos := rfl
@[simp] theorem writeNode_pos (s : State) (i : NodeIdx) (n : Node) : (s.writeNode i n).pos = s.pos := rfl
@[simp] theorem writeNode_bitlen (s : State) (i : NodeIdx) (n : Node) : (s.writeNode i n).bitlen = s.bitlen := rfl
@[simp] theorem writeNode_lastvalid (s : State) (i : NodeIdx) (n : Node) : (s.writeNode i n).lastvalid = s.lastvalid := rfl
@[simp] theorem writeNode_bytesLeft (s : State) (i : NodeIdx) (n : Node) : (s.writeNode i n).bytesLeft = s.bytesLeft := rfl
@[simp] theorem writeNode_bitcnt (s : State) (i : NodeIdx) (n : Node) : (s.writeNode i n).bitcnt = s.bitcnt := rfl
@[simp] theorem writeNode_outcnt (s : State) (i : NodeIdx) (n : Node) : (s.writeNode i n).outcnt = s.outcnt := rfl
@[simp] theorem writeNode_outq (s : State) (i : NodeIdx) (n : Node) : (s.writeNode i n).outq = s.outq := rfl
@[simp] theorem writeNode_errCause (s : State) (i : NodeIdx) (n : Node) : (s.writeNode i n).errCause = s.errCause := rfl
@[simp] theorem writeNode_errInfo (s : State) (i : NodeIdx) (n : Node) : (s.writeNode i n).errInfo = s.errInfo := rfl
@[simp] theorem writeNode_inten (s : State) (i : NodeIdx) (n : Node) : (s.writeNode i n).inten = s.inten := rfl
@[simp] theorem writeNode_nodeidx (s : State) (i : NodeIdx) (n : Node) : (s.writeNode i n).nodeidx = s.nodeidx := rfl
@[simp] theorem writeNode_params (s : State) (i : NodeIdx) (n : Node) : (s.writeNode i n).params = s.params := rfl
@[simp] theorem writeNode_pending (s : State) (i : NodeIdx) (n : Node) : (s.writeNode i n).pending = s.pending := rfl
@[simp] theorem writeNode_answer (s : State) (i : NodeIdx) (n : Node) : (s.writeNode i n).answer = s.answer := rfl

/-! ### linkChild: `set_child(i, bit, c)` -/

@[simp] theorem linkChild_phase (s : State) (i : NodeIdx) (bit : Bool) (c : NodeIdx) : (s.linkChild i bit c).phase = s.phase := rfl
@[simp] theorem linkChild_treeValid (s : State) (i : NodeIdx) (bit : Bool) (c : NodeIdx) : (s.linkChild i bit c).treeValid = s.treeValid := rfl
@[simp] theorem linkChild_done (s : State) (i : NodeIdx) (bit : Bool) (c : NodeIdx) : (s.linkChild i bit c).done = s.done := rfl
@[simp] theorem linkChild_arg0 (s : State) (i : NodeIdx) (bit : Bool) (c : NodeIdx) : (s.linkChild i bit c).arg0 = s.arg0 := rfl
@[simp] theorem linkChild_arg1 (s : State) (i : NodeIdx) (bit : Bool) (c : NodeIdx) : (s.linkChild i bit c).arg1 = s.arg1 := rfl
@[simp] theorem linkChild_nodes (s : State) (i : NodeIdx) (bit : Bool) (c : NodeIdx) : (s.linkChild i bit c).nodes = s.nodes.write i.toNat ((s.node i).setChild bit c) := rfl
@[simp] theorem linkChild_nodecnt (s : State) (i : NodeIdx) (bit : Bool) (c : NodeIdx) : (s.linkChild i bit c).nodecnt = s.nodecnt := rfl
@[simp] theorem linkChild_remain (s : State) (i : NodeIdx) (bit : Bool) (c : NodeIdx) : (s.linkChild i bit c).remain = s.remain := rfl
@[simp] theorem linkChild_eSym (s : State) (i : NodeIdx) (bit : Bool) (c : NodeIdx) : (s.linkChild i bit c).eSym = s.eSym := rfl
@[simp] theorem linkChild_eLen (s : State) (i : NodeIdx) (bit : Bool) (c : NodeIdx) : (s.linkChild i bit c).eLen = s.eLen := rfl
@[simp] theorem linkChild_eLeft (s : State) (i : NodeIdx) (bit : Bool) (c : NodeIdx) : (s.linkChild i bit c).eLeft = s.eLeft := rfl
@[simp] theorem linkChild_wpos (s : State) (i : NodeIdx) (bit : Bool) (c : NodeIdx) : (s.linkChild i bit c).wpos = s.wpos := rfl
@[simp] theorem linkChild_pos (s : State) (i : NodeIdx) (bit : Bool) (c : NodeIdx) : (s.linkChild i bit c).pos = s.pos := rfl
@[simp] theorem linkChild_bitlen (s : State) (i : NodeIdx) (bit : Bool) (c : NodeIdx) : (s.linkChild i bit c).bitlen = s.bitlen := rfl
@[simp] theorem linkChild_lastvalid (s : State) (i : NodeIdx) (bit : Bool) (c : NodeIdx) : (s.linkChild i bit c).lastvalid = s.lastvalid := rfl
@[simp] theorem linkChild_bytesLeft (s : State) (i : NodeIdx) (bit : Bool) (c : NodeIdx) : (s.linkChild i bit c).bytesLeft = s.bytesLeft := rfl
@[simp] theorem linkChild_bitcnt (s : State) (i : NodeIdx) (bit : Bool) (c : NodeIdx) : (s.linkChild i bit c).bitcnt = s.bitcnt := rfl
@[simp] theorem linkChild_outcnt (s : State) (i : NodeIdx) (bit : Bool) (c : NodeIdx) : (s.linkChild i bit c).outcnt = s.outcnt := rfl
@[simp] theorem linkChild_outq (s : State) (i : NodeIdx) (bit : Bool) (c : NodeIdx) : (s.linkChild i bit c).outq = s.outq := rfl
@[simp] theorem linkChild_errCause (s : State) (i : NodeIdx) (bit : Bool) (c : NodeIdx) : (s.linkChild i bit c).errCause = s.errCause := rfl
@[simp] theorem linkChild_errInfo (s : State) (i : NodeIdx) (bit : Bool) (c : NodeIdx) : (s.linkChild i bit c).errInfo = s.errInfo := rfl
@[simp] theorem linkChild_inten (s : State) (i : NodeIdx) (bit : Bool) (c : NodeIdx) : (s.linkChild i bit c).inten = s.inten := rfl
@[simp] theorem linkChild_nodeidx (s : State) (i : NodeIdx) (bit : Bool) (c : NodeIdx) : (s.linkChild i bit c).nodeidx = s.nodeidx := rfl
@[simp] theorem linkChild_params (s : State) (i : NodeIdx) (bit : Bool) (c : NodeIdx) : (s.linkChild i bit c).params = s.params := rfl
@[simp] theorem linkChild_pending (s : State) (i : NodeIdx) (bit : Bool) (c : NodeIdx) : (s.linkChild i bit c).pending = s.pending := rfl
@[simp] theorem linkChild_answer (s : State) (i : NodeIdx) (bit : Bool) (c : NodeIdx) : (s.linkChild i bit c).answer = s.answer := rfl

/-! ### allocated: `alloc` with room -/

@[simp] theorem allocated_phase (s : State) (n : Node) : (s.allocated n).phase = s.phase := rfl
@[simp] theorem allocated_treeValid (s : State) (n : Node) : (s.allocated n).treeValid = s.treeValid := rfl
@[simp] theorem allocated_done (s : State) (n : Node) : (s.allocated n).done = s.done := rfl
@[simp] theorem allocated_arg0 (s : State) (n : Node) : (s.allocated n).arg0 = s.arg0 := rfl
@[simp] theorem allocated_arg1 (s : State) (n : Node) : (s.allocated n).arg1 = s.arg1 := rfl
@[simp] theorem allocated_nodes (s : State) (n : Node) : (s.allocated n).nodes = s.nodes.write s.nextNode.toNat n := rfl
@[simp] theorem allocated_nodecnt (s : State) (n : Node) : (s.allocated n).nodecnt = s.nodecnt + 1#17 := rfl
@[simp] theorem allocated_remain (s : State) (n : Node) : (s.allocated n).remain = s.remain := rfl
@[simp] theorem allocated_eSym (s : State) (n : Node) : (s.allocated n).eSym = s.eSym := rfl
@[simp] theorem allocated_eLen (s : State) (n : Node) : (s.allocated n).eLen = s.eLen := rfl
@[simp] theorem allocated_eLeft (s : State) (n : Node) : (s.allocated n).eLeft = s.eLeft := rfl
@[simp] theorem allocated_wpos (s : State) (n : Node) : (s.allocated n).wpos = s.wpos := rfl
@[simp] theorem allocated_pos (s : State) (n : Node) : (s.allocated n).pos = s.pos := rfl
@[simp] theorem allocated_bitlen (s : State) (n : Node) : (s.allocated n).bitlen = s.bitlen := rfl
@[simp] theorem allocated_lastvalid (s : State) (n : Node) : (s.allocated n).lastvalid = s.lastvalid := rfl
@[simp] theorem allocated_bytesLeft (s : State) (n : Node) : (s.allocated n).bytesLeft = s.bytesLeft := rfl
@[simp] theorem allocated_bitcnt (s : State) (n : Node) : (s.allocated n).bitcnt = s.bitcnt := rfl
@[simp] theorem allocated_outcnt (s : State) (n : Node) : (s.allocated n).outcnt = s.outcnt := rfl
@[simp] theorem allocated_outq (s : State) (n : Node) : (s.allocated n).outq = s.outq := rfl
@[simp] theorem allocated_errCause (s : State) (n : Node) : (s.allocated n).errCause = s.errCause := rfl
@[simp] theorem allocated_errInfo (s : State) (n : Node) : (s.allocated n).errInfo = s.errInfo := rfl
@[simp] theorem allocated_inten (s : State) (n : Node) : (s.allocated n).inten = s.inten := rfl
@[simp] theorem allocated_nodeidx (s : State) (n : Node) : (s.allocated n).nodeidx = s.nodeidx := rfl
@[simp] theorem allocated_params (s : State) (n : Node) : (s.allocated n).params = s.params := rfl
@[simp] theorem allocated_pending (s : State) (n : Node) : (s.allocated n).pending = s.pending := rfl
@[simp] theorem allocated_answer (s : State) (n : Node) : (s.allocated n).answer = s.answer := rfl

/-! ### push: `OUTQ.push(v)` -/

@[simp] theorem push_phase (s : State) (v : Byte) : (s.push v).phase = s.phase := rfl
@[simp] theorem push_treeValid (s : State) (v : Byte) : (s.push v).treeValid = s.treeValid := rfl
@[simp] theorem push_done (s : State) (v : Byte) : (s.push v).done = s.done := rfl
@[simp] theorem push_arg0 (s : State) (v : Byte) : (s.push v).arg0 = s.arg0 := rfl
@[simp] theorem push_arg1 (s : State) (v : Byte) : (s.push v).arg1 = s.arg1 := rfl
@[simp] theorem push_nodes (s : State) (v : Byte) : (s.push v).nodes = s.nodes := rfl
@[simp] theorem push_nodecnt (s : State) (v : Byte) : (s.push v).nodecnt = s.nodecnt := rfl
@[simp] theorem push_remain (s : State) (v : Byte) : (s.push v).remain = s.remain := rfl
@[simp] theorem push_eSym (s : State) (v : Byte) : (s.push v).eSym = s.eSym := rfl
@[simp] theorem push_eLen (s : State) (v : Byte) : (s.push v).eLen = s.eLen := rfl
@[simp] theorem push_eLeft (s : State) (v : Byte) : (s.push v).eLeft = s.eLeft := rfl
@[simp] theorem push_wpos (s : State) (v : Byte) : (s.push v).wpos = s.wpos := rfl
@[simp] theorem push_pos (s : State) (v : Byte) : (s.push v).pos = s.pos := rfl
@[simp] theorem push_bitlen (s : State) (v : Byte) : (s.push v).bitlen = s.bitlen := rfl
@[simp] theorem push_lastvalid (s : State) (v : Byte) : (s.push v).lastvalid = s.lastvalid := rfl
@[simp] theorem push_bytesLeft (s : State) (v : Byte) : (s.push v).bytesLeft = s.bytesLeft := rfl
@[simp] theorem push_bitcnt (s : State) (v : Byte) : (s.push v).bitcnt = s.bitcnt := rfl
@[simp] theorem push_outcnt (s : State) (v : Byte) : (s.push v).outcnt = s.outcnt + 1#32 := rfl
@[simp] theorem push_outq (s : State) (v : Byte) : (s.push v).outq = s.outq ++ [v] := rfl
@[simp] theorem push_errCause (s : State) (v : Byte) : (s.push v).errCause = s.errCause := rfl
@[simp] theorem push_errInfo (s : State) (v : Byte) : (s.push v).errInfo = s.errInfo := rfl
@[simp] theorem push_inten (s : State) (v : Byte) : (s.push v).inten = s.inten := rfl
@[simp] theorem push_nodeidx (s : State) (v : Byte) : (s.push v).nodeidx = s.nodeidx := rfl
@[simp] theorem push_params (s : State) (v : Byte) : (s.push v).params = s.params := rfl
@[simp] theorem push_pending (s : State) (v : Byte) : (s.push v).pending = s.pending := rfl
@[simp] theorem push_answer (s : State) (v : Byte) : (s.push v).answer = s.answer := rfl

/-! ### respond: a read's answer -/

@[simp] theorem respond_phase (s : State) (w : Word) : (s.respond w).phase = s.phase := rfl
@[simp] theorem respond_treeValid (s : State) (w : Word) : (s.respond w).treeValid = s.treeValid := rfl
@[simp] theorem respond_done (s : State) (w : Word) : (s.respond w).done = s.done := rfl
@[simp] theorem respond_arg0 (s : State) (w : Word) : (s.respond w).arg0 = s.arg0 := rfl
@[simp] theorem respond_arg1 (s : State) (w : Word) : (s.respond w).arg1 = s.arg1 := rfl
@[simp] theorem respond_nodes (s : State) (w : Word) : (s.respond w).nodes = s.nodes := rfl
@[simp] theorem respond_nodecnt (s : State) (w : Word) : (s.respond w).nodecnt = s.nodecnt := rfl
@[simp] theorem respond_remain (s : State) (w : Word) : (s.respond w).remain = s.remain := rfl
@[simp] theorem respond_eSym (s : State) (w : Word) : (s.respond w).eSym = s.eSym := rfl
@[simp] theorem respond_eLen (s : State) (w : Word) : (s.respond w).eLen = s.eLen := rfl
@[simp] theorem respond_eLeft (s : State) (w : Word) : (s.respond w).eLeft = s.eLeft := rfl
@[simp] theorem respond_wpos (s : State) (w : Word) : (s.respond w).wpos = s.wpos := rfl
@[simp] theorem respond_pos (s : State) (w : Word) : (s.respond w).pos = s.pos := rfl
@[simp] theorem respond_bitlen (s : State) (w : Word) : (s.respond w).bitlen = s.bitlen := rfl
@[simp] theorem respond_lastvalid (s : State) (w : Word) : (s.respond w).lastvalid = s.lastvalid := rfl
@[simp] theorem respond_bytesLeft (s : State) (w : Word) : (s.respond w).bytesLeft = s.bytesLeft := rfl
@[simp] theorem respond_bitcnt (s : State) (w : Word) : (s.respond w).bitcnt = s.bitcnt := rfl
@[simp] theorem respond_outcnt (s : State) (w : Word) : (s.respond w).outcnt = s.outcnt := rfl
@[simp] theorem respond_outq (s : State) (w : Word) : (s.respond w).outq = s.outq := rfl
@[simp] theorem respond_errCause (s : State) (w : Word) : (s.respond w).errCause = s.errCause := rfl
@[simp] theorem respond_errInfo (s : State) (w : Word) : (s.respond w).errInfo = s.errInfo := rfl
@[simp] theorem respond_inten (s : State) (w : Word) : (s.respond w).inten = s.inten := rfl
@[simp] theorem respond_nodeidx (s : State) (w : Word) : (s.respond w).nodeidx = s.nodeidx := rfl
@[simp] theorem respond_params (s : State) (w : Word) : (s.respond w).params = s.params := rfl
@[simp] theorem respond_pending (s : State) (w : Word) : (s.respond w).pending = s.pending := rfl
@[simp] theorem respond_answer (s : State) (w : Word) : (s.respond w).answer = .data w := rfl

/-! ### raise: fault entry (60_exceptions.md R203) -/

@[simp] theorem raise_phase (s : State) (c : Cause) (info : Word) : (raise c info s).phase = .error := rfl
@[simp] theorem raise_treeValid (s : State) (c : Cause) (info : Word) : (raise c info s).treeValid = s.treeValid := rfl
@[simp] theorem raise_done (s : State) (c : Cause) (info : Word) : (raise c info s).done = false := rfl
@[simp] theorem raise_arg0 (s : State) (c : Cause) (info : Word) : (raise c info s).arg0 = s.arg0 := rfl
@[simp] theorem raise_arg1 (s : State) (c : Cause) (info : Word) : (raise c info s).arg1 = s.arg1 := rfl
@[simp] theorem raise_nodes (s : State) (c : Cause) (info : Word) : (raise c info s).nodes = s.nodes := rfl
@[simp] theorem raise_nodecnt (s : State) (c : Cause) (info : Word) : (raise c info s).nodecnt = s.nodecnt := rfl
@[simp] theorem raise_remain (s : State) (c : Cause) (info : Word) : (raise c info s).remain = s.remain := rfl
@[simp] theorem raise_eSym (s : State) (c : Cause) (info : Word) : (raise c info s).eSym = s.eSym := rfl
@[simp] theorem raise_eLen (s : State) (c : Cause) (info : Word) : (raise c info s).eLen = s.eLen := rfl
@[simp] theorem raise_eLeft (s : State) (c : Cause) (info : Word) : (raise c info s).eLeft = s.eLeft := rfl
@[simp] theorem raise_wpos (s : State) (c : Cause) (info : Word) : (raise c info s).wpos = s.wpos := rfl
@[simp] theorem raise_pos (s : State) (c : Cause) (info : Word) : (raise c info s).pos = s.pos := rfl
@[simp] theorem raise_bitlen (s : State) (c : Cause) (info : Word) : (raise c info s).bitlen = s.bitlen := rfl
@[simp] theorem raise_lastvalid (s : State) (c : Cause) (info : Word) : (raise c info s).lastvalid = s.lastvalid := rfl
@[simp] theorem raise_bytesLeft (s : State) (c : Cause) (info : Word) : (raise c info s).bytesLeft = s.bytesLeft := rfl
@[simp] theorem raise_bitcnt (s : State) (c : Cause) (info : Word) : (raise c info s).bitcnt = s.bitcnt := rfl
@[simp] theorem raise_outcnt (s : State) (c : Cause) (info : Word) : (raise c info s).outcnt = s.outcnt := rfl
@[simp] theorem raise_outq (s : State) (c : Cause) (info : Word) : (raise c info s).outq = s.outq := rfl
@[simp] theorem raise_errCause (s : State) (c : Cause) (info : Word) : (raise c info s).errCause = some c := rfl
@[simp] theorem raise_errInfo (s : State) (c : Cause) (info : Word) : (raise c info s).errInfo = info := rfl
@[simp] theorem raise_inten (s : State) (c : Cause) (info : Word) : (raise c info s).inten = s.inten := rfl
@[simp] theorem raise_nodeidx (s : State) (c : Cause) (info : Word) : (raise c info s).nodeidx = s.nodeidx := rfl
@[simp] theorem raise_params (s : State) (c : Cause) (info : Word) : (raise c info s).params = s.params := rfl
@[simp] theorem raise_pending (s : State) (c : Cause) (info : Word) : (raise c info s).pending = s.pending := rfl
@[simp] theorem raise_answer (s : State) (c : Cause) (info : Word) : (raise c info s).answer = s.answer := rfl

/-! ### giveUp: ABORT (43_control_and_io.md R172) -/

@[simp] theorem giveUp_phase (s : State) : (giveUp s).phase = .idle := rfl
@[simp] theorem giveUp_treeValid (s : State) : (giveUp s).treeValid = s.treeValid := rfl
@[simp] theorem giveUp_done (s : State) : (giveUp s).done = false := rfl
@[simp] theorem giveUp_arg0 (s : State) : (giveUp s).arg0 = s.arg0 := rfl
@[simp] theorem giveUp_arg1 (s : State) : (giveUp s).arg1 = s.arg1 := rfl
@[simp] theorem giveUp_nodes (s : State) : (giveUp s).nodes = s.nodes := rfl
@[simp] theorem giveUp_nodecnt (s : State) : (giveUp s).nodecnt = s.nodecnt := rfl
@[simp] theorem giveUp_remain (s : State) : (giveUp s).remain = 0#9 := rfl
@[simp] theorem giveUp_eSym (s : State) : (giveUp s).eSym = s.eSym := rfl
@[simp] theorem giveUp_eLen (s : State) : (giveUp s).eLen = s.eLen := rfl
@[simp] theorem giveUp_eLeft (s : State) : (giveUp s).eLeft = 0#8 := rfl
@[simp] theorem giveUp_wpos (s : State) : (giveUp s).wpos = s.wpos := rfl
@[simp] theorem giveUp_pos (s : State) : (giveUp s).pos = 0#16 := rfl
@[simp] theorem giveUp_bitlen (s : State) : (giveUp s).bitlen = s.bitlen := rfl
@[simp] theorem giveUp_lastvalid (s : State) : (giveUp s).lastvalid = s.lastvalid := rfl
@[simp] theorem giveUp_bytesLeft (s : State) : (giveUp s).bytesLeft = 0#29 := rfl
@[simp] theorem giveUp_bitcnt (s : State) : (giveUp s).bitcnt = 0#32 := rfl
@[simp] theorem giveUp_outcnt (s : State) : (giveUp s).outcnt = 0#32 := rfl
@[simp] theorem giveUp_outq (s : State) : (giveUp s).outq = [] := rfl
@[simp] theorem giveUp_errCause (s : State) : (giveUp s).errCause = none := rfl
@[simp] theorem giveUp_errInfo (s : State) : (giveUp s).errInfo = 0#32 := rfl
@[simp] theorem giveUp_inten (s : State) : (giveUp s).inten = s.inten := rfl
@[simp] theorem giveUp_nodeidx (s : State) : (giveUp s).nodeidx = s.nodeidx := rfl
@[simp] theorem giveUp_params (s : State) : (giveUp s).params = s.params := rfl
@[simp] theorem giveUp_pending (s : State) : (giveUp s).pending = s.pending := rfl
@[simp] theorem giveUp_answer (s : State) : (giveUp s).answer = s.answer := rfl

/-! ### resetBlock: reset (70_reset_and_hazards.md R240) -/

@[simp] theorem resetBlock_phase (s : State) : (resetBlock s).phase = .idle := rfl
@[simp] theorem resetBlock_treeValid (s : State) : (resetBlock s).treeValid = false := rfl
@[simp] theorem resetBlock_done (s : State) : (resetBlock s).done = false := rfl
@[simp] theorem resetBlock_arg0 (s : State) : (resetBlock s).arg0 = 0#32 := rfl
@[simp] theorem resetBlock_arg1 (s : State) : (resetBlock s).arg1 = 0#32 := rfl
@[simp] theorem resetBlock_nodes (s : State) : (resetBlock s).nodes = s.nodes := rfl
@[simp] theorem resetBlock_nodecnt (s : State) : (resetBlock s).nodecnt = 0#17 := rfl
@[simp] theorem resetBlock_remain (s : State) : (resetBlock s).remain = 0#9 := rfl
@[simp] theorem resetBlock_eSym (s : State) : (resetBlock s).eSym = 0#8 := rfl
@[simp] theorem resetBlock_eLen (s : State) : (resetBlock s).eLen = 0#8 := rfl
@[simp] theorem resetBlock_eLeft (s : State) : (resetBlock s).eLeft = 0#8 := rfl
@[simp] theorem resetBlock_wpos (s : State) : (resetBlock s).wpos = 0#16 := rfl
@[simp] theorem resetBlock_pos (s : State) : (resetBlock s).pos = 0#16 := rfl
@[simp] theorem resetBlock_bitlen (s : State) : (resetBlock s).bitlen = 0#31 := rfl
@[simp] theorem resetBlock_lastvalid (s : State) : (resetBlock s).lastvalid = 8#4 := rfl
@[simp] theorem resetBlock_bytesLeft (s : State) : (resetBlock s).bytesLeft = 0#29 := rfl
@[simp] theorem resetBlock_bitcnt (s : State) : (resetBlock s).bitcnt = 0#32 := rfl
@[simp] theorem resetBlock_outcnt (s : State) : (resetBlock s).outcnt = 0#32 := rfl
@[simp] theorem resetBlock_outq (s : State) : (resetBlock s).outq = [] := rfl
@[simp] theorem resetBlock_errCause (s : State) : (resetBlock s).errCause = none := rfl
@[simp] theorem resetBlock_errInfo (s : State) : (resetBlock s).errInfo = 0#32 := rfl
@[simp] theorem resetBlock_inten (s : State) : (resetBlock s).inten = 0#4 := rfl
@[simp] theorem resetBlock_nodeidx (s : State) : (resetBlock s).nodeidx = 0#16 := rfl
@[simp] theorem resetBlock_params (s : State) : (resetBlock s).params = s.params := rfl
@[simp] theorem resetBlock_pending (s : State) : (resetBlock s).pending = s.pending := rfl
@[simp] theorem resetBlock_answer (s : State) : (resetBlock s).answer = s.answer := rfl

/-! ### walkOn: a step of the walk (41_tree_reconstructor.md R118) -/

@[simp] theorem walkOn_phase (s : State) (ch : NodeIdx) : (walkOn ch s).phase = s.phase := rfl
@[simp] theorem walkOn_treeValid (s : State) (ch : NodeIdx) : (walkOn ch s).treeValid = s.treeValid := rfl
@[simp] theorem walkOn_done (s : State) (ch : NodeIdx) : (walkOn ch s).done = s.done := rfl
@[simp] theorem walkOn_arg0 (s : State) (ch : NodeIdx) : (walkOn ch s).arg0 = s.arg0 := rfl
@[simp] theorem walkOn_arg1 (s : State) (ch : NodeIdx) : (walkOn ch s).arg1 = s.arg1 := rfl
@[simp] theorem walkOn_nodes (s : State) (ch : NodeIdx) : (walkOn ch s).nodes = s.nodes := rfl
@[simp] theorem walkOn_nodecnt (s : State) (ch : NodeIdx) : (walkOn ch s).nodecnt = s.nodecnt := rfl
@[simp] theorem walkOn_remain (s : State) (ch : NodeIdx) : (walkOn ch s).remain = s.remain := rfl
@[simp] theorem walkOn_eSym (s : State) (ch : NodeIdx) : (walkOn ch s).eSym = s.eSym := rfl
@[simp] theorem walkOn_eLen (s : State) (ch : NodeIdx) : (walkOn ch s).eLen = s.eLen := rfl
@[simp] theorem walkOn_eLeft (s : State) (ch : NodeIdx) : (walkOn ch s).eLeft = s.eLeft - 1#8 := rfl
@[simp] theorem walkOn_wpos (s : State) (ch : NodeIdx) : (walkOn ch s).wpos = ch := rfl
@[simp] theorem walkOn_pos (s : State) (ch : NodeIdx) : (walkOn ch s).pos = s.pos := rfl
@[simp] theorem walkOn_bitlen (s : State) (ch : NodeIdx) : (walkOn ch s).bitlen = s.bitlen := rfl
@[simp] theorem walkOn_lastvalid (s : State) (ch : NodeIdx) : (walkOn ch s).lastvalid = s.lastvalid := rfl
@[simp] theorem walkOn_bytesLeft (s : State) (ch : NodeIdx) : (walkOn ch s).bytesLeft = s.bytesLeft := rfl
@[simp] theorem walkOn_bitcnt (s : State) (ch : NodeIdx) : (walkOn ch s).bitcnt = s.bitcnt := rfl
@[simp] theorem walkOn_outcnt (s : State) (ch : NodeIdx) : (walkOn ch s).outcnt = s.outcnt := rfl
@[simp] theorem walkOn_outq (s : State) (ch : NodeIdx) : (walkOn ch s).outq = s.outq := rfl
@[simp] theorem walkOn_errCause (s : State) (ch : NodeIdx) : (walkOn ch s).errCause = s.errCause := rfl
@[simp] theorem walkOn_errInfo (s : State) (ch : NodeIdx) : (walkOn ch s).errInfo = s.errInfo := rfl
@[simp] theorem walkOn_inten (s : State) (ch : NodeIdx) : (walkOn ch s).inten = s.inten := rfl
@[simp] theorem walkOn_nodeidx (s : State) (ch : NodeIdx) : (walkOn ch s).nodeidx = s.nodeidx := rfl
@[simp] theorem walkOn_params (s : State) (ch : NodeIdx) : (walkOn ch s).params = s.params := rfl
@[simp] theorem walkOn_pending (s : State) (ch : NodeIdx) : (walkOn ch s).pending = s.pending := rfl
@[simp] theorem walkOn_answer (s : State) (ch : NodeIdx) : (walkOn ch s).answer = s.answer := rfl

end Sys2Proof.Machine
end

