-- ==== Sys2Proof/Laws/Ops.lean ====
section
/-! SUPPORT. What each shared operation can do, said once. -/

namespace Sys2Proof.Machine

/-! ### Canonical form of the node memory -/

theorem reset_nodes_wf : State.reset.nodes.wf = true := rfl

theorem writeNode_wf (s : State) (i : NodeIdx) (n : Node) (h : s.nodes.wf = true) :
    (s.writeNode i n).nodes.wf = true := Memory.wf_write _ _ _ h

theorem linkChild_wf (s : State) (i : NodeIdx) (bit : Bool) (c : NodeIdx) (h : s.nodes.wf = true) :
    (s.linkChild i bit c).nodes.wf = true := Memory.wf_write _ _ _ h

theorem allocated_wf (s : State) (n : Node) (h : s.nodes.wf = true) : (s.allocated n).nodes.wf = true :=
  Memory.wf_write _ _ _ h

/-! ### Allocation (41_tree_reconstructor.md R116) -/

theorem allocChild_of_full (bit : Bool) (n : Node) (s : State) (h : s.nodecnt.toNat = s.params.nnodes) :
    allocChild bit n s = .raised (raise .nodeExhausted (s.eSym.setWidth 32) s) := by
  simp [allocChild, State.full, h]

theorem allocChild_of_room (bit : Bool) (n : Node) (s : State) (h : s.nodecnt.toNat ≠ s.params.nnodes) :
    allocChild bit n s = .on ((s.allocated n).linkChild s.wpos bit s.nextNode) := by
  simp [allocChild, State.full, h]

/-- Where there is room the new index is NODECNT itself: 16 bits hold it. -/
theorem nextNode_toNat (s : State) (h : s.nodecnt.toNat < 65536) : s.nextNode.toNat = s.nodecnt.toNat := by
  simp only [State.nextNode, BitVec.toNat_setWidth]
  omega

theorem nodecnt_add_one_toNat (s : State) (h : s.nodecnt.toNat < 65536) :
    (s.nodecnt + 1#17).toNat = s.nodecnt.toNat + 1 := by
  simp only [BitVec.toNat_add, BitVec.toNat_ofNat]
  omega

/-- Every node after an allocation and its link. -/
theorem node_allocChild (s : State) (bit : Bool) (n : Node) (i : NodeIdx) (h : s.wpos ≠ s.nextNode) :
    ((s.allocated n).linkChild s.wpos bit s.nextNode).node i =
      if i = s.wpos then (s.node s.wpos).setChild bit s.nextNode
      else if i = s.nextNode then n else s.node i := by
  have key : ∀ j, (s.allocated n).node j = if s.nextNode = j then n else s.node j := by
    intro j
    simp [State.node, Memory.read_write, BitVec.toNat_inj]
  rw [State.linkChild, State.node_writeNode, key, key, if_neg (Ne.symm h)]
  by_cases h1 : s.wpos = i
  · simp [h1]
  · rw [if_neg h1, if_neg (Ne.symm h1)]
    by_cases h2 : s.nextNode = i
    · simp [h2]
    · rw [if_neg h2, if_neg (Ne.symm h2)]

/-! ### Flags (10_state.md R25) -/

theorem hasRoom_iff (s : State) : s.hasRoom = true ↔ 8 ≤ s.params.outqDepth - s.outq.length := by
  unfold State.hasRoom State.outqFree
  exact decide_eq_true_iff

theorem hasRoom_eq_false_iff (s : State) : s.hasRoom = false ↔ s.params.outqDepth - s.outq.length < 8 := by
  rw [← Bool.not_eq_true, hasRoom_iff]
  omega

theorem dinRdy_iff (s : State) : s.dinRdy = true ↔ s.phase = .entry ∨
    ((s.phase = .decode ∨ s.phase = .unpack) ∧ 8 ≤ s.params.outqDepth - s.outq.length) := by
  unfold State.dinRdy
  cases s.phase <;> simp [hasRoom_iff]

/-! ### The unpacker (40_bit_unpacker.md R96) -/

theorem length_bitsOfByte (b : Byte) (n : Nat) : (bitsOfByte b n).length = min n 8 := by
  simp [bitsOfByte]

/-- What unpacking a list of bits leaves. -/
theorem unpackBits_eq (bits : List Bool) (s : State) :
    unpackBits bits s = { s with
      outq := s.outq ++ bits.map charOfBit
      outcnt := s.outcnt + BitVec.ofNat 32 bits.length
      bitcnt := s.bitcnt + BitVec.ofNat 32 bits.length } := by
  induction bits generalizing s with
  | nil => simp [unpackBits]
  | cons b rest ih =>
    have h : ∀ c : Word, c + 1#32 + BitVec.ofNat 32 rest.length = c + BitVec.ofNat 32 (rest.length + 1) := by
      intro c
      rw [BitVec.add_assoc, ← BitVec.ofNat_add, Nat.add_comm]
    rw [unpackBits, ih]
    simp [unpackBit, State.push, h]

/-! ### The automaton (42_decode_automaton.md R142) -/

/-- One bit step: the absent child, a Leaf, or an Internal node. -/
theorem stepBit_cases (bit : Bool) (s : State) :
    ((s.node s.pos).child bit = 0#16 ∧ stepBit bit s = .raised (raise .absentChild s.bitcnt s)) ∨
    ((s.node s.pos).child bit ≠ 0#16 ∧ (s.node ((s.node s.pos).child bit)).leaf = true ∧
      stepBit bit s = .on { s with
        pos := 0#16, bitcnt := s.bitcnt + 1#32, outcnt := s.outcnt + 1#32
        outq := s.outq ++ [(s.node ((s.node s.pos).child bit)).sym] }) ∨
    ((s.node s.pos).child bit ≠ 0#16 ∧ (s.node ((s.node s.pos).child bit)).leaf = false ∧
      stepBit bit s = .on { s with pos := (s.node s.pos).child bit, bitcnt := s.bitcnt + 1#32 }) := by
  by_cases h : (s.node s.pos).child bit = 0#16
  · exact .inl ⟨h, by simp [stepBit, h]⟩
  · cases hl : (s.node ((s.node s.pos).child bit)).leaf
    · exact .inr (.inr ⟨h, rfl, by simp [stepBit, h, hl]⟩)
    · exact .inr (.inl ⟨h, rfl, by simp [stepBit, h, hl, State.push]⟩)

/-- Stepping bits writes POS, BITCNT, OUTCNT and OUTQ, and what fault entry writes. -/
theorem stepBits_frame (bits : List Bool) (s : State) :
    (∃ t, stepBits bits s = .on t ∧
      t = { s with pos := t.pos, bitcnt := t.bitcnt, outcnt := t.outcnt, outq := t.outq }) ∨
    (∃ t, stepBits bits s = .raised (raise .absentChild t.bitcnt t) ∧
      t = { s with pos := t.pos, bitcnt := t.bitcnt, outcnt := t.outcnt, outq := t.outq }) := by
  induction bits generalizing s with
  | nil => exact .inl ⟨s, rfl, rfl⟩
  | cons bit rest ih =>
    rcases stepBit_cases bit s with ⟨_, h⟩ | ⟨_, _, h⟩ | ⟨_, _, h⟩
    · exact .inr ⟨s, by simp [stepBits, h], rfl⟩
    · simp only [stepBits, h]
      rcases ih _ with ⟨t, e, f⟩ | ⟨t, e, f⟩
      · exact .inl ⟨t, e, by rw [f]⟩
      · exact .inr ⟨t, e, by rw [f]⟩
    · simp only [stepBits, h]
      rcases ih _ with ⟨t, e, f⟩ | ⟨t, e, f⟩
      · exact .inl ⟨t, e, by rw [f]⟩
      · exact .inr ⟨t, e, by rw [f]⟩

/-! ### The tree reconstructor (41_tree_reconstructor.md R118) -/

/-- One bit character: not a bit character, an inner step, or the final step. -/
theorem entryByte_cases (c : Byte) (s : State) :
    (bitOfChar c = none ∧ entryByte c s = raise .badBitChar (s.entryInfo c) s) ∨
    (∃ bit, bitOfChar c = some bit ∧ 1 < s.eLeft.toNat ∧ entryByte c s = innerStep bit s) ∨
    (∃ bit, bitOfChar c = some bit ∧ s.eLeft.toNat ≤ 1 ∧ entryByte c s = finalStep bit s) := by
  unfold entryByte
  cases h : bitOfChar c with
  | none => exact .inl ⟨rfl, rfl⟩
  | some bit =>
    by_cases hl : s.eLeft.toNat > 1
    · exact .inr (.inl ⟨bit, rfl, hl, by simp [hl]⟩)
    · exact .inr (.inr ⟨bit, rfl, by omega, by simp [hl]⟩)

/-- An inner step: exhausted, a new placeholder, a conflict, or the child that is there. -/
theorem innerStep_cases (bit : Bool) (s : State) :
    ((s.node s.wpos).child bit = 0#16 ∧ s.nodecnt.toNat = s.params.nnodes ∧
      innerStep bit s = raise .nodeExhausted (s.eSym.setWidth 32) s) ∨
    ((s.node s.wpos).child bit = 0#16 ∧ s.nodecnt.toNat ≠ s.params.nnodes ∧
      innerStep bit s = walkOn s.nextNode ((s.allocated .placeholder).linkChild s.wpos bit s.nextNode)) ∨
    ((s.node s.wpos).child bit ≠ 0#16 ∧ (s.node ((s.node s.wpos).child bit)).leaf = true ∧
      innerStep bit s = raise .prefixConflict (s.entryInfo s.eSym) s) ∨
    ((s.node s.wpos).child bit ≠ 0#16 ∧ (s.node ((s.node s.wpos).child bit)).leaf = false ∧
      innerStep bit s = walkOn ((s.node s.wpos).child bit) s) := by
  by_cases h : (s.node s.wpos).child bit = 0#16
  · by_cases hf : s.nodecnt.toNat = s.params.nnodes
    · exact .inl ⟨h, hf, by simp [innerStep, h, allocChild_of_full _ _ _ hf]⟩
    · exact .inr (.inl ⟨h, hf, by simp [innerStep, h, allocChild_of_room _ _ _ hf]⟩)
  · cases hl : (s.node ((s.node s.wpos).child bit)).leaf
    · exact .inr (.inr (.inr ⟨h, rfl, by simp [innerStep, h, hl]⟩))
    · exact .inr (.inr (.inl ⟨h, rfl, by simp [innerStep, h, hl]⟩))

/-- The final step: exhausted, a new Leaf, an overwritten Leaf, or a conflict. -/
theorem finalStep_cases (bit : Bool) (s : State) :
    ((s.node s.wpos).child bit = 0#16 ∧ s.nodecnt.toNat = s.params.nnodes ∧
      finalStep bit s = raise .nodeExhausted (s.eSym.setWidth 32) s) ∨
    ((s.node s.wpos).child bit = 0#16 ∧ s.nodecnt.toNat ≠ s.params.nnodes ∧
      finalStep bit s = closeEntry ((s.allocated (.leafOf s.eSym)).linkChild s.wpos bit s.nextNode)) ∨
    ((s.node s.wpos).child bit ≠ 0#16 ∧ (s.node ((s.node s.wpos).child bit)).leaf = true ∧
      finalStep bit s = closeEntry (s.writeNode ((s.node s.wpos).child bit)
        { s.node ((s.node s.wpos).child bit) with sym := s.eSym })) ∨
    ((s.node s.wpos).child bit ≠ 0#16 ∧ (s.node ((s.node s.wpos).child bit)).leaf = false ∧
      finalStep bit s = raise .prefixConflict (s.entryInfo s.eSym) s) := by
  by_cases h : (s.node s.wpos).child bit = 0#16
  · by_cases hf : s.nodecnt.toNat = s.params.nnodes
    · exact .inl ⟨h, hf, by simp [finalStep, h, allocChild_of_full _ _ _ hf]⟩
    · exact .inr (.inl ⟨h, hf, by simp [finalStep, h, allocChild_of_room _ _ _ hf]⟩)
  · cases hl : (s.node ((s.node s.wpos).child bit)).leaf
    · exact .inr (.inr (.inr ⟨h, rfl, by simp [finalStep, h, hl]⟩))
    · exact .inr (.inr (.inl ⟨h, rfl, by simp [finalStep, h, hl]⟩))

/-- Closing an entry ends the load, or opens the state for the next entry. -/
theorem closeEntry_cases (s : State) :
    (s.remain - 1#9 = 0#9 ∧ closeEntry s =
      { s with eLeft := 0#8, remain := 0#9, phase := .idle, treeValid := true, done := true }) ∨
    (s.remain - 1#9 ≠ 0#9 ∧ closeEntry s = { s with eLeft := 0#8, remain := s.remain - 1#9, phase := .load }) := by
  by_cases h : s.remain - 1#9 = 0#9
  · exact .inl ⟨h, by simp [closeEntry, h]⟩
  · exact .inr ⟨h, by simp [closeEntry, h]⟩

/-! ### Records -/

/-- The two operands pass exactly when the bit length is not negative and the trailing count is the one that belongs to it
(42_decode_automaton.md R141). -/
theorem recordFault_eq_none (a b : Word) :
    recordFault a b = none ↔ 0 ≤ signed a ∧ 1 ≤ signed b ∧ signed b ≤ 8 ∧ signed b = trail (signed a).toNat := by
  unfold recordFault
  split
  · simp; omega
  · split
    · simp; omega
    · split
      · simp; omega
      · simp; omega

end Sys2Proof.Machine
end

