-- ==== Sys2Proof/Laws/Automaton.lean ====
section
/-! SUPPORT. The automaton against the walk of the spec (42_decode_automaton.md R147): what stepping a list of bits does. -/

namespace Sys2Proof.Machine

/-- The state after a walk from POS: what the bit steps of the walk have written. -/
def State.walked (s : State) (w : Walk) : State :=
  { s with
    pos := w.pos, bitcnt := s.bitcnt + BitVec.ofNat 32 w.stepped
    outcnt := s.outcnt + BitVec.ofNat 32 w.out.length, outq := s.outq ++ w.out }

theorem ofNat_one_add (c : Word) (n : Nat) : c + 1#32 + BitVec.ofNat 32 n = c + BitVec.ofNat 32 (n + 1) := by
  rw [BitVec.add_assoc, ← BitVec.ofNat_add, Nat.add_comm]

/-- Stepping bits is walking them: to the end, or into AbsentChild with the offending bit's index. -/
theorem stepBits_eq_walk (bits : List Bool) (s : State) :
    stepBits bits s =
      if (walk s.node s.pos bits).absent then
        .raised (raise .absentChild (s.walked (walk s.node s.pos bits)).bitcnt (s.walked (walk s.node s.pos bits)))
      else .on (s.walked (walk s.node s.pos bits)) := by
  induction bits generalizing s with
  | nil => simp [stepBits, walk, State.walked]
  | cons bit rest ih =>
    rcases stepBit_cases bit s with ⟨hc, h⟩ | ⟨hc, hl, h⟩ | ⟨hc, hl, h⟩
    · simp [stepBits, h, walk, hc, State.walked]
    · simp only [stepBits, h]
      rw [ih]
      simp only [walk, if_neg hc, hl, if_true, Walk.before, State.walked, ofNat_one_add, List.append_assoc,
        List.length_append, List.length_cons, List.length_nil, Nat.zero_add, Nat.add_comm 1]
      rfl
    · simp only [stepBits, h]
      rw [ih]
      simp only [walk, if_neg hc, hl, Bool.false_eq_true, if_false, Walk.before, State.walked, ofNat_one_add,
        List.nil_append]
      rfl

/-- A walk emits at most one symbol a bit, and steps at most the bits there are. -/
theorem walk_bounds (trie : NodeIdx → Node) (bits : List Bool) (p : NodeIdx) :
    (walk trie p bits).out.length ≤ (walk trie p bits).stepped ∧ (walk trie p bits).stepped ≤ bits.length := by
  induction bits generalizing p with
  | nil => simp [walk]
  | cons bit rest ih =>
    simp only [walk]
    split
    · simp
    · split
      · have := ih 0#16
        simp only [Walk.before, List.length_append, List.length_cons, List.length_nil]
        omega
      · have := ih ((trie p).child bit)
        simp only [Walk.before, List.nil_append, List.length_cons]
        omega

/-- A walk that meets no absent child steps every bit. -/
theorem walk_stepped (trie : NodeIdx → Node) (bits : List Bool) (p : NodeIdx)
    (h : (walk trie p bits).absent = false) : (walk trie p bits).stepped = bits.length := by
  induction bits generalizing p with
  | nil => rfl
  | cons bit rest ih =>
    revert h
    simp only [walk]
    split
    · simp
    · split <;> intro h <;> simpa [Walk.before] using ih _ h

end Sys2Proof.Machine
end

