-- ==== Sys2Proof/Laws/Commands.lean ====
section
/-! SUPPORT. What each of the four operation commands can do, said once. -/

namespace Sys2Proof.Machine

/-- TBL_BEGIN (41_tree_reconstructor.md R112): ignored, the wrong state, a bad count, or a load opened. -/
theorem tblBegin_cases (s : State) :
    (s.phase = .error ∧ tblBegin s = s) ∨
    (s.phase ≠ .error ∧ s.phase ≠ .idle ∧ tblBegin s = raise .badState 0x01#32 s) ∨
    (s.phase = .idle ∧ tblBegin s = raise .badCodeCount s.arg0 { s with treeValid := false, done := false }) ∨
    (s.phase = .idle ∧ 1 ≤ signed s.arg0 ∧ signed s.arg0 ≤ 256 ∧ tblBegin s = { s with
      treeValid := false, done := false, nodes := s.nodes.write 0 .placeholder, nodecnt := 1#17,
      remain := BitVec.ofInt 9 (signed s.arg0), phase := .load }) := by
  cases h : s.phase
  case idle =>
    by_cases hc : signed s.arg0 < 1 ∨ signed s.arg0 > 256
    · exact .inr (.inr (.inl ⟨rfl, by simp only [tblBegin, h, hc, if_true]⟩))
    · refine .inr (.inr (.inr ⟨rfl, by omega, by omega, ?_⟩))
      simp only [tblBegin, h, hc, if_false]
      rfl
  all_goals simp [tblBegin, h]

/-- TBL_ENTRY (41_tree_reconstructor.md R114): ignored, the wrong state, a bad length, or an entry opened. -/
theorem tblEntry_cases (s : State) :
    (s.phase = .error ∧ tblEntry s = s) ∨
    (s.phase ≠ .error ∧ s.phase ≠ .load ∧ tblEntry s = raise .badState 0x02#32 s) ∨
    (s.phase = .load ∧ tblEntry s = raise .badCodeLength s.arg1 s) ∨
    (s.phase = .load ∧ 1 ≤ signed s.arg1 ∧ signed s.arg1 ≤ 255 ∧ tblEntry s = { s with
      eSym := s.arg0.extractLsb' 0 8, eLen := BitVec.ofInt 8 (signed s.arg1), eLeft := BitVec.ofInt 8 (signed s.arg1)
      wpos := 0#16, phase := .entry }) := by
  cases h : s.phase
  case load =>
    by_cases hc : signed s.arg1 < 1 ∨ signed s.arg1 > 255
    · exact .inr (.inr (.inl ⟨rfl, by simp only [tblEntry, h, hc, if_true]⟩))
    · exact .inr (.inr (.inr ⟨rfl, by omega, by omega, by simp only [tblEntry, h, hc, if_false]⟩))
  all_goals simp [tblEntry, h]

/-- The cause of a record's operand fault is one of two (42_decode_automaton.md R141, 40_bit_unpacker.md R95). -/
theorem recordFault_cause {a b : Word} {cause : Cause} {info : Word} (h : recordFault a b = some (cause, info)) :
    cause = .badBitLength ∨ cause = .badTrailCount := by
  unfold recordFault at h
  split at h
  · cases h; exact .inl rfl
  · split at h
    · cases h; exact .inr rfl
    · split at h
      · cases h; exact .inr rfl
      · cases h

/-- Opening a record (42_decode_automaton.md R141, 40_bit_unpacker.md R95): complete at once, or STATE put at `p`. -/
theorem openRecord_cases (p : Phase) (s : State) :
    ((signed s.arg0).toNat = 0 ∧ openRecord p s = { s with
      bitlen := 0#31, lastvalid := BitVec.ofInt 4 (signed s.arg1), bytesLeft := 0#29, bitcnt := 0#32, outcnt := 0#32
      done := true }) ∨
    ((signed s.arg0).toNat ≠ 0 ∧ openRecord p s = { s with
      bitlen := BitVec.ofNat 31 (signed s.arg0).toNat, lastvalid := BitVec.ofInt 4 (signed s.arg1)
      bytesLeft := BitVec.ofNat 29 (ceil8 (signed s.arg0).toNat), bitcnt := 0#32, outcnt := 0#32, phase := p }) := by
  by_cases h : (signed s.arg0).toNat = 0
  · exact .inl ⟨h, by simp only [openRecord, h, if_true]; rfl⟩
  · exact .inr ⟨h, by simp only [openRecord, h, if_false]⟩

/-- DEC_BEGIN (42_decode_automaton.md R141): ignored, the wrong state, no valid trie, a bad operand, or a record opened. -/
theorem decBegin_cases (s : State) :
    (s.phase = .error ∧ decBegin s = s) ∨
    (s.phase ≠ .error ∧ s.phase ≠ .idle ∧ decBegin s = raise .badState 0x03#32 s) ∨
    (s.phase = .idle ∧ s.treeValid = false ∧ decBegin s = raise .badState 0x103#32 s) ∨
    (s.phase = .idle ∧ s.treeValid = true ∧ ∃ cause info, recordFault s.arg0 s.arg1 = some (cause, info) ∧
      decBegin s = raise cause info { s with done := false }) ∨
    (s.phase = .idle ∧ s.treeValid = true ∧ recordFault s.arg0 s.arg1 = none ∧
      decBegin s = openRecord .decode { s with done := false, pos := 0#16 }) := by
  cases h : s.phase
  case idle =>
    cases ht : s.treeValid
    · simp [decBegin, h, ht]
    · cases hr : recordFault s.arg0 s.arg1 with
      | none => simp [decBegin, h, ht, hr]
      | some p => obtain ⟨c, i⟩ := p; simp [decBegin, h, ht, hr]
  all_goals simp [decBegin, h]

/-- UNPK_BEGIN (40_bit_unpacker.md R95): ignored, the wrong state, a bad operand, or a record opened. -/
theorem unpkBegin_cases (s : State) :
    (s.phase = .error ∧ unpkBegin s = s) ∨
    (s.phase ≠ .error ∧ s.phase ≠ .idle ∧ unpkBegin s = raise .badState 0x04#32 s) ∨
    (s.phase = .idle ∧ ∃ cause info, recordFault s.arg0 s.arg1 = some (cause, info) ∧
      unpkBegin s = raise cause info { s with done := false }) ∨
    (s.phase = .idle ∧ recordFault s.arg0 s.arg1 = none ∧
      unpkBegin s = openRecord .unpack { s with done := false }) := by
  cases h : s.phase
  case idle =>
    cases hr : recordFault s.arg0 s.arg1 with
    | none => simp [unpkBegin, h, hr]
    | some p => obtain ⟨c, i⟩ := p; simp [unpkBegin, h, hr]
  all_goals simp [unpkBegin, h]

/-- A read of DOUT (43_control_and_io.md R174). -/
theorem doutRead_cases (s : State) :
    (s.outq = [] ∧ doutRead s = { s with answer := .data 0#32 }) ∨
    (∃ d rest, s.outq = d :: rest ∧
      doutRead s = { s with outq := rest, answer := .data (flag true 8 ||| field d 0) }) := by
  cases h : s.outq with
  | nil => exact .inl ⟨rfl, by simp [doutRead, h, State.respond]⟩
  | cons d rest => exact .inr ⟨d, rest, rfl, by simp [doutRead, h, State.respond]⟩

end Sys2Proof.Machine
end

