-- ==== Sys2Proof/Laws/Din.lean ====
section
/-! SUPPORT. What a byte written to DIN can do, said once per state: the fields it may write, and how it can end. -/

namespace Sys2Proof.Machine

/-- A bit character (41_tree_reconstructor.md R118): one of the rule's three faults with nothing else written, a step of the
walk, or the closing of the entry. -/
theorem entryByte_shape (c : Byte) (s : State) :
    (∃ cause info, (cause = .badBitChar ∨ cause = .prefixConflict ∨ cause = .nodeExhausted) ∧
      entryByte c s = raise cause info s) ∨
    (∃ m n p, entryByte c s = { s with nodes := m, nodecnt := n, wpos := p, eLeft := s.eLeft - 1#8 }) ∨
    (∃ m n, entryByte c s = closeEntry { s with nodes := m, nodecnt := n }) := by
  rcases entryByte_cases c s with ⟨_, h⟩ | ⟨bit, _, _, h⟩ | ⟨bit, _, _, h⟩ <;> rw [h]
  · exact .inl ⟨_, _, .inl rfl, rfl⟩
  · rcases innerStep_cases bit s with ⟨_, _, e⟩ | ⟨_, _, e⟩ | ⟨_, _, e⟩ | ⟨_, _, e⟩ <;> rw [e]
    · exact .inl ⟨_, _, .inr (.inr rfl), rfl⟩
    · exact .inr (.inl ⟨_, _, _, rfl⟩)
    · exact .inl ⟨_, _, .inr (.inl rfl), rfl⟩
    · exact .inr (.inl ⟨s.nodes, s.nodecnt, _, rfl⟩)
  · rcases finalStep_cases bit s with ⟨_, _, e⟩ | ⟨_, _, e⟩ | ⟨_, _, e⟩ | ⟨_, _, e⟩ <;> rw [e]
    · exact .inl ⟨_, _, .inr (.inr rfl), rfl⟩
    · exact .inr (.inr ⟨_, _, rfl⟩)
    · exact .inr (.inr ⟨_, s.nodecnt, rfl⟩)
    · exact .inl ⟨_, _, .inr (.inl rfl), rfl⟩

/-- A packed byte of a DECODE record (42_decode_automaton.md R143): no room, an absent child on the way, or every bit
stepped and the byte counted. -/
theorem decodeByte_shape (b : Byte) (s : State) :
    (s.hasRoom = false ∧ decodeByte b s = raise .dinOverrun (s.outqLevel.setWidth 32) s) ∨
    (s.hasRoom = true ∧ ∃ w : Walk, w.out.length ≤ 8 ∧ w = walk s.node s.pos (bitsOfByte b s.validBits) ∧
      (w.absent = true ∧ decodeByte b s = raise .absentChild (s.walked w).bitcnt (s.walked w) ∨
       w.absent = false ∧ decodeByte b s = endOfByte (s.walked w))) := by
  cases hr : s.hasRoom
  · exact .inl ⟨rfl, by simp [decodeByte, hr]⟩
  · refine .inr ⟨rfl, walk s.node s.pos (bitsOfByte b s.validBits), ?_, rfl, ?_⟩
    · have h1 := walk_bounds s.node (bitsOfByte b s.validBits) s.pos
      have h2 := length_bitsOfByte b s.validBits
      omega
    · cases ha : (walk s.node s.pos (bitsOfByte b s.validBits)).absent
      · exact .inr ⟨rfl, by simp [decodeByte, hr, stepBits_eq_walk, ha]⟩
      · exact .inl ⟨rfl, by simp [decodeByte, hr, stepBits_eq_walk, ha]⟩

/-- The end of a byte (42_decode_automaton.md R143, R144): more bytes to come, a well-formed end, or an end off the root. -/
theorem endOfByte_cases (s : State) :
    (s.bytesLeft - 1#29 ≠ 0#29 ∧ endOfByte s = { s with bytesLeft := s.bytesLeft - 1#29 }) ∨
    (s.bytesLeft - 1#29 = 0#29 ∧ s.pos = 0#16 ∧
      endOfByte s = { s with bytesLeft := 0#29, phase := .idle, done := true }) ∨
    (s.bytesLeft - 1#29 = 0#29 ∧ s.pos ≠ 0#16 ∧
      endOfByte s = raise .endNotAtRoot (s.pos.setWidth 32) { s with bytesLeft := 0#29 }) := by
  by_cases h : s.bytesLeft - 1#29 = 0#29
  · by_cases hp : s.pos = 0#16
    · exact .inr (.inl ⟨h, hp, by simp [endOfByte, h, hp]⟩)
    · exact .inr (.inr ⟨h, hp, by simp [endOfByte, h, hp]⟩)
  · exact .inl ⟨h, by simp [endOfByte, h]⟩

/-- The state after the bits of a packed byte have become characters (40_bit_unpacker.md R96). -/
def State.unpacked (s : State) (bits : List Bool) : State :=
  { s with
    outq := s.outq ++ bits.map charOfBit
    outcnt := s.outcnt + BitVec.ofNat 32 bits.length
    bitcnt := s.bitcnt + BitVec.ofNat 32 bits.length }

/-- A packed byte of an UNPACK record (40_bit_unpacker.md R96): no room, more bytes to come, or the last byte. -/
theorem unpackByte_shape (b : Byte) (s : State) :
    (s.hasRoom = false ∧ unpackByte b s = raise .dinOverrun (s.outqLevel.setWidth 32) s) ∨
    (s.hasRoom = true ∧ ∃ bits : List Bool, bits.length ≤ 8 ∧ bits = bitsOfByte b s.validBits ∧
      (s.bytesLeft - 1#29 ≠ 0#29 ∧ unpackByte b s = { s.unpacked bits with bytesLeft := s.bytesLeft - 1#29 } ∨
       s.bytesLeft - 1#29 = 0#29 ∧
        unpackByte b s = { s.unpacked bits with bytesLeft := 0#29, phase := .idle, done := true })) := by
  cases hr : s.hasRoom
  · exact .inl ⟨rfl, by simp [unpackByte, hr]⟩
  · refine .inr ⟨rfl, bitsOfByte b s.validBits, ?_, rfl, ?_⟩
    · have h2 := length_bitsOfByte b s.validBits
      omega
    · by_cases h : s.bytesLeft - 1#29 = 0#29
      · exact .inr ⟨h, by simp [unpackByte, hr, unpackBits_eq, State.unpacked, h]⟩
      · exact .inl ⟨h, by simp [unpackByte, hr, unpackBits_eq, State.unpacked, h]⟩

/-- A DIN write is handled according to STATE (43_control_and_io.md R177). -/
theorem dinWrite_cases (v : Word) (s : State) :
    (s.phase = .error ∧ dinWrite v s = s) ∨
    (s.phase = .entry ∧ dinWrite v s = entryByte (dinByte v) s) ∨
    (s.phase = .decode ∧ dinWrite v s = decodeByte (dinByte v) s) ∨
    (s.phase = .unpack ∧ dinWrite v s = unpackByte (dinByte v) s) ∨
    ((s.phase = .idle ∨ s.phase = .load) ∧
      dinWrite v s = raise .dinUnexpected ((dinByte v).setWidth 32) s) := by
  cases h : s.phase <;> simp [dinWrite, h]

/-- The four rows of a DIN write have one meaning, `dinWrite`. -/
theorem exec_of_isDin {i : Instr} {v : Word} (s : State)
    (h : i = .dinEntry v ∨ i = .dinDecode v ∨ i = .dinUnpack v ∨ i = .dinUnexpected v) :
    exec i s = .next (dinWrite v s) := by
  rcases h with h | h | h | h <;> subst h <;> rfl

end Sys2Proof.Machine
end

