-- ==== Sys2Proof/Laws/Effect.lean ====
section
/-! SUPPORT. Everything an instruction can do, said once: the list of next states `exec` can answer, guards included. A claim
about every instruction is a case analysis on `Effect`, with no meaning unfolded. -/

namespace Sys2Proof.Machine

/-- The last step of an entry (41_tree_reconstructor.md R118), where the Leaf is new or was there before. -/
inductive FinalEffect (s : State) : State → Prop
  | newLeaf (bit : Bool) (absent : (s.node s.wpos).child bit = 0#16) (room : s.nodecnt.toNat ≠ s.params.nnodes) :
      FinalEffect s ((s.allocated (.leafOf s.eSym)).linkChild s.wpos bit s.nextNode)
  | oldLeaf (bit : Bool) (present : (s.node s.wpos).child bit ≠ 0#16)
      (leaf : (s.node ((s.node s.wpos).child bit)).leaf = true) :
      FinalEffect s (s.writeNode ((s.node s.wpos).child bit) { s.node ((s.node s.wpos).child bit) with sym := s.eSym })

/-- The next states of each instruction. -/
inductive Effect (s : State) : Instr → State → Prop
  /-- NOP and the reads: at most the port's answer. -/
  | answered {i : Instr} (a : Answer) (row : i = .nop ∨ IsRead i) : Effect s i { s with answer := a }
  | popped (d : Byte) (rest : List Byte) (head : s.outq = d :: rest) :
      Effect s .doutPop { s with outq := rest, answer := .data (flag true 8 ||| field d 0) }
  | wroteArg0 (v : Word) : Effect s (.wArg0 v) { s with arg0 := v }
  | wroteArg1 (v : Word) : Effect s (.wArg1 v) { s with arg1 := v }
  | wroteInten (v : Word) : Effect s (.wInten v) { s with inten := v.extractLsb' 0 4 }
  | wroteNodeidx (v : Word) : Effect s (.wNodeidx v) { s with nodeidx := v.extractLsb' 0 16 }
  | aborted : Effect s .abort (giveUp s)
  | wasReset : Effect s .softReset (resetBlock s)
  /-- In ERROR an operation command and a byte are ignored. -/
  | ignored {i : Instr} (row : IsOperationCommand i ∨ IsDin i) (phase : s.phase = .error) : Effect s i s
  | badState {i : Instr} (info : Word) (row : IsOperationCommand i) (phase : s.phase ≠ .error) :
      Effect s i (raise .badState info s)
  | badCount (phase : s.phase = .idle) :
      Effect s .tblBegin (raise .badCodeCount s.arg0 { s with treeValid := false, done := false })
  | loadOpened (phase : s.phase = .idle) (low : 1 ≤ signed s.arg0) (high : signed s.arg0 ≤ 256) :
      Effect s .tblBegin { s with
        treeValid := false, done := false, nodes := s.nodes.write 0 .placeholder, nodecnt := 1#17,
        remain := BitVec.ofInt 9 (signed s.arg0), phase := .load }
  | badLength (phase : s.phase = .load) : Effect s .tblEntry (raise .badCodeLength s.arg1 s)
  | entryOpened (phase : s.phase = .load) (low : 1 ≤ signed s.arg1) (high : signed s.arg1 ≤ 255) :
      Effect s .tblEntry { s with
        eSym := s.arg0.extractLsb' 0 8, eLen := BitVec.ofInt 8 (signed s.arg1), eLeft := BitVec.ofInt 8 (signed s.arg1)
        wpos := 0#16, phase := .entry }
  | badRecord {i : Instr} (cause : Cause) (info : Word) (row : i = .decBegin ∨ i = .unpkBegin) (phase : s.phase = .idle)
      (names : cause = .badBitLength ∨ cause = .badTrailCount) : Effect s i (raise cause info { s with done := false })
  | decodeOpened (phase : s.phase = .idle) (tree : s.treeValid = true) (legal : recordFault s.arg0 s.arg1 = none) :
      Effect s .decBegin (openRecord .decode { s with done := false, pos := 0#16 })
  | unpackOpened (phase : s.phase = .idle) (legal : recordFault s.arg0 s.arg1 = none) :
      Effect s .unpkBegin (openRecord .unpack { s with done := false })
  | entryFault {i : Instr} (cause : Cause) (info : Word) (row : IsDin i) (phase : s.phase = .entry)
      (names : cause = .badBitChar ∨ cause = .prefixConflict ∨ cause = .nodeExhausted) :
      Effect s i (raise cause info s)
  | walkedNew {i : Instr} (bit : Bool) (row : IsDin i) (phase : s.phase = .entry) (inner : 1 < s.eLeft.toNat)
      (absent : (s.node s.wpos).child bit = 0#16) (room : s.nodecnt.toNat ≠ s.params.nnodes) :
      Effect s i (walkOn s.nextNode ((s.allocated .placeholder).linkChild s.wpos bit s.nextNode))
  | walkedOld {i : Instr} (bit : Bool) (row : IsDin i) (phase : s.phase = .entry) (inner : 1 < s.eLeft.toNat)
      (present : (s.node s.wpos).child bit ≠ 0#16) (internal : (s.node ((s.node s.wpos).child bit)).leaf = false) :
      Effect s i (walkOn ((s.node s.wpos).child bit) s)
  | closed {i : Instr} (s1 : State) (row : IsDin i) (phase : s.phase = .entry) (last : s.eLeft.toNat ≤ 1)
      (placed : FinalEffect s s1) : Effect s i (closeEntry s1)
  | overrun {i : Instr} (info : Word) (row : IsDin i) (phase : s.phase = .decode ∨ s.phase = .unpack)
      (noRoom : s.hasRoom = false) : Effect s i (raise .dinOverrun info s)
  | absentChild {i : Instr} (w : Walk) (bits : List Bool) (row : IsDin i) (phase : s.phase = .decode)
      (room : s.hasRoom = true) (count : bits.length = min s.validBits 8) (walks : w = walk s.node s.pos bits)
      (absent : w.absent = true) : Effect s i (raise .absentChild (s.walked w).bitcnt (s.walked w))
  | decoded {i : Instr} (w : Walk) (bits : List Bool) (row : IsDin i) (phase : s.phase = .decode)
      (room : s.hasRoom = true) (count : bits.length = min s.validBits 8) (walks : w = walk s.node s.pos bits)
      (present : w.absent = false) : Effect s i (endOfByte (s.walked w))
  | unpackedByte {i : Instr} (bits : List Bool) (row : IsDin i) (phase : s.phase = .unpack)
      (room : s.hasRoom = true) (count : bits.length = min s.validBits 8) (more : s.bytesLeft - 1#29 ≠ 0#29) :
      Effect s i { s.unpacked bits with bytesLeft := s.bytesLeft - 1#29 }
  | unpackedLast {i : Instr} (bits : List Bool) (row : IsDin i) (phase : s.phase = .unpack)
      (room : s.hasRoom = true) (count : bits.length = min s.validBits 8) (last : s.bytesLeft - 1#29 = 0#29) :
      Effect s i { s.unpacked bits with bytesLeft := 0#29, phase := .idle, done := true }
  | unexpected {i : Instr} (info : Word) (row : IsDin i) (phase : s.phase = .idle ∨ s.phase = .load) :
      Effect s i (raise .dinUnexpected info s)

theorem entryByte_effect {i : Instr} (c : Byte) (s : State) (row : IsDin i) (phase : s.phase = .entry) :
    Effect s i (entryByte c s) := by
  rcases entryByte_cases c s with ⟨_, h⟩ | ⟨bit, _, hl, h⟩ | ⟨bit, _, hl, h⟩ <;> rw [h]
  · exact .entryFault _ _ row phase (.inl rfl)
  · rcases innerStep_cases bit s with ⟨_, _, e⟩ | ⟨h1, h2, e⟩ | ⟨_, _, e⟩ | ⟨h1, h2, e⟩ <;> rw [e]
    · exact .entryFault _ _ row phase (.inr (.inr rfl))
    · exact .walkedNew bit row phase hl h1 h2
    · exact .entryFault _ _ row phase (.inr (.inl rfl))
    · exact .walkedOld bit row phase hl h1 h2
  · rcases finalStep_cases bit s with ⟨_, _, e⟩ | ⟨h1, h2, e⟩ | ⟨h1, h2, e⟩ | ⟨_, _, e⟩ <;> rw [e]
    · exact .entryFault _ _ row phase (.inr (.inr rfl))
    · exact .closed _ row phase hl (.newLeaf bit h1 h2)
    · exact .closed _ row phase hl (.oldLeaf bit h1 h2)
    · exact .entryFault _ _ row phase (.inr (.inl rfl))

theorem dinWrite_effect {i : Instr} (v : Word) (s : State) (row : IsDin i) : Effect s i (dinWrite v s) := by
  rcases dinWrite_cases v s with ⟨hp, h⟩ | ⟨hp, h⟩ | ⟨hp, h⟩ | ⟨hp, h⟩ | ⟨hp, h⟩ <;> rw [h]
  · exact .ignored (.inr row) hp
  · exact entryByte_effect _ s row hp
  · rcases decodeByte_shape (dinByte v) s with ⟨hr, e⟩ | ⟨hr, w, _, hw, ⟨ha, e⟩ | ⟨ha, e⟩⟩ <;> rw [e]
    · exact .overrun _ row (.inl hp) hr
    · exact .absentChild w _ row hp hr (length_bitsOfByte _ _) hw ha
    · exact .decoded w _ row hp hr (length_bitsOfByte _ _) hw ha
  · rcases unpackByte_shape (dinByte v) s with ⟨hr, e⟩ | ⟨hr, bits, _, hb, ⟨hm, e⟩ | ⟨hm, e⟩⟩ <;> rw [e]
    · exact .overrun _ row (.inr hp) hr
    · exact .unpackedByte bits row hp hr (hb ▸ length_bitsOfByte _ _) hm
    · exact .unpackedLast bits row hp hr (hb ▸ length_bitsOfByte _ _) hm
  · exact .unexpected _ row hp

/-- Every next state of `exec` is one of the effects. -/
theorem exec_effect {i : Instr} {s t : State} (h : exec i s = .next t) : Effect s i t := by
  cases i
  case nop => cases h; exact .answered s.answer (.inl rfl)
  case tblBegin =>
    cases h
    rcases tblBegin_cases s with ⟨hp, e⟩ | ⟨hp, _, e⟩ | ⟨hp, e⟩ | ⟨hp, hl, hh, e⟩ <;> rw [e]
    · exact .ignored (.inl (.inl rfl)) hp
    · exact .badState _ (.inl rfl) hp
    · exact .badCount hp
    · exact .loadOpened hp hl hh
  case tblEntry =>
    cases h
    rcases tblEntry_cases s with ⟨hp, e⟩ | ⟨hp, _, e⟩ | ⟨hp, e⟩ | ⟨hp, hl, hh, e⟩ <;> rw [e]
    · exact .ignored (.inl (.inr (.inl rfl))) hp
    · exact .badState _ (.inr (.inl rfl)) hp
    · exact .badLength hp
    · exact .entryOpened hp hl hh
  case decBegin =>
    cases h
    have row : IsOperationCommand .decBegin := .inr (.inr (.inl rfl))
    rcases decBegin_cases s with ⟨hp, e⟩ | ⟨hp, _, e⟩ | ⟨hp, _, e⟩ | ⟨hp, _, c, f, hf, e⟩ | ⟨hp, ht, hf, e⟩ <;> rw [e]
    · exact .ignored (.inl row) hp
    · exact .badState _ row hp
    · exact .badState _ row (by simp [hp])
    · exact .badRecord _ _ (.inl rfl) hp (recordFault_cause hf)
    · exact .decodeOpened hp ht hf
  case unpkBegin =>
    cases h
    have row : IsOperationCommand .unpkBegin := .inr (.inr (.inr rfl))
    rcases unpkBegin_cases s with ⟨hp, e⟩ | ⟨hp, _, e⟩ | ⟨hp, c, f, hf, e⟩ | ⟨hp, hf, e⟩ <;> rw [e]
    · exact .ignored (.inl row) hp
    · exact .badState _ row hp
    · exact .badRecord _ _ (.inr rfl) hp (recordFault_cause hf)
    · exact .unpackOpened hp hf
  case abort => cases h; exact .aborted
  case softReset => cases h; exact .wasReset
  case dinEntry v => cases h; exact dinWrite_effect v s ⟨v, .inl rfl⟩
  case dinDecode v => cases h; exact dinWrite_effect v s ⟨v, .inr (.inl rfl)⟩
  case dinUnpack v => cases h; exact dinWrite_effect v s ⟨v, .inr (.inr (.inl rfl))⟩
  case dinUnexpected v => cases h; exact dinWrite_effect v s ⟨v, .inr (.inr (.inr rfl))⟩
  case doutPop =>
    cases h
    rcases doutRead_cases s with ⟨_, e⟩ | ⟨d, rest, ho, e⟩ <;> rw [e]
    · exact .answered _ (.inr (.inl rfl))
    · exact .popped d rest ho
  case wArg0 v => cases h; exact .wroteArg0 v
  case wArg1 v => cases h; exact .wroteArg1 v
  case wInten v => cases h; exact .wroteInten v
  case wNodeidx v => cases h; exact .wroteNodeidx v
  all_goals cases h; exact .answered _ (by simp [IsRead])

/-- A step is the effect of an instruction, of the reset input or of an access that is no instruction, on the state that
`fetch` leaves; or nothing is pending. -/
theorem step_cases {s t : State} (h : step s = .next t) :
    (s.pending = [] ∧ t = s) ∨
    (∃ f rest, s.pending = .resetInput f :: rest ∧ t = resetInput { s with pending := rest, answer := .done }) ∨
    (∃ a rest i, s.pending = .access a :: rest ∧ decode s.phase a = .instr i ∧
      exec i { s with pending := rest, answer := .done } = .next t) ∨
    (∃ a rest r, s.pending = .access a :: rest ∧ decode s.phase a = .rejected r ∧
      t = rejected r { s with pending := rest, answer := .done }) := by
  cases hp : s.pending with
  | nil => simp only [step, fetch, hp] at h; cases h; exact .inl ⟨rfl, rfl⟩
  | cons e rest =>
    simp only [step, fetch, hp] at h
    cases e with
    | resetInput f => cases h; exact .inr (.inl ⟨f, rest, rfl, rfl⟩)
    | access a =>
      simp only [react] at h
      cases hd : decode s.phase a with
      | instr i => rw [hd] at h; exact .inr (.inr (.inl ⟨a, rest, i, rfl, hd, h⟩))
      | rejected r => rw [hd] at h; cases h; exact .inr (.inr (.inr ⟨a, rest, r, rfl, hd, rfl⟩))

/-- An access that is no instruction faults BadCommand or leaves all but the port's answer. -/
theorem rejected_cases (r : Reject) (s : State) :
    (∃ v, r = .badCommand v ∧ s.phase ≠ .error ∧ rejected r s = raise .badCommand v s) ∨
    (∃ a, rejected r s = { s with answer := a }) := by
  cases r with
  | badCommand v =>
    by_cases h : s.phase = .error
    · exact .inr ⟨s.answer, if_pos h⟩
    · exact .inl ⟨v, rfl, h, by simp [rejected, h]⟩
  | portError => exact .inr ⟨_, rfl⟩
  | dinInError => exact .inr ⟨s.answer, rfl⟩
  | ignoredWrite => exact .inr ⟨s.answer, rfl⟩
  | zeroRead => exact .inr ⟨_, rfl⟩

/-- Closing an entry writes these fields and no others. -/
theorem closeEntry_frame (s : State) : closeEntry s = { s with
    phase := (closeEntry s).phase, treeValid := (closeEntry s).treeValid, done := (closeEntry s).done
    remain := (closeEntry s).remain, eLeft := (closeEntry s).eLeft } := by
  rcases closeEntry_cases s with ⟨_, e⟩ | ⟨_, e⟩ <;> rw [e]

/-- Opening a record writes these fields and no others. -/
theorem openRecord_frame (p : Phase) (s : State) : openRecord p s = { s with
    phase := (openRecord p s).phase, bitlen := (openRecord p s).bitlen, lastvalid := (openRecord p s).lastvalid
    bytesLeft := (openRecord p s).bytesLeft, bitcnt := (openRecord p s).bitcnt, outcnt := (openRecord p s).outcnt
    done := (openRecord p s).done } := by
  rcases openRecord_cases p s with ⟨_, e⟩ | ⟨_, e⟩ <;> rw [e]

/-- The end of a byte writes these fields and no others. -/
theorem endOfByte_frame (s : State) : endOfByte s = { s with
    phase := (endOfByte s).phase, bytesLeft := (endOfByte s).bytesLeft, done := (endOfByte s).done
    errCause := (endOfByte s).errCause, errInfo := (endOfByte s).errInfo } := by
  rcases endOfByte_cases s with ⟨_, e⟩ | ⟨_, _, e⟩ | ⟨_, _, e⟩ <;> (rw [e]; try rfl)

/-- Placing the Leaf of an entry writes the node memory and NODECNT alone. -/
theorem finalEffect_frame {s s1 : State} (h : FinalEffect s s1) : s1 = { s with nodes := s1.nodes, nodecnt := s1.nodecnt } := by
  cases h <;> rfl

/-- The principle for what every step keeps: what the port's answer and the events to come do not touch, reset and a
malformed command word keep, and every effect of an instruction keeps. -/
theorem keeps_of_effects (P : State → Prop) (hans : ∀ s p a, P s → P { s with pending := p, answer := a })
    (hreset : ∀ s, P s → P (resetBlock s)) (hbad : ∀ s v, s.phase ≠ .error → P s → P (raise .badCommand v s))
    (heff : ∀ s i t, P s → Effect s i t → P t) (s t : State) (h : P s) (hs : step s = .next t) : P t := by
  rcases step_cases hs with ⟨_, h2⟩ | ⟨f, r, _, h2⟩ | ⟨a, r, i, _, _, h3⟩ | ⟨a, r, j, _, _, h3⟩
  · exact h2 ▸ h
  · subst h2
    have := hans _ r .none (hreset s h)
    exact this
  · exact heff _ i t (hans s r .done h) (exec_effect h3)
  · subst h3
    rcases rejected_cases j { s with pending := r, answer := .done } with ⟨v, _, hp, e⟩ | ⟨b, e⟩
    · rw [e]; exact hbad _ v hp (hans s r .done h)
    · rw [e]; exact hans s r b h

/-- `after` is the state that `exec` answers. -/
theorem exec_after (i : Instr) (s : State) : exec i s = .next (after i s) := by cases i <;> rfl

end Sys2Proof.Machine
end

