-- ==== Sys2Proof/Laws/Fields.lean ====
section
/-! SUPPORT. The bits of a word laid out in fields. -/

namespace Sys2Proof.Machine

/-- Bit `j` of a field. -/
theorem getLsbD_field {n : Nat} (v : BitVec n) (lo j : Nat) :
    (field v lo).getLsbD j = (decide (j < 32) && decide (lo ≤ j) && v.getLsbD (j - lo)) := by
  simp only [field, BitVec.getLsbD_shiftLeft, BitVec.getLsbD_setWidth]
  have h : decide (j - lo < 32) = true ∨ ¬ j < 32 := by
    by_cases h1 : j < 32
    · exact .inl (by simp; omega)
    · exact .inr h1
  rcases h with h | h
  · by_cases h2 : lo ≤ j
    · simp [h, h2, Nat.not_lt.2 h2]
    · simp [h2, Nat.lt_of_not_le h2]
  · simp [h]

/-- Bit `j` of a one-bit field. -/
theorem getLsbD_flag (b : Bool) (lo j : Nat) :
    (flag b lo).getLsbD j = (decide (j < 32) && decide (j = lo) && b) := by
  simp only [flag, getLsbD_field, BitVec.getLsbD_ofBool]
  by_cases h : j = lo
  · simp [h]
  · by_cases h2 : lo ≤ j
    · have h3 : ¬ j - lo = 0 := by omega
      simp [h, h3]
    · simp [h, h2]

/-- Two adjacent fields of a word as arithmetic. -/
theorem field_pair {m n : Nat} (a : BitVec m) (b : BitVec n) :
    field a n ||| field b 0 = BitVec.ofNat 32 (a.toNat * 2 ^ n + b.toNat) := by
  apply BitVec.eq_of_getLsbD_eq
  intro j hj
  rw [BitVec.getLsbD_or, getLsbD_field, getLsbD_field, BitVec.getLsbD_ofNat]
  simp only [hj, decide_true, Bool.true_and, Nat.zero_le, Nat.sub_zero]
  rw [Nat.mul_comm, Nat.testBit_two_pow_mul_add _ b.isLt]
  by_cases h2 : n ≤ j
  · have : ¬ j < n := by omega
    simp [h2, this, BitVec.testBit_toNat]
  · have : j < n := by omega
    simp [h2, this, BitVec.testBit_toNat]

end Sys2Proof.Machine
end

