-- ==== Sys2Proof/Laws/PerInstr.lean ====
section
/-! SUPPORT. Statements about every instruction as syntax, one lemma per constructor. -/

namespace Sys2Proof.Laws.EncodingInWindow

/-- In a window on a 256-byte boundary, the encoding of an instruction is one aligned whole-word access (20_memory.md R47) to
an implemented offset of the window (30_encoding.md R61). -/
def Statement (i : Instr) : Prop :=
  ∀ base : Nat, base % 256 = 0 →
    (encode base i).wellFormed = true ∧ base ≤ (encode base i).addr ∧ (encode base i).addr < base + 0x44

theorem write_inWindow (r : Reg) (v : Word) (base : Nat) (h : base % 256 = 0) :
    (r.write base v).wellFormed = true ∧ base ≤ (r.write base v).addr ∧ (r.write base v).addr < base + 0x44 := by
  cases r <;> simp [Reg.write, Access.wellFormed, Access.addr, Access.width, Reg.offset] <;> omega

theorem read_inWindow (r : Reg) (base : Nat) (h : base % 256 = 0) :
    (r.read base).wellFormed = true ∧ base ≤ (r.read base).addr ∧ (r.read base).addr < base + 0x44 := by
  cases r <;> simp [Reg.read, Access.wellFormed, Access.addr, Access.width, Reg.offset] <;> omega

theorem nop : Statement .nop := fun base h => write_inWindow _ _ base h
theorem tblBegin : Statement .tblBegin := fun base h => write_inWindow _ _ base h
theorem tblEntry : Statement .tblEntry := fun base h => write_inWindow _ _ base h
theorem decBegin : Statement .decBegin := fun base h => write_inWindow _ _ base h
theorem unpkBegin : Statement .unpkBegin := fun base h => write_inWindow _ _ base h
theorem abort : Statement .abort := fun base h => write_inWindow _ _ base h
theorem softReset : Statement .softReset := fun base h => write_inWindow _ _ base h
theorem dinEntry (v : Word) : Statement (.dinEntry v) := fun base h => write_inWindow _ _ base h
theorem dinDecode (v : Word) : Statement (.dinDecode v) := fun base h => write_inWindow _ _ base h
theorem dinUnpack (v : Word) : Statement (.dinUnpack v) := fun base h => write_inWindow _ _ base h
theorem dinUnexpected (v : Word) : Statement (.dinUnexpected v) := fun base h => write_inWindow _ _ base h
theorem doutPop : Statement .doutPop := fun base h => read_inWindow _ base h
theorem wArg0 (v : Word) : Statement (.wArg0 v) := fun base h => write_inWindow _ _ base h
theorem wArg1 (v : Word) : Statement (.wArg1 v) := fun base h => write_inWindow _ _ base h
theorem wInten (v : Word) : Statement (.wInten v) := fun base h => write_inWindow _ _ base h
theorem wNodeidx (v : Word) : Statement (.wNodeidx v) := fun base h => write_inWindow _ _ base h
theorem rConfig : Statement .rConfig := fun base h => read_inWindow _ base h
theorem rStatus : Statement .rStatus := fun base h => read_inWindow _ base h
theorem rErr : Statement .rErr := fun base h => read_inWindow _ base h
theorem rErrinfo : Statement .rErrinfo := fun base h => read_inWindow _ base h
theorem rInten : Statement .rInten := fun base h => read_inWindow _ base h
theorem rArg0 : Statement .rArg0 := fun base h => read_inWindow _ base h
theorem rArg1 : Statement .rArg1 := fun base h => read_inWindow _ base h
theorem rBitcnt : Statement .rBitcnt := fun base h => read_inWindow _ base h
theorem rOutcnt : Statement .rOutcnt := fun base h => read_inWindow _ base h
theorem rPos : Statement .rPos := fun base h => read_inWindow _ base h
theorem rNodecnt : Statement .rNodecnt := fun base h => read_inWindow _ base h
theorem rNodeidx : Statement .rNodeidx := fun base h => read_inWindow _ base h
theorem rNodedat0 : Statement .rNodedat0 := fun base h => read_inWindow _ base h
theorem rNodedat1 : Statement .rNodedat1 := fun base h => read_inWindow _ base h

end Sys2Proof.Laws.EncodingInWindow
end

