-- ==== Sys2Proof/Laws/Records.lean ====
section
/-! SUPPORT. The reference functions bit by bit (40_bit_unpacker.md R90, R92, R93), walks that continue one another
(42_decode_automaton.md R147), and the host's loop of feeding bytes and reading the queue out (70_reset_and_hazards.md R243). -/

namespace Sys2Proof.Machine

/-- Bit `7 - k` of a packed byte. -/
theorem byteOfBits_bit (f : Nat → Bool) (k : Nat) (h : k < 8) : (byteOfBits f).getLsbD (7 - k) = f k := by
  have : k = 0 ∨ k = 1 ∨ k = 2 ∨ k = 3 ∨ k = 4 ∨ k = 5 ∨ k = 6 ∨ k = 7 := by omega
  simp only [byteOfBits, BitVec.getLsbD_setWidth, BitVec.getLsbD_or, getLsbD_flag]
  rcases this with h|h|h|h|h|h|h|h <;> subst h <;> simp

/-- Bit `k` that a byte gives. -/
theorem bitsOfByte_get (b : Byte) (n k : Nat) (hn : n ≤ 8) (hk : k < n) : (bitsOfByte b n)[k]? = some (b.getLsbD (7 - k)) := by
  simp only [bitsOfByte, List.getElem?_take, hk, if_true]
  have : k = 0 ∨ k = 1 ∨ k = 2 ∨ k = 3 ∨ k = 4 ∨ k = 5 ∨ k = 6 ∨ k = 7 := by omega
  rcases this with h|h|h|h|h|h|h|h <;> subst h <;> rfl

/-- The trailing count is 1 to 8. -/
theorem trail_le (l : Nat) : 1 ≤ trail l ∧ trail l ≤ 8 := by unfold trail; split <;> omega

/-- Unpacking gives as many bits as the length says, bit `k` from byte `k / 8`. -/
theorem unpack_get (bytes : List Byte) : ∀ l, bytes.length = ceil8 l → 
   (unpack bytes l (trail l)).length = l ∧ ∀ k, k < l → (unpack bytes l (trail l))[k]? = some ((bytes.getD (k / 8) 0#8).getLsbD (7 - k % 8)) := by
  induction bytes with
  | nil => intro l h; simp [ceil8] at h; have : l = 0 := by omega
           subst this; simp [unpack]
  | cons b rest ih =>
    intro l h
    simp only [List.length_cons, ceil8] at h
    cases rest with
    | nil =>
      simp at h
      have ht : trail l = l := by unfold trail; split <;> omega
      simp only [unpack, ht]
      refine ⟨by rw [length_bitsOfByte]; omega, fun k hk => ?_⟩
      rw [bitsOfByte_get b l k (by omega) hk]
      have h1 : k / 8 = 0 := by omega
      have h2 : k % 8 = k := by omega
      simp [h1, h2]
    | cons b2 rest =>
      have ht : trail (l - 8) = trail l := by
        simp at h; unfold trail; have : (l - 8) % 8 = l % 8 := by omega
        rw [this]
      simp only [unpack]
      have := ih (l - 8) (by simp at h ⊢; unfold ceil8; omega)
      rw [ht] at this
      obtain ⟨i1, i2⟩ := this
      refine ⟨by rw [List.length_append, length_bitsOfByte, i1]; simp at h; omega, fun k hk => ?_⟩
      by_cases h8 : k < 8
      · rw [List.getElem?_append_left (by rw [length_bitsOfByte]; omega), bitsOfByte_get b 8 k (by omega) h8]
        have h1 : k / 8 = 0 := by omega
        have h2 : k % 8 = k := by omega
        simp [h1, h2]
      · rw [List.getElem?_append_right (by rw [length_bitsOfByte]; omega), length_bitsOfByte]
        rw [i2 (k - min 8 8) (by omega)]
        have h1 : (k - min 8 8) / 8 + 1 = k / 8 := by omega
        have h2 : (k - min 8 8) % 8 = k % 8 := by omega
        rw [h2, ← h1, List.getD_cons_succ]

/-- The bit length is determined by the bytes and the trailing count. -/
theorem unpack_l (bytes : List Byte) (l l' t : Nat) : unpack bytes l t = unpack bytes l' t := by
  induction bytes generalizing l l' with
  | nil => rfl
  | cons b rest ih =>
    cases rest with
    | nil => rfl
    | cons c rest => simp only [unpack]; rw [ih (l - 8) (l' - 8)]

/-- A walk over two bit strings is the walks one after the other. -/
theorem walk_append (trie) (a b : List Bool) (p : NodeIdx) : walk trie p (a ++ b) =
   if (walk trie p a).absent then walk trie p a else
     { out := (walk trie p a).out ++ (walk trie (walk trie p a).pos b).out, stepped := (walk trie p a).stepped + (walk trie (walk trie p a).pos b).stepped,
       pos := (walk trie (walk trie p a).pos b).pos, absent := (walk trie (walk trie p a).pos b).absent } := by
  induction a generalizing p with
  | nil => simp [walk]
  | cons x rest ih =>
    simp only [List.cons_append, walk]
    split
    · simp
    · split
      · rw [ih]; simp only [Walk.before]; split <;> simp_all [Nat.add_right_comm]
      · rw [ih]; simp only [Walk.before]; split <;> simp_all [Nat.add_right_comm]

/-- A popped word shows VALID and the byte. -/
theorem field_bits (d : Byte) : (flag true 8 ||| field d 0).getLsbD 8 = true ∧ (flag true 8 ||| field d 0).extractLsb' 0 8 = d := by
  revert d; decide +kernel

/-- Reading DOUT often enough gives the whole queue, head first, and leaves it empty. -/
theorem drain_eq (n : Nat) (s : State) (h : s.outq.length < n) : drain n s = (s.outq, { s with outq := [], answer := .data 0#32 }) := by
  induction n generalizing s with
  | zero => omega
  | succ n ih =>
    unfold drain
    rcases doutRead_cases s with ⟨ho, e⟩ | ⟨d, rest, ho, e⟩
    · have : after .doutPop s = { s with answer := .data 0#32 } := by simp [after, exec, execDoutPop, e]
      simp [this, ho]
    · have : after .doutPop s = { s with outq := rest, answer := .data (flag true 8 ||| field d 0) } := by simp [after, exec, execDoutPop, e]
      simp only [this, (field_bits d).1, (field_bits d).2, if_true]
      rw [ih _ (by simp [ho] at h ⊢; omega)]
      simp [ho]

/-- Feeding a byte: its output, then that of the rest. -/
theorem feed_cons (din : Word → Instr) (v : Word) (rest : List Word) (s : State) (h : (after (din v) s).outq.length ≤ s.params.outqDepth) :
   feed din (v :: rest) s = ((after (din v) s).outq ++ (feed din rest { after (din v) s with outq := [], answer := .data 0#32 }).1, (feed din rest { after (din v) s with outq := [], answer := .data 0#32 }).2) := by
  simp only [feed]
  rw [drain_eq _ _ (by omega)]

end Sys2Proof.Machine
end

