-- ==== Sys2Proof/Laws/Trie.lean ====
section
/-! SUPPORT. The trie in the node memory: how an allocation grows it (41_tree_reconstructor.md R116, R118), what its paths are,
and which fields each part of the invariant depends on. -/

namespace Sys2Proof.Machine

/-- `s1` is `s` with node `n` allocated at index `c` and linked to WPOS's slot `bit`, nothing else of the trie changed. -/
structure Grown (s s1 : State) (bit : Bool) (c : NodeIdx) (n : Node) : Prop where
  cnt : s1.nodecnt.toNat = s.nodecnt.toNat + 1
  cidx : c.toNat = s.nodecnt.toNat
  node : ∀ i, s1.node i = if i = s.wpos then (s.node s.wpos).setChild bit c else if i = c then n else s.node i
  wneq : s.wpos ≠ c
  alloc : s.Allocated s.wpos

/-- Where there is room, allocating a node and linking it to WPOS's free slot grows the trie by that node. -/
theorem grown (s : State) (bit : Bool) (n : Node) (hp : s.params.Legal) (hm : MemoryOk s) (hw : s.Allocated s.wpos)
    (room : s.nodecnt.toNat ≠ s.params.nnodes) :
    Grown s ((s.allocated n).linkChild s.wpos bit s.nextNode) bit s.nextNode n := by
  have h1 : s.nodecnt.toNat < 65536 := by have := hm.countFits; unfold Params.Legal at hp; omega
  have h2 := nextNode_toNat s h1
  have h3 : s.wpos ≠ s.nextNode := by
    intro h; have := congrArg BitVec.toNat h; unfold State.Allocated at hw; omega
  exact ⟨nodecnt_add_one_toNat s h1, h2, fun i => node_allocChild s bit n i h3, h3, hw⟩

/-- The growth keeps the memory's part of the invariant. -/
theorem grown_memory (s : State) (bit : Bool) (n : Node) (hp : s.params.Legal) (hm : MemoryOk s) (hw : s.Allocated s.wpos)
    (room : s.nodecnt.toNat ≠ s.params.nnodes) : MemoryOk ((s.allocated n).linkChild s.wpos bit s.nextNode) := by
  have h1 : s.nodecnt.toNat < 65536 := by have := hm.countFits; unfold Params.Legal at hp; omega
  have h2 := nextNode_toNat s h1
  have h3 := nodecnt_add_one_toNat s h1
  have hc := hm.countFits
  refine ⟨linkChild_wf _ _ _ _ (allocated_wf _ _ hm.canonical), ?_, ?_, ?_⟩
  · intro i x h
    unfold State.Allocated at hw
    rcases Memory.mem_write h with h | h
    · simp; omega
    · rcases Memory.mem_write h with h | h
      · simp; omega
      · exact hm.inArena _ _ h
  · simp; omega
  · intro i h
    simp only [linkChild_nodes, Memory.read?_write]
    split
    · rfl
    · simp only [allocated_nodes, Memory.read?_write]
      split
      · rfl
      · apply hm.written; unfold State.Allocated at *; simp at h; omega

section
variable {s s1 : State} {bit : Bool} {c : NodeIdx} {n : Node} (g : Grown s s1 bit c n)
include g

/-- The new node is the only newly allocated one. -/
theorem Grown.allocated (i : NodeIdx) : s1.Allocated i ↔ s.Allocated i ∨ i = c := by
  unfold State.Allocated
  rw [g.cnt, ← g.cidx, ← BitVec.toNat_inj]; omega

/-- The new node was not allocated. -/
theorem Grown.notAlloc : ¬ s.Allocated c := by unfold State.Allocated; rw [g.cidx]; omega

/-- The new node is not the root. -/
theorem Grown.ne0 : c ≠ 0#16 := by
  intro h; have := g.alloc; have := g.cidx; unfold State.Allocated at *; rw [h] at this; simp at this; omega

theorem Grown.leaf (i : NodeIdx) : (s1.node i).leaf = if i = c then n.leaf else (s.node i).leaf := by
  rw [g.node]
  by_cases h : i = s.wpos
  · subst h; simp [g.wneq]
  · simp [h]; split <;> rfl

theorem Grown.sym (i : NodeIdx) : (s1.node i).sym = if i = c then n.sym else (s.node i).sym := by
  rw [g.node]
  by_cases h : i = s.wpos
  · subst h; simp [g.wneq]
  · simp [h]; split <;> rfl

/-- Every child field after the growth. -/
theorem Grown.child (hn : ∀ b, n.child b = 0#16) (i : NodeIdx) (b : Bool) :
    (s1.node i).child b = if i = s.wpos ∧ b = bit then c else if i = c then 0#16 else (s.node i).child b := by
  rw [g.node]
  by_cases h : i = s.wpos
  · subst h; simp [g.wneq, Node.child_setChild, eq_comm]
  · simp [h]; split
    · exact hn b
    · rfl
end

/-- A node without children, said for both slots at once. -/
theorem Node.childless (n : Node) : (∀ b, n.child b = 0#16) ↔ n.left = 0#16 ∧ n.right = 0#16 := by
  simp [Node.child]

/-- The growth keeps the trie's part of the invariant. -/
theorem grown_trie {s s1 bit c n} (g : Grown s s1 bit c n) (ht : TrieOk s) (hn : ∀ b, n.child b = 0#16) (hns : n.leaf = false → n.sym = 0#8)
   (hleaf : (s.node s.wpos).leaf = false) (habs : (s.node s.wpos).child bit = 0#16) : TrieOk s1 := by
  have h0 : 0 < s.nodecnt.toNat := by have := g.alloc; unfold State.Allocated at this; omega
  have hold : ∀ i b, s.Allocated i → (s.node i).child b ≠ 0#16 → (s.node i).child b ≠ c := by
    intro i b h1 h2 h3
    exact g.notAlloc (h3 ▸ (ht.childAllocated i b h1 h2).1)
  have hch : ∀ i b, s1.Allocated i → (s1.node i).child b ≠ 0#16 → (i = s.wpos ∧ b = bit ∧ (s1.node i).child b = c) ∨
      (s.Allocated i ∧ (s1.node i).child b = (s.node i).child b ∧ (s.node i).child b ≠ 0#16) := by
    intro i b h1 h2
    rw [g.child hn] at h2 ⊢
    split at h2
    · rename_i h; simp [h]
    · rename_i h; simp only [h, if_false]
      split at h2
      · simp at h2
      · rename_i h'; simp only [h', if_false]
        exact .inr ⟨by have := (g.allocated i).1 h1; tauto, by trivial, h2⟩
  refine ⟨?_, ?_, ?_, ?_, ?_, ?_⟩
  · intro _
    rw [g.leaf, if_neg (Ne.symm g.ne0)]; exact ht.rootInternal h0
  · intro i h1 h2
    rw [g.leaf] at h2
    rw [← Node.childless]
    intro b
    rw [g.child hn]
    split at h2
    · rename_i h; subst h; simp [Ne.symm g.wneq]
    · rename_i h
      have : i ≠ s.wpos := by rintro rfl; simp [hleaf] at h2
      simp only [this, h, false_and, if_false]
      exact (Node.childless _).2 (ht.leafChildless i (by have := (g.allocated i).1 h1; tauto) h2) b
  · intro i h1 h2
    rw [g.leaf] at h2; rw [g.sym]
    split at h2
    · rename_i h; simp [h, hns h2]
    · rename_i h; simp only [h, if_false]; exact ht.internalSymZero i (by have := (g.allocated i).1 h1; tauto) h2
  · intro i b h1 h2
    rcases hch i b h1 h2 with ⟨h3, h4, h5⟩ | ⟨h3, h4, h5⟩
    · rw [h5]; refine ⟨(g.allocated c).2 (.inr rfl), ?_⟩
      have := g.alloc; rw [h3, g.cidx]; exact this
    · rw [h4]
      have := ht.childAllocated i b h3 h5
      exact ⟨(g.allocated _).2 (.inl this.1), this.2⟩
  · intro i j b d h1 h2 h3 h4
    have h3' : (s1.node j).child d ≠ 0#16 := h4 ▸ h3
    rcases hch i b h1 h3 with ⟨e1, e2, e3⟩ | ⟨e1, e2, e3⟩ <;> rcases hch j d h2 h3' with ⟨f1, f2, f3⟩ | ⟨f1, f2, f3⟩
    · exact ⟨e1.trans f1.symm, e2.trans f2.symm⟩
    · exact absurd (by rw [← f2, ← h4, e3]) (hold j d f1 f3)
    · exact absurd (by rw [← e2, h4, f3]) (hold i b e1 e3)
    · exact ht.oneParent i j b d e1 f1 e3 (by rw [← e2, h4, f2])
  · intro k h1 h2
    by_cases hk : k = c
    · subst hk
      exact ⟨s.wpos, bit, (g.allocated _).2 (.inl g.alloc), by rw [g.child hn]; simp⟩
    · obtain ⟨i, b, h3, h4⟩ := ht.noOrphan k (by have := (g.allocated k).1 h1; tauto) h2
      refine ⟨i, b, (g.allocated _).2 (.inl h3), ?_⟩
      rw [g.child hn, if_neg, if_neg, h4]
      · rintro rfl; exact g.notAlloc h3
      · rintro ⟨rfl, rfl⟩; exact h2 (h4 ▸ habs)

/-- A path from an allocated node reaches allocated nodes only. -/
theorem follow_allocated {s : State} (ht : TrieOk s) {p i : NodeIdx} {w : List Bool} (hp : s.Allocated p)
    (h : s.follow p w = some i) : s.Allocated i := by
  induction w generalizing p with
  | nil => simp [State.follow] at h; exact h ▸ hp
  | cons b rest ih =>
    simp only [State.follow] at h
    split at h
    · cases h
    · exact ih (ht.childAllocated p b hp ‹_›).1 h

theorem follow_append (s : State) (p : NodeIdx) (w v : List Bool) :
    s.follow p (w ++ v) = (s.follow p w).bind (fun q => s.follow q v) := by
  induction w generalizing p with
  | nil => simp [State.follow]
  | cons b rest ih =>
    simp only [List.cons_append, State.follow]
    split
    · rfl
    · exact ih _

/-- The last link of a path. -/
theorem follow_snoc (s : State) (p i : NodeIdx) (w : List Bool) (b : Bool) :
    s.follow p (w ++ [b]) = some i ↔ ∃ q, s.follow p w = some q ∧ (s.node q).child b = i ∧ i ≠ 0#16 := by
  rw [follow_append]
  cases s.follow p w with
  | none => simp
  | some q =>
    simp only [Option.bind_some, State.follow]
    by_cases h : (s.node q).child b = 0#16
    · simp [h]; rintro rfl; simp
    · simp [h]; rintro rfl; exact h

/-- The paths after the growth: the old ones, and the one that ends on the new link. -/
theorem grown_follow {s s1 bit c n} (g : Grown s s1 bit c n) (ht : TrieOk s) (hn : ∀ b, n.child b = 0#16)
   (habs : (s.node s.wpos).child bit = 0#16)
   {p i : NodeIdx} {w : List Bool} (hp : s.Allocated p) :
   s1.follow p w = some i ↔ s.follow p w = some i ∨ (i = c ∧ ∃ w', w = w' ++ [bit] ∧ s.follow p w' = some s.wpos) := by
  induction w using List.reverseRecOn generalizing i with
  | nil => simp [State.follow]
  | append_singleton w b ih =>
    rw [follow_snoc, follow_snoc]
    constructor
    · rintro ⟨q, h1, h2, h3⟩
      rw [g.child hn] at h2
      rcases ih.1 h1 with h4 | ⟨h4, _⟩
      · split at h2
        · rename_i h; obtain ⟨rfl, rfl⟩ := h
          exact .inr ⟨h2.symm, w, rfl, h4⟩
        · have : q ≠ c := by rintro rfl; exact g.notAlloc (follow_allocated ht hp h4)
          rw [if_neg this] at h2
          exact .inl ⟨q, h4, h2, h3⟩
      · rw [h4] at h2; simp [Ne.symm g.wneq] at h2; exact absurd h2.symm h3
    · rintro (⟨q, h1, h2, h3⟩ | ⟨h1, w', h2, h3⟩)
      · refine ⟨q, ih.2 (.inl h1), ?_, h3⟩
        rw [g.child hn, if_neg, if_neg, h2]
        · rintro rfl; exact g.notAlloc (follow_allocated ht hp h1)
        · rintro ⟨rfl, rfl⟩; exact h3 (h2 ▸ habs)
      · obtain ⟨rfl, h2⟩ := List.append_inj' h2 rfl
        simp at h2; subst h2; subst h1
        refine ⟨s.wpos, ih.2 (.inl h3), ?_, g.ne0⟩
        rw [g.child hn]; simp

/-- Paths depend on the child fields of allocated nodes alone. -/
theorem follow_congr {s t : State} (ht : TrieOk s) (hc : ∀ i b, s.Allocated i → (t.node i).child b = (s.node i).child b)
  {p : NodeIdx} (hp : s.Allocated p) (w : List Bool) : t.follow p w = s.follow p w := by
  induction w generalizing p with
  | nil => rfl
  | cons b rest ih =>
    simp only [State.follow, hc p b hp]
    split
    · rfl
    · exact ih (ht.childAllocated p b hp ‹_›).1

/-- This part of the invariant depends on these fields. -/
theorem MemoryOk.of {s t : State} (h : MemoryOk s) (h1 : t.nodes = s.nodes) (h2 : t.nodecnt = s.nodecnt) (h3 : t.params = s.params) : MemoryOk t := by
  obtain ⟨a, b, c, d⟩ := h
  exact ⟨h1 ▸ a, by rw [h1, h3]; exact b, by rw [h2, h3]; exact c, by simpa [State.Allocated, h1, h2] using d⟩

/-- This part of the invariant depends on these fields. -/
theorem TrieOk.of {s t : State} (h : TrieOk s) (h1 : t.nodes = s.nodes) (h2 : t.nodecnt = s.nodecnt) : TrieOk t := by
  have hn : t.node = s.node := by funext i; simp [State.node, h1]
  have ha : t.Allocated = s.Allocated := by funext i; simp [State.Allocated, h2]
  obtain ⟨a, b, c, d, e, f⟩ := h
  exact ⟨by rw [hn, h2]; exact a, by rw [hn, ha]; exact b, by rw [hn, ha]; exact c, by rw [hn, ha]; exact d, by rw [hn, ha]; exact e, by rw [hn, ha]; exact f⟩

/-- Paths depend on the node memory alone. -/
theorem follow_eq {s t : State} (h1 : t.nodes = s.nodes) (p w) : t.follow p w = s.follow p w := by
  have hn : t.node = s.node := by funext i; simp [State.node, h1]
  induction w generalizing p with
  | nil => rfl
  | cons b rest ih => simp [State.follow, hn, ih]

/-- This part of the invariant depends on these fields. -/
theorem DepthOk.of {s t : State} (h : DepthOk s) (h1 : t.nodes = s.nodes) (h2 : t.nodecnt = s.nodecnt)
   (h3 : t.phase = .entry → s.phase = .entry ∧ t.wpos = s.wpos ∧ t.eLen = s.eLen ∧ t.eLeft = s.eLeft) : DepthOk t := by
  refine ⟨by rw [h2]; intro h4 w i; rw [follow_eq h1]; exact h.bounded h4 w i, ?_, ?_⟩
  · intro hp; obtain ⟨a, b, c, d⟩ := h3 hp
    obtain ⟨w, hw⟩ := h.walkReached a
    exact ⟨w, by rw [follow_eq h1, b, hw]⟩
  · intro hp w; obtain ⟨a, b, c, d⟩ := h3 hp
    rw [follow_eq h1, b, c, d]; exact h.walkDepth a w

/-- The root is on no path but the empty one. -/
theorem root_len {s : State} {w} (h : s.follow 0#16 w = some 0#16) : w = [] := by
  induction w using List.reverseRecOn with
  | nil => rfl
  | append_singleton w b _ => rw [follow_snoc] at h; obtain ⟨q, _, _, h⟩ := h; simp at h

theorem follow_of {s t : State} {p w r} (h : t.follow p w = r) (h1 : t.nodes = s.nodes) : s.follow p w = r := by
  rw [← follow_eq h1]; exact h

/-- A path is no longer than the index it reaches. -/
theorem follow_length {s : State} (ht : TrieOk s) {p i : NodeIdx} {w : List Bool} (hp : s.Allocated p)
    (h : s.follow p w = some i) : p.toNat + w.length ≤ i.toNat := by
  induction w generalizing p with
  | nil => simp [State.follow] at h; simp [h]
  | cons b rest ih =>
    simp only [State.follow] at h
    split at h
    · cases h
    · rename_i hc
      obtain ⟨ha, hlt⟩ := ht.childAllocated p b hp hc
      have := ih ha h
      simp only [List.length_cons]; omega

end Sys2Proof.Machine
end

