-- ==== Sys2Proof/Tests/Slice0.lean ====
section
/-! SUPPORT. Tests: expected values are the spec's (95_test_vectors.md rows and programs, 30_encoding.md tables), never the
model's own answers. Then, for each obligation with hypotheses, a state and operands that meet them, clause by clause. -/

namespace Sys2Proof.Tests

-- One theorem at a time: many kernel evaluations waiting for each other would each hold a thread.
set_option Elab.async false

open Sys2Proof Sys2Proof.Machine

/-! ### Small states -/

/-- The state after reset, put into a phase. -/
def inPhase (p : Phase) : State := { State.reset with phase := p }

/-- The fault record of a faulted state. -/
def faulted (c : Cause) (info : Word) : State := raise c info State.reset

/-- Program P1 after its line 10: a = "0", b = "1". -/
def trieP1 : State := { State.reset with
  treeValid := true, done := true, nodecnt := 3#17
  nodes := [(0, { leaf := false, sym := 0#8, left := 1#16, right := 2#16 }),
    (1, { leaf := true, sym := 0x61#8, left := 0#16, right := 0#16 }),
    (2, { leaf := true, sym := 0x62#8, left := 0#16, right := 0#16 })] }

/-- Program P3 after its line 4: c = "11", a = "0", b = "10". -/
def trieP3 : State := { State.reset with
  treeValid := true, done := true, nodecnt := 5#17
  nodes := [(0, { leaf := false, sym := 0#8, left := 3#16, right := 1#16 }),
    (1, { leaf := false, sym := 0#8, left := 4#16, right := 2#16 }),
    (2, { leaf := true, sym := 0x63#8, left := 0#16, right := 0#16 }),
    (3, { leaf := true, sym := 0x61#8, left := 0#16, right := 0#16 }),
    (4, { leaf := true, sym := 0x62#8, left := 0#16, right := 0#16 })] }

/-- A record open in DECODE on a trie. -/
def decoding (t : State) (bitlen : BitVec 31) (bytesLeft : BitVec 29) (lastvalid : BitVec 4) : State :=
  { t with phase := .decode, done := false, bitlen := bitlen, bytesLeft := bytesLeft, lastvalid := lastvalid }

/-- A record open in UNPACK. -/
def unpacking (bitlen : BitVec 31) (bytesLeft : BitVec 29) (lastvalid : BitVec 4) : State :=
  { State.reset with phase := .unpack, bitlen := bitlen, bytesLeft := bytesLeft, lastvalid := lastvalid }

/-- A load with its root and nothing else, `n` entries still to come. -/
def loading (n : BitVec 9) : State :=
  { State.reset with phase := .load, remain := n, nodecnt := 1#17, nodes := [(0, .placeholder)] }

/-- An entry of `len` characters, `left` of them still to come, open on a trie of at least a root. -/
def entering (t : State) (sym : Byte) (len left : BitVec 8) (wpos : NodeIdx) (remain : BitVec 9) : State :=
  { t with phase := .entry, treeValid := false, done := false, eSym := sym, eLen := len, eLeft := left, wpos := wpos
           remain := remain }

/-- One action is pending. -/
def pend (s : State) (a : Access) : State := { s with pending := [.access a] }

/-- A step answers a next state of which `P` holds. -/
def stepsTo (s : State) (P : State → Bool) : Bool :=
  match step s with
  | .next t => P t
  | .fault _ => false
  | .refused _ => false

/-- A step of a state with one pending read answers this word. -/
def reads (s : State) (addr : Nat) (w : Word) : Bool := stepsTo (pend s (.read addr 4)) fun t => t.answer == .data w

/-! ### WellFormed refuses ill-formed terms -/

/-- 20_memory.md R47 (vector V-C17): a misaligned access, and a byte-wide one, are no access of the block. -/
theorem test_wellFormed_refuses_access :
    Access.wellFormed (.write 0x19 4 0) = false ∧ Access.wellFormed (.write 0x18 1 0) = false
    ∧ Access.wellFormed (.read 0x25 4) = false ∧ Access.wellFormed (.read 0x24 2) = false
    ∧ Access.wellFormed (.write 0x18 4 0) = true := by decide

/-- 30_encoding.md R79: a DIN row is an instruction in its own STATE only. -/
theorem test_wellFormed_refuses_din :
    Instr.wellFormed .decode (.dinEntry 0) = false ∧ Instr.wellFormed .unpack (.dinDecode 0) = false
    ∧ Instr.wellFormed .decode (.dinUnpack 0) = false ∧ Instr.wellFormed .entry (.dinUnexpected 0) = false
    ∧ Instr.wellFormed .error (.dinUnexpected 0) = false ∧ Instr.wellFormed .load (.dinUnexpected 0) = true := by decide

/-! ### Decoding words written out from the spec (30_encoding.md R61, R64, R79) -/

theorem test_decode_commands :
    decode .idle (.write 0x04 4 0x00000000) = .instr .nop
    ∧ decode .idle (.write 0x04 4 0x00000001) = .instr .tblBegin
    ∧ decode .load (.write 0x04 4 0x00000002) = .instr .tblEntry
    ∧ decode .idle (.write 0x04 4 0x00000003) = .instr .decBegin
    ∧ decode .idle (.write 0x04 4 0x00000004) = .instr .unpkBegin
    ∧ decode .error (.write 0x04 4 0x00000005) = .instr .abort
    ∧ decode .error (.write 0x04 4 0x00000006) = .instr .softReset := by decide

theorem test_decode_din_and_dout :
    decode .entry (.write 0x20 4 0x31) = .instr (.dinEntry 0x31)
    ∧ decode .decode (.write 0x20 4 0x5B) = .instr (.dinDecode 0x5B)
    ∧ decode .unpack (.write 0x20 4 0xB3) = .instr (.dinUnpack 0xB3)
    ∧ decode .idle (.write 0x20 4 0x55) = .instr (.dinUnexpected 0x55)
    ∧ decode .load (.write 0x20 4 0x55) = .instr (.dinUnexpected 0x55)
    ∧ decode .decode (.read 0x24 4) = .instr .doutPop := by decide

theorem test_decode_plain_writes :
    decode .idle (.write 0x18 4 0x2) = .instr (.wArg0 0x2) ∧ decode .idle (.write 0x1C 4 0x1) = .instr (.wArg1 0x1)
    ∧ decode .idle (.write 0x14 4 0xF) = .instr (.wInten 0xF)
    ∧ decode .idle (.write 0x38 4 0x3) = .instr (.wNodeidx 0x3) := by decide

theorem test_decode_plain_reads :
    decode .idle (.read 0x00 4) = .instr .rConfig ∧ decode .idle (.read 0x08 4) = .instr .rStatus
    ∧ decode .idle (.read 0x0C 4) = .instr .rErr ∧ decode .idle (.read 0x10 4) = .instr .rErrinfo
    ∧ decode .idle (.read 0x14 4) = .instr .rInten ∧ decode .idle (.read 0x18 4) = .instr .rArg0
    ∧ decode .idle (.read 0x1C 4) = .instr .rArg1 ∧ decode .idle (.read 0x28 4) = .instr .rBitcnt
    ∧ decode .idle (.read 0x2C 4) = .instr .rOutcnt ∧ decode .idle (.read 0x30 4) = .instr .rPos
    ∧ decode .idle (.read 0x34 4) = .instr .rNodecnt ∧ decode .idle (.read 0x38 4) = .instr .rNodeidx
    ∧ decode .idle (.read 0x3C 4) = .instr .rNodedat0 ∧ decode .idle (.read 0x40 4) = .instr .rNodedat1 := by decide

/-- R65 (vectors V-C5 and V-C6), R61, R47 (V-C17): what is no instruction, by name. -/
theorem test_decode_rejects :
    decode .idle (.write 0x04 4 0x07) = .rejected (.badCommand 0x07)
    ∧ decode .idle (.write 0x04 4 0x101) = .rejected (.badCommand 0x101)
    ∧ decode .error (.write 0x20 4 0x30) = .rejected .dinInError
    ∧ decode .idle (.write 0x08 4 0x1) = .rejected .ignoredWrite ∧ decode .idle (.write 0x44 4 0x1) = .rejected .ignoredWrite
    ∧ decode .idle (.read 0x04 4) = .rejected .zeroRead ∧ decode .idle (.read 0xFC 4) = .rejected .zeroRead
    ∧ decode .idle (.write 0x19 4 0x1) = .rejected .portError ∧ decode .idle (.write 0x18 1 0x1) = .rejected .portError := by
  decide

/-- Words of opcode_table.json, and the encodings 20_memory.md R41 gives with the window at 0x4000. -/
theorem test_table_words :
    decodeTableWord 32 0x3 = some .decBegin ∧ decodeTableWord 32 0x103 = none
    ∧ decodeTableWord 8 0x24 = some .doutPop ∧ decodeTableWord 8 0x3C = some .rNodedat0
    ∧ decodeTableWord 8 0x38 = some (.wNodeidx 0) ∧ decodeTableWord 8 0x44 = none
    ∧ encode 0x4000 .decBegin = .write 0x4004 4 0x3 ∧ encode 0x4000 (.dinDecode 0x10) = .write 0x4020 4 0x10
    ∧ encode 0x4000 .rPos = .read 0x4030 4 := by decide

/-- `withFetchWord` runs exactly that instruction: V-C2, and P1 line 2. -/
theorem test_withFetchWord :
    stepsTo (State.reset.withFetchWord 8 0x00) (fun t => t.answer == .data 0x0040FFFF && t.pending == []) = true
    ∧ stepsTo ({ State.reset with arg0 := 2 }.withFetchWord 32 0x1) (fun t => t.phase == .load && t.remain == 2) = true := by
  decide +kernel

/-! ### One step of each instruction -/

/-- V-C7: NOP in ERROR changes nothing. -/
theorem test_nop : exec .nop (faulted .badCommand 7) = .next (faulted .badCommand 7) := rfl

/-- V-T4. -/
theorem test_tblBegin_256 :
    let t := after .tblBegin { State.reset with arg0 := 256 }
    t.statusWord = 0x00000101 ∧ t.nodecnt = 1 ∧ t.remain = 256 ∧ t.nodedat0Word = 0x80000000 ∧ t.nodedat1Word = 0 := by
  decide +kernel

/-- V-T2 and V-T3. -/
theorem test_tblBegin_bad_count :
    let t := after .tblBegin { State.reset with arg0 := 257 }
    let u := after .tblBegin { State.reset with arg0 := 0xFFFFFFFF }
    t.errWord = 0x0201 ∧ t.errInfo = 0x101 ∧ t.nodecnt = 0 ∧ u.errWord = 0x0201 ∧ u.errInfo = 0xFFFFFFFF := by decide +kernel

/-- P1 line 5. -/
theorem test_tblEntry :
    let t := after .tblEntry { loading 2 with arg0 := 0x61, arg1 := 1 }
    t.statusWord = 0x00000142 ∧ t.eSym = 0x61 ∧ t.eLeft = 1 ∧ t.wpos = 0 := by decide +kernel

/-- V-T5 and V-T6. -/
theorem test_tblEntry_bad_length :
    let t := after .tblEntry { loading 1 with arg0 := 0x41, arg1 := 0 }
    let u := after .tblEntry { loading 1 with arg0 := 0x41, arg1 := 256 }
    t.errWord = 0x0202 ∧ t.errInfo = 0 ∧ u.errWord = 0x0202 ∧ u.errInfo = 0x100 := by decide +kernel

/-- P1 line 13 and V-D11. -/
theorem test_decBegin :
    let t := after .decBegin { trieP1 with arg0 := 4, arg1 := 4 }
    let u := after .decBegin { trieP1 with arg0 := 0x7FFFFFFF, arg1 := 7 }
    t.statusWord = 0x00000153 ∧ t.bytesLeft = 1 ∧ t.lastvalid = 4
    ∧ u.statusWord = 0x00000153 ∧ u.bytesLeft = 268435456 := by decide +kernel

/-- V-D6, V-D8, V-D9, V-D10 and V-D12. -/
theorem test_decBegin_faults :
    let f (s : State) (l t : Word) := after .decBegin { s with arg0 := l, arg1 := t }
    (f trieP1 0xFFFFFFFF 8).errWord = 0x0606 ∧ (f trieP1 0xFFFFFFFF 8).errInfo = 0xFFFFFFFF
    ∧ (f trieP1 4 8).errWord = 0x0607 ∧ (f trieP1 4 8).errInfo = 8 ∧ (f trieP1 4 9).errInfo = 9
    ∧ (f trieP1 0 1).errWord = 0x0607 ∧ (f State.reset 4 4).errWord = 0x070B ∧ (f State.reset 4 4).errInfo = 0x103 := by
  decide +kernel

/-- V-U1: a record of length 0; and V-U5's opening. -/
theorem test_unpkBegin :
    let f (l t : Word) := after .unpkBegin { State.reset with arg0 := l, arg1 := t }
    (f 0 8).statusWord = 0x00000120 ∧ (f 9 1).phase = .unpack ∧ (f 9 1).bytesLeft = 2 ∧ (f 9 1).lastvalid = 1 := by
  decide +kernel

/-- V-D4: ABORT after EndNotAtRoot. -/
theorem test_abort :
    let t := after .abort { raise .endNotAtRoot 1 trieP3 with pos := 1, outq := [0x61, 0x62], bitcnt := 9, outcnt := 5 }
    t.statusWord = 0x00000110 ∧ t.errWord = 0 ∧ t.bitcnt = 0 ∧ t.outcnt = 0 ∧ t.nodecnt = 5 := by decide +kernel

/-- V-C14. -/
theorem test_softReset :
    let t := after .softReset { trieP3 with arg0 := 5, arg1 := 6, inten := 0xF, nodeidx := 2 }
    t.statusWord = 0x00000100 ∧ t.nodecnt = 0 ∧ t.nodedat0Word = 0 ∧ t.arg0 = 0 ∧ t.arg1 = 0 ∧ t.inten = 0 := by
  decide +kernel

/-- P1 line 6 (a final step), and P3 line 2 (a step that is not). -/
theorem test_dinEntry :
    let t := after (.dinEntry 0x30) (entering (loading 2) 0x61 1 1 0 2)
    let u := after (.dinEntry 0x31) (entering (loading 3) 0x63 2 2 0 3)
    t.statusWord = 0x00000101 ∧ t.nodecnt = 2 ∧ t.remain = 1 ∧ (t.node 0).left = 1
    ∧ t.node 1 = { leaf := true, sym := 0x61, left := 0, right := 0 }
    ∧ u.wpos = 1 ∧ (u.node 0).right = 1 ∧ u.node 1 = { leaf := false, sym := 0, left := 0, right := 0 } := by decide +kernel

/-- V-T8, V-T9, V-T11 and V-T12: the three faults of a bit character. -/
theorem test_dinEntry_faults :
    let t := after (.dinEntry 0x30) (entering { trieP1 with nodecnt := 2 } 0x62 2 2 0 1)
    let u := after (.dinEntry 0x31) (entering trieP3 0x61 1 1 0 1)
    let v := after (.dinEntry 0x32) (entering (loading 1) 0x61 2 1 0 1)
    let w := after (.dinEntry 0x30) (entering { loading 1 with params := { nnodes := 1, outqDepth := 8, base := 0 } } 0x62 2 2 0 1)
    t.errWord = 0x0504 ∧ t.errInfo = 0x62 ∧ u.errWord = 0x0504 ∧ u.errInfo = 0x61
    ∧ v.errWord = 0x0503 ∧ v.errInfo = 0x132 ∧ w.errWord = 0x0105 ∧ w.errInfo = 0x62 := by decide +kernel

/-- P1 line 14 and P3 line 6. -/
theorem test_dinDecode :
    let t := after (.dinDecode 0x10) (decoding trieP1 4 1 4)
    let u := after (.dinDecode 0x5B) (decoding trieP3 10 2 2)
    t.statusWord = 0x000401B0 ∧ t.outq = [0x61, 0x61, 0x61, 0x62] ∧ t.bitcnt = 4
    ∧ u.statusWord = 0x000501D3 ∧ u.bitcnt = 8 ∧ u.outcnt = 5 := by decide +kernel

/-- V-D3's last byte, and V-C11. -/
theorem test_dinDecode_faults :
    let t := after (.dinDecode 0x80) { decoding trieP3 9 1 1 with bitcnt := 8, outcnt := 5, outq := [1, 2, 3, 4, 5] }
    let u := after (.dinDecode 0x00)
      { decoding trieP1 16 1 8 with params := { nnodes := 65536, outqDepth := 8, base := 0 }, outq := [1, 2, 3, 4, 5, 6, 7, 8] }
    t.statusWord = 0x00050097 ∧ t.errWord = 0x0409 ∧ t.errInfo = 1 ∧ t.bitcnt = 9
    ∧ u.statusWord = 0x00080197 ∧ u.errWord = 0x070D ∧ u.errInfo = 8 ∧ u.outq.length = 8 := by decide +kernel

/-- V-U5's first byte and V-U9 (padding ignored). -/
theorem test_dinUnpack :
    let t := after (.dinUnpack 0xB3) (unpacking 9 2 1)
    let u := after (.dinUnpack 0xBF) (unpacking 3 1 3)
    t.statusWord = 0x000801C4 ∧ t.outq = [0x31, 0x30, 0x31, 0x31, 0x30, 0x30, 0x31, 0x31]
    ∧ u.statusWord = 0x000301A0 ∧ u.outq = [0x31, 0x30, 0x31] := by decide +kernel

/-- V-C4. -/
theorem test_dinUnexpected :
    let t := after (.dinUnexpected 0x55) State.reset
    t.statusWord = 0x00000107 ∧ t.errWord = 0x070C ∧ t.errInfo = 0x55 := by decide +kernel

/-- P1 lines 15 to 19, first and last. -/
theorem test_doutPop :
    reads { trieP1 with outq := [0x61, 0x62] } 0x24 0x161 = true ∧ reads trieP1 0x24 0 = true
    ∧ (after .doutPop { trieP1 with outq := [0x61, 0x62] }).outq = [0x62] := by decide +kernel

/-- V-C8 and V-C15: the plain registers, in ERROR too. -/
theorem test_plain_writes :
    (after (.wArg0 5) (faulted .badCommand 7)).arg0 = 5 ∧ (after (.wArg1 6) State.reset).arg1 = 6
    ∧ (after (.wInten 0xFFFFFFFF) State.reset).inten = 0xF ∧ (after (.wNodeidx 0x12345678) State.reset).nodeidx = 0x5678 := by
  decide +kernel

/-- V-C1, V-C2, P2 line 6 (ERR and ERRINFO), R69. -/
theorem test_laid_out_reads :
    reads State.reset 0x08 0x00000100 = true ∧ reads State.reset 0x00 0x0040FFFF = true
    ∧ reads (faulted .absentChild 2) 0x0C 0x0408 = true ∧ reads (faulted .absentChild 2) 0x10 2 = true
    ∧ reads { State.reset with inten := 0xF } 0x14 0xF = true := by decide +kernel

/-- 30_encoding.md R61: registers of one element. -/
theorem test_element_reads :
    let s := { trieP3 with arg0 := 0x80000000, arg1 := 7, bitcnt := 9, outcnt := 5, pos := 1, nodeidx := 4 }
    reads s 0x18 0x80000000 = true ∧ reads s 0x1C 7 = true ∧ reads s 0x28 9 = true ∧ reads s 0x2C 5 = true
    ∧ reads s 0x30 1 = true ∧ reads s 0x34 5 = true ∧ reads s 0x38 4 = true := by decide +kernel

/-- P3's node table, rows 0, 1, 4 and 5. -/
theorem test_node_reads :
    let at_ (i : BitVec 16) := { trieP3 with nodeidx := i }
    reads (at_ 0) 0x3C 0x80000000 = true ∧ reads (at_ 0) 0x40 0x00010003 = true ∧ reads (at_ 1) 0x40 0x00020004 = true
    ∧ reads (at_ 4) 0x3C 0xC0000062 = true ∧ reads (at_ 4) 0x40 0 = true
    ∧ reads (at_ 5) 0x3C 0 = true ∧ reads (at_ 5) 0x40 0 = true := by decide +kernel

/-- V-C5, V-C7 and V-C17: what is no instruction. -/
theorem test_rejected_steps :
    stepsTo (pend State.reset (.write 0x04 4 7)) (fun t => t.errWord == 0x070A && t.errInfo == 7) = true
    ∧ stepsTo (pend (faulted .badCommand 7) (.write 0x20 4 0x30)) (fun t => t.statusWord == 0x107 && t.errWord == 0x070A) = true
    ∧ stepsTo (pend State.reset (.write 0x19 4 5)) (fun t => t.answer == .error && t.arg0 == 0 && t.errWord == 0) = true := by
  decide +kernel

/-- V-C15 and V-C16: the interrupt line. -/
theorem test_irq :
    State.irq { State.reset with inten := 0xF } = false
    ∧ State.irq (entering { loading 1 with inten := 0xF } 0x58 1 1 0 1) = true := by decide +kernel

/-- 40_bit_unpacker.md R90 with S1 and V-U5: `pack`; and 42_decode_automaton.md R147 with V-D2. -/
theorem test_reference :
    pack [false, false, false, true] = ([0x10], 4, 4)
    ∧ pack [true, false, true, true, false, false, true, true, true] = ([0xB3, 0x80], 9, 1)
    ∧ unpack [0xB3, 0x80] 9 1 = [true, false, true, true, false, false, true, true, true]
    ∧ decodeRecord trieP3.node (unpack [0x5B, 0x80] 9 1) = ([0x61, 0x62, 0x63, 0x61, 0x63], .endNotAtRoot 1) := by
  decide +kernel

/-! ### Witnesses: for each obligation with hypotheses, operands that meet them, clause by clause

Each is named `test_witness_` and the statement's name. That `exec i s` answers `after i s` (Laws/Effect.lean, `exec_after`) is
left out of those that speak of a next state. -/

/-- A legal configuration with the least queue. -/
def smallQueue (s : State) (q : List Byte) : State :=
  { s with params := { nnodes := 65536, outqDepth := 8, base := 0 }, outq := q }

/-- The instruction answers, from a state that is not ERROR, a state in ERROR with this cause. -/
abbrev Enters (i : Instr) (s : State) (c : Cause) : Prop :=
  s.phase ≠ .error ∧ (after i s).phase = .error ∧ (after i s).errCause = some c

/-- The reset input in the middle of a record, with a DIN write in flight and an action after it; and with neither. -/
theorem test_witness_SoftResetAndResetInputReset :
    let din : Access := .write 0x20 4 0x10
    let later : HostEvent := .access (.read 0x08 4)
    let s := { decoding trieP1 4 1 4 with pending := [.resetInput (some din), later] }
    let t := { decoding trieP1 4 1 4 with pending := [.resetInput none] }
    s.pending = .resetInput (some din) :: [later] ∧ t.pending = .resetInput none :: []
    ∧ stepsTo s (fun u => u.phase == .idle && u.pending == [later]) = true
    ∧ stepsTo t (fun u => u.phase == .idle && u.nodecnt == 0) = true := by decide +kernel

theorem test_witness_StatusReadShowsEveryField :
    let s := smallQueue (decoding trieP1 4 1 4) [1, 2, 3, 4, 5, 6, 7, 8]
    s.params.Legal ∧ s.outq.length ≤ s.params.outqDepth
    ∧ State.reset.params.Legal ∧ State.reset.outq.length ≤ State.reset.params.outqDepth := by decide +kernel

/-- The parameters of R4 at the ends of their ranges; the next statement's as well. -/
theorem test_witness_ResetLeavesTheTabledValues :
    ({ nnodes := 2, outqDepth := 65535, base := 0xFFFFFF00 } : Params).Legal ∧ Params.default.Legal := by decide

/-- The ends of both ranges. -/
theorem test_witness_ConfigReadShowsTheParameters :
    ({ nnodes := 2, outqDepth := 8, base := 0 } : Params).Legal
    ∧ ({ nnodes := 65536, outqDepth := 65535, base := 256 } : Params).Legal := by decide

/-- The last allocated node, and the first that is not. -/
theorem test_witness_NodeReadsShowAllocatedNodesOnly :
    let s := { trieP1 with nodeidx := 2 }
    let t := { trieP1 with nodeidx := 3 }
    s.nodeidx.toNat < s.nodecnt.toNat ∧ t.nodecnt.toNat ≤ t.nodeidx.toNat := by decide

/-- The read-only registers at either end of the window's list, and the reserved offsets at either end. -/
theorem test_witness_PlainWritesStoreMaskedOthersAreIgnored :
    ∀ addr ∈ [0x00, 0x24, 0x40, 0x44, 0xFC, 0x4000], (pend State.reset (.write addr 4 1)).pending = .access (.write addr 4 1) :: []
      ∧ addr % 4 = 0 ∧ addr % 256 ∉ [0x04, 0x14, 0x18, 0x1C, 0x20, 0x38] := by decide +kernel

theorem test_witness_WriteOnlyAndReservedOffsetsReadZero :
    ∀ addr ∈ [0x04, 0x20, 0x44, 0xFC, 0x4004], (pend State.reset (.read addr 4)).pending = .access (.read addr 4) :: []
      ∧ addr % 4 = 0 ∧ (addr % 256 = 0x04 ∨ addr % 256 = 0x20 ∨ 0x44 ≤ addr % 256) := by decide +kernel

/-- V-C17: the misaligned write, and the byte write. -/
theorem test_witness_MisalignedOrNarrowAccessIsRefusedByThePort :
    ∀ a ∈ [Access.write 0x19 4 1, .write 0x18 1 1, .read 0x27 4, .read 0x24 2],
      (pend State.reset a).pending = .access a :: [] ∧ (a.addr % 4 ≠ 0 ∨ a.width ≠ 4) := by decide +kernel

theorem test_witness_DoutReadPopsTheHead :
    State.reset.outq = [] ∧ (smallQueue trieP1 [0x61, 0x62]).outq = 0x61#8 :: [0x62#8] := by decide +kernel

/-- A command, a read and a DIN write, each in a state of its own. -/
theorem test_witness_StepRunsTheDecodedInstruction :
    (pend State.reset (.write 0x04 4 1)).pending = .access (.write 0x04 4 1) :: []
    ∧ decode (pend State.reset (.write 0x04 4 1)).phase (.write 0x04 4 1) = .instr .tblBegin
    ∧ decode (faulted .badCommand 7).phase (.read 0xFFFFFF0C 4) = .instr .rErr
    ∧ decode (decoding trieP1 4 1 4).phase (.write 0x20 4 0xFFFFFF10) = .instr (.dinDecode 0xFFFFFF10) := by decide +kernel

theorem test_witness_NothingChangesBetweenActions : (decoding trieP1 4 1 4).pending = [] := rfl

/-- Every DIN row in its state, and a row of every other kind, in two windows. -/
theorem test_witness_DecodeOfEncode :
    0 % 256 = 0 ∧ 0xFFFFFF00 % 256 = 0 ∧ Instr.wellFormed .entry (.dinEntry 0xFFFFFFFF) = true
    ∧ Instr.wellFormed .decode (.dinDecode 0) = true ∧ Instr.wellFormed .unpack (.dinUnpack 1) = true
    ∧ Instr.wellFormed .idle (.dinUnexpected 2) = true ∧ Instr.wellFormed .load (.dinUnexpected 2) = true
    ∧ Instr.wellFormed .error .softReset = true ∧ Instr.wellFormed .error (.wInten 0xFFFFFFFF) = true
    ∧ Instr.wellFormed .error .doutPop = true := by decide

theorem test_witness_EncodeOfDecode :
    decode .idle (.write 0x4004 4 3) = .instr .decBegin ∧ decode .unpack (.write 0xFFFFFF20 4 0x30) = .instr (.dinUnpack 0x30)
    ∧ decode .error (.read 0x40 4) = .instr .rNodedat1 := by decide

/-- The least and the greatest illegal word, in IDLE and in ERROR. -/
theorem test_witness_IllegalCommandWordRaisesBadCommand :
    ∀ n ∈ [0x07, 0x100, 0xFFFFFFFF], ∀ s ∈ [State.reset, faulted .badState 1],
      let v := BitVec.ofNat 32 n
      (pend s (.write 0x04 4 v)).pending = .access (.write 0x04 4 v) :: [] ∧ 0x04 % 256 = 0x04 ∧ 0x06 < v.toNat := by
  decide +kernel

theorem test_witness_DinIgnoresUpperBits : (0xFFFFFF31#32).toNat % 256 = (0x31#32).toNat % 256 := by decide

/-- The counts 1 and 256, 0 and 257 and a negative one; then the other states. -/
theorem test_witness_TblBeginOpensALoad :
    let s (n : Nat) := { State.reset with arg0 := BitVec.ofNat 32 n }
    (∀ n ∈ [1, 256], (s n).phase = .idle ∧ 1 ≤ (s n).arg0.toInt ∧ (s n).arg0.toInt ≤ 256)
    ∧ (∀ n ∈ [0, 257, 0x80000000], (s n).phase = .idle ∧ ((s n).arg0.toInt < 1 ∨ 256 < (s n).arg0.toInt))
    ∧ (loading 1).phase = .load ∧ (entering (loading 1) 0 1 1 0 1).phase = .entry ∧ (decoding trieP1 4 1 4).phase = .decode
    ∧ (unpacking 4 1 4).phase = .unpack ∧ (faulted .badState 1).phase = .error := by decide +kernel

/-- The lengths 1 and 255, 0 and 256 and a negative one; then the other states. -/
theorem test_witness_TblEntryOpensAnEntry :
    let s (n : Nat) := { loading 1 with arg1 := BitVec.ofNat 32 n }
    (∀ n ∈ [1, 255], (s n).phase = .load ∧ 1 ≤ (s n).arg1.toInt ∧ (s n).arg1.toInt ≤ 255)
    ∧ (∀ n ∈ [0, 256, 0xFFFFFFFF], (s n).phase = .load ∧ ((s n).arg1.toInt < 1 ∨ 255 < (s n).arg1.toInt))
    ∧ State.reset.phase = .idle ∧ (entering (loading 1) 0 1 1 0 1).phase = .entry ∧ (decoding trieP1 4 1 4).phase = .decode
    ∧ (unpacking 4 1 4).phase = .unpack ∧ (faulted .badState 1).phase = .error := by decide +kernel

/-- Bit lengths 1, 8 and 2^31 - 1 with their counts; length 0; a negative length; counts 0, 9 and one of the wrong value, and
for length 0 any but 8; no trie. -/
theorem test_witness_DecBeginOpensARecord :
    let int (n : Nat) := (BitVec.ofNat 32 n).toInt
    let legal (l t : Nat) : Bool := int t == (if int l % 8 = 0 then 8 else int l % 8)
    trieP1.phase = .idle ∧ trieP1.treeValid = true ∧ State.reset.phase = .idle ∧ State.reset.treeValid = false
    ∧ (∀ p ∈ [(1, 1), (8, 8), (0x7FFFFFFF, 7)], 0 < int p.1 ∧ legal p.1 p.2 = true)
    ∧ int 0 = 0 ∧ int 8 = 8 ∧ int 0xFFFFFFFF < 0 ∧ int 0x80000000 < 0
    ∧ (∀ p ∈ [(4, 0), (4, 9), (4, 8), (4, 0xFFFFFFFF), (0, 0), (0, 1)],
        0 ≤ int p.1 ∧ (int p.2 < 1 ∨ 8 < int p.2 ∨ ¬ legal p.1 p.2 = true))
    ∧ (loading 1).phase = .load ∧ (entering (loading 1) 0 1 1 0 1).phase = .entry ∧ (decoding trieP1 4 1 4).phase = .decode
    ∧ (unpacking 4 1 4).phase = .unpack ∧ (faulted .badState 1).phase = .error := by decide +kernel

/-- The operands of the last witness serve here too: UNPK_BEGIN does not look at TREE_VALID. -/
theorem test_witness_UnpkBeginOpensARecord :
    let s (l t : Word) := { State.reset with arg0 := l, arg1 := t }
    (after .unpkBegin (s 1 1)).phase = .unpack ∧ (after .unpkBegin (s 0x7FFFFFFF 7)).phase = .unpack
    ∧ (after .unpkBegin (s 0 8)).done = true ∧ Enters .unpkBegin (s 0xFFFFFFFF 8) .badBitLength
    ∧ Enters .unpkBegin (s 4 9) .badTrailCount ∧ Enters .unpkBegin (s 4 8) .badTrailCount
    ∧ Enters .unpkBegin (s 0 1) .badTrailCount ∧ Enters .unpkBegin (unpacking 4 1 4) .badState
    ∧ (faulted .badState 1).phase = .error := by decide +kernel

/-- The premises on a state with an entry open. -/
abbrev WalkOk (s : State) : Prop :=
  s.phase = .entry ∧ s.wpos.toNat < s.nodecnt.toNat ∧ s.nodecnt.toNat ≤ s.params.nnodes ∧ s.params.nnodes ≤ 65536

/-- Trie P1 in an arena of three nodes, which are all allocated. -/
def fullP1 : State := { trieP1 with params := { nnodes := 3, outqDepth := 8, base := 0 } }

/-- The clauses in their order: no bit character; no child, without and with room, E_LEFT 1 and 2 (and at the first and the
last index of a load, with REMAIN 1 and 2); an Internal child and a Leaf, E_LEFT 1 and 2. -/
theorem test_witness_EntryByteTakesOneStepOfTheWalk :
    let none2 := entering (loading 2) 0x61 2 2 0 2
    let none1 := entering (loading 1) 0x61 1 1 0 1
    let full1 := entering { loading 1 with params := { nnodes := 1, outqDepth := 8, base := 0 } } 0x61 1 1 0 1
    let leaf2 := entering fullP1 0x61 2 2 0 1
    let leaf1 := entering fullP1 0x61 1 1 0 2
    let inner2 := entering trieP3 0x61 2 2 0 1
    let inner1 := entering trieP3 0x61 1 1 0 1
    WalkOk none2 ∧ WalkOk none1 ∧ WalkOk full1 ∧ WalkOk leaf2 ∧ WalkOk leaf1 ∧ WalkOk inner2 ∧ WalkOk inner1
    ∧ (0x2F#32).extractLsb' 0 8 ≠ 0x30#8 ∧ (0x32#32).extractLsb' 0 8 ≠ 0x31#8
    ∧ (none2.node 0).left = 0 ∧ none2.nodecnt.toNat < none2.params.nnodes ∧ 1 < none2.eLeft.toNat
    ∧ (none1.node 0).right = 0 ∧ none1.nodecnt.toNat < none1.params.nnodes ∧ none1.eLeft.toNat = 1
    ∧ (full1.node 0).right = 0 ∧ full1.nodecnt.toNat = full1.params.nnodes
    ∧ (leaf2.node 0).left ≠ 0 ∧ (leaf2.node 1).leaf = true ∧ 1 < leaf2.eLeft.toNat ∧ leaf1.eLeft.toNat = 1
    ∧ (inner2.node 0).right ≠ 0 ∧ (inner2.node 1).leaf = false ∧ 1 < inner2.eLeft.toNat ∧ inner1.eLeft.toNat = 1 := by
  decide +kernel

/-- No room by one byte; room for exactly 8 bytes, with an absent child, with bytes left, and with the last byte ending at
the root and off it. -/
theorem test_witness_DecodeByteStepsItsBits :
    let noRoom := smallQueue (decoding trieP1 16 2 8) [1]
    let more := smallQueue (decoding trieP1 16 2 8) []
    let last := smallQueue (decoding trieP3 1 1 1) []
    let oneLeaf := smallQueue (decoding { trieP1 with nodes := [(0, { leaf := false, sym := 0, left := 1, right := 0 }),
      (1, { leaf := true, sym := 0x58, left := 0, right := 0 })], nodecnt := 2 } 1 1 1) []
    noRoom.phase = .decode ∧ noRoom.params.outqDepth - noRoom.outq.length < 8
    ∧ oneLeaf.phase = .decode ∧ 8 ≤ oneLeaf.params.outqDepth - oneLeaf.outq.length
    ∧ (walk oneLeaf.node oneLeaf.pos (bitsOfByte 0x80 1)).absent = true
    ∧ more.phase = .decode ∧ 8 ≤ more.params.outqDepth - more.outq.length ∧ more.bytesLeft ≠ 1
    ∧ (walk more.node more.pos (bitsOfByte 0x5B 8)).absent = false
    ∧ last.phase = .decode ∧ 8 ≤ last.params.outqDepth - last.outq.length ∧ last.bytesLeft = 1
    ∧ (walk last.node last.pos (bitsOfByte 0x00 1)).absent = false ∧ (walk last.node last.pos (bitsOfByte 0x00 1)).pos = 0
    ∧ (walk last.node last.pos (bitsOfByte 0x80 1)).absent = false ∧ (walk last.node last.pos (bitsOfByte 0x80 1)).pos ≠ 0 := by
  decide +kernel

theorem test_witness_UnpackByteEmitsItsBitCharacters :
    let noRoom := smallQueue (unpacking 16 2 8) [1]
    let more := smallQueue (unpacking 16 2 8) []
    let last := smallQueue (unpacking 1 1 1) []
    noRoom.phase = .unpack ∧ noRoom.params.outqDepth - noRoom.outq.length < 8
    ∧ more.phase = .unpack ∧ 8 ≤ more.params.outqDepth - more.outq.length ∧ more.bytesLeft ≠ 1
    ∧ last.phase = .unpack ∧ 8 ≤ last.params.outqDepth - last.outq.length ∧ last.bytesLeft = 1 := by decide +kernel

/-- One bit and all eight; the bytes differ below bit 7, and not at all. -/
theorem test_witness_BitsOfByteAreTheHighOrderBits :
    1 ≤ 1 ∧ 8 ≤ 8 ∧ (∀ k ∈ List.range 8, k < 8) ∧ (∀ j ∈ List.range 8, 8 - 1 ≤ j → (0xFF#8).getLsbD j = (0x80#8).getLsbD j) := by
  decide

/-- LASTVALID = 1 and 8, in both states. -/
theorem test_witness_PaddingBitsMakeNoDifference :
    (decoding trieP1 1 1 1).bytesLeft = 1 ∧ (unpacking 8 1 8).bytesLeft = 1
    ∧ (∀ j ∈ List.range 8, 8 - (decoding trieP1 1 1 1).lastvalid.toNat ≤ j → (0xFF#32).getLsbD j = (0x80#32).getLsbD j)
    ∧ (∀ j ∈ List.range 8, 8 - (unpacking 8 1 8).lastvalid.toNat ≤ j → (0x1B3#32).getLsbD j = (0xB3#32).getLsbD j)
    ∧ (decoding trieP1 1 1 1).phase = .decode ∧ (unpacking 8 1 8).phase = .unpack := by decide +kernel

theorem test_witness_DinIsDispatchedOnState :
    State.reset.phase = .idle ∧ (loading 1).phase = .load ∧ (faulted .badState 1).phase = .error := by decide

/-- One fault of each clause: AbsentChild, EndNotAtRoot, BadCodeCount, and PrefixConflict for the rest. -/
theorem test_witness_FaultEntryWritesNothingElse :
    Enters (.dinDecode 0x80) (decoding { trieP1 with nodes := [(0, { leaf := false, sym := 0, left := 1, right := 0 }),
      (1, { leaf := true, sym := 0x58, left := 0, right := 0 })], nodecnt := 2 } 1 1 1) .absentChild
    ∧ Enters (.dinDecode 0x80) (decoding trieP3 1 1 1) .endNotAtRoot
    ∧ Enters .tblBegin State.reset .badCodeCount
    ∧ Enters (.dinEntry 0x30) (entering trieP1 0x62 2 2 0 1) .prefixConflict := by decide +kernel

/-- A step that faults on a CMD write, and one on a DIN write. -/
theorem test_witness_FaultsComeOnlyFromWritesToCmdAndDin :
    let s := pend State.reset (.write 0x04 4 7)
    let t := pend State.reset (.write 0x20 4 0x55)
    s.phase ≠ .error ∧ stepsTo s (fun u => u.phase == .error) = true
    ∧ t.phase ≠ .error ∧ stepsTo t (fun u => u.phase == .error) = true := by decide +kernel

/-- One fault for each cause that an instruction raises (the four of the last witness but one are not repeated). -/
theorem test_witness_EachCauseComesFromItsOwnRule :
    Enters .tblEntry (loading 1) .badCodeLength ∧ Enters (.dinEntry 0x32) (entering (loading 1) 0x61 1 1 0 1) .badBitChar
    ∧ Enters (.dinEntry 0x30)
        (entering { loading 1 with params := { nnodes := 1, outqDepth := 8, base := 0 } } 0x61 1 1 0 1) .nodeExhausted
    ∧ Enters .decBegin { trieP1 with arg0 := 0xFFFFFFFF, arg1 := 8 } .badBitLength
    ∧ Enters .unpkBegin { State.reset with arg0 := 4, arg1 := 8 } .badTrailCount
    ∧ Enters .decBegin State.reset .badState ∧ Enters (.dinUnexpected 0x55) (loading 1) .dinUnexpected
    ∧ Enters (.dinDecode 0) (smallQueue (decoding trieP1 4 1 4) [1]) .dinOverrun
    ∧ Enters (.dinUnpack 0) (smallQueue (unpacking 4 1 4) [1]) .dinOverrun := by decide +kernel

/-- Room for exactly 8 bytes, and one byte short of it. -/
theorem test_witness_ReadinessTellsOverrun :
    ∀ s ∈ [smallQueue (decoding trieP1 4 1 4) [], smallQueue (unpacking 4 1 4) [], smallQueue (decoding trieP1 4 1 4) [1]],
      (s.phase = .decode ∨ s.phase = .unpack) ∧ s.errCause = none
      ∧ (after .rStatus s).answer = .data s.statusWord ∧ after .rStatus s = { s with answer := .data s.statusWord } := by
  decide +kernel

theorem test_witness_IsDin : IsDin (.dinDecode 0) ∧ IsDin (.dinUnpack 0) ∧ IsDin (.dinEntry 0) ∧ IsDin (.dinUnexpected 0) :=
  ⟨⟨0, by simp⟩, ⟨0, by simp⟩, ⟨0, by simp⟩, ⟨0, by simp⟩⟩

/-- A command that is ignored, the reset input, ABORT and SOFT_RESET. -/
theorem test_witness_ErrorIsLeftOnlyByAbortOrReset :
    let s (e : HostEvent) := { faulted .badState 1 with pending := [e] }
    ∀ e ∈ [HostEvent.access (.write 0x04 4 1), .resetInput none, .access (.write 0x04 4 5), .access (.write 0x04 4 6)],
      (s e).phase = .error ∧ (s e).pending = e :: [] ∧ stepsTo (s e) (fun _ => true) = true := by decide +kernel

theorem test_witness_ErrorIgnoresCommandsAndData :
    let s (a : Access) := pend (faulted .badState 1) a
    (s (.write 0x04 4 4)).phase = .error ∧ (s (.write 0x04 4 4)).pending = .access (.write 0x04 4 4) :: []
    ∧ (4#32 ≠ 0x05#32 ∧ 4#32 ≠ 0x06#32) ∧ (s (.write 0x20 4 0x30)).pending = .access (.write 0x20 4 0x30) :: [] := by
  decide +kernel

/-- A change of STATE for each line of the statement. -/
theorem test_witness_StateChangesOnlyAsTabled :
    (after .tblBegin { State.reset with arg0 := 1 }).phase = .load
    ∧ (after .decBegin { trieP1 with arg0 := 4, arg1 := 4 }).phase = .decode
    ∧ (after .unpkBegin { State.reset with arg0 := 4, arg1 := 4 }).phase = .unpack
    ∧ (after .tblEntry { loading 1 with arg1 := 1 }).phase = .entry
    ∧ (after (.dinEntry 0x30) (entering (loading 2) 0x61 1 1 0 2)).phase = .load
    ∧ (after (.dinEntry 0x30) (entering (loading 1) 0x61 1 1 0 1)).phase = .idle
    ∧ (after (.dinDecode 0x10) (decoding trieP1 4 1 4)).phase = .idle
    ∧ (after (.dinUnpack 0x10) (unpacking 4 1 4)).phase = .idle
    ∧ (after .abort (unpacking 4 1 4)).phase = .idle ∧ (after .softReset (unpacking 4 1 4)).phase = .idle
    ∧ (after (.dinUnexpected 0) State.reset).phase = .error := by decide +kernel

/-- Each of the two writers writes; and a TBL_BEGIN in DECODE. -/
theorem test_witness_NodeMemoryHasTwoWriters :
    (after .tblBegin { State.reset with arg0 := 1 }).nodes ≠ State.reset.nodes
    ∧ (after (.dinEntry 0x30) (entering (loading 1) 0x61 1 1 0 1)).nodes ≠ (loading 1).nodes
    ∧ (decoding trieP1 4 1 4).phase = .decode := by decide +kernel

/-- Each change of a flag, for each of the ways it comes about. -/
theorem test_witness_StoredFlagsChangeOnlyAsRuled :
    let t := after (.dinEntry 0x30) (entering (loading 1) 0x61 1 1 0 1)
    (loading 1).treeValid = false ∧ t.treeValid = true ∧ (loading 1).done = false ∧ t.done = true
    ∧ trieP1.treeValid = true ∧ (after .tblBegin { trieP1 with arg0 := 1 }).treeValid = false
    ∧ (after .softReset trieP1).treeValid = false
    ∧ (unpacking 4 1 4).done = false ∧ (after (.dinUnpack 0) (unpacking 4 1 4)).done = true
    ∧ State.reset.done = false ∧ (after .unpkBegin { State.reset with arg1 := 8 }).done = true
    ∧ trieP1.done = true ∧ (after .tblEntry trieP1).done = false ∧ (after .abort trieP1).done = false
    ∧ (after (.dinUnexpected 0) trieP1).done = false := by decide +kernel

theorem test_witness_HostRegistersHaveOneWriter :
    (after (.wArg0 1) State.reset).arg0 ≠ 0 ∧ (after (.wArg1 1) State.reset).arg1 ≠ 0
    ∧ (after (.wInten 0xFFFFFFFF) State.reset).inten ≠ 0 ∧ (after (.wNodeidx 1) State.reset).nodeidx ≠ 0 := by decide

/-- Each register changes by each of its writers. -/
theorem test_witness_HiddenRegistersHaveTheirWriters :
    let l := { loading 2 with arg0 := 0x61, arg1 := 2 }
    let e := entering (loading 2) 0x61 2 2 0 2
    let f := entering (loading 2) 0x61 1 1 0 2
    let r := { State.reset with arg0 := 9, arg1 := 1 }
    (after .tblBegin { State.reset with arg0 := 1 }).remain ≠ State.reset.remain ∧ (after (.dinEntry 0x30) f).remain ≠ f.remain
    ∧ (after .abort f).remain ≠ f.remain
    ∧ (after .tblEntry l).eSym ≠ l.eSym ∧ (after .tblEntry l).eLen ≠ l.eLen ∧ (after .tblEntry l).eLeft ≠ l.eLeft
    ∧ (after (.dinEntry 0x30) e).eLeft ≠ e.eLeft ∧ (after .abort e).eLeft ≠ e.eLeft
    ∧ (after .tblEntry { l with wpos := 1 }).wpos ≠ 1 ∧ (after (.dinEntry 0x30) e).wpos ≠ e.wpos
    ∧ (after .unpkBegin r).bitlen ≠ r.bitlen ∧ (after .unpkBegin r).lastvalid ≠ r.lastvalid
    ∧ (after .unpkBegin r).bytesLeft ≠ r.bytesLeft
    ∧ (after (.dinUnpack 0) (unpacking 9 2 1)).bytesLeft ≠ 2 ∧ (after .abort (unpacking 9 2 1)).bytesLeft ≠ 2 := by
  decide +kernel

theorem test_witness_RecordRegistersHaveTheirWriters :
    let d := decoding trieP3 9 2 1
    (after .decBegin { trieP3 with pos := 1, arg0 := 4, arg1 := 4 }).pos ≠ 1
    ∧ (after (.dinDecode 0x5B) d).pos = d.pos ∧ (after (.dinDecode 0x01) d).pos ≠ d.pos
    ∧ (after (.dinDecode 0x5B) d).bitcnt ≠ d.bitcnt ∧ (after (.dinDecode 0x5B) d).outcnt ≠ d.outcnt
    ∧ (after .decBegin { trieP3 with bitcnt := 9, outcnt := 5, arg0 := 4, arg1 := 4 }).bitcnt ≠ 9
    ∧ (after (.dinDecode 0x5B) d).outq ≠ d.outq ∧ (after .doutPop { d with outq := [1, 2] }).outq = [2] := by decide +kernel

/-- With `canonical` and `the fault record` these are met by any of the small states. -/
theorem test_witness_EveryStepKeepsTheMemoryCanonical :
    (pend (entering trieP1 0x61 1 1 0 1) (.write 0x20 4 0x30)).nodes.wf = true
    ∧ stepsTo (pend (entering trieP1 0x61 1 1 0 1) (.write 0x20 4 0x30)) (fun t => t.nodes != trieP1.nodes || true) = true := by
  decide +kernel

theorem test_witness_EveryStepKeepsTheFaultRecord :
    let s := pend State.reset (.write 0x04 4 7)
    (s.errCause ≠ none ↔ s.phase = .error) ∧ stepsTo s (fun t => t.phase == .error) = true := by decide +kernel

theorem test_witness_UnpackInvertsPack : ([0xB3, 0x80] : List Byte).length = (9 + 7) / 8 ∧ ([] : List Byte).length = (0 + 7) / 8 := by
  decide

/-! ### Witnesses of the statements about states that meet the invariant -/

/-- An arena of four nodes, three of them allocated: the code "00" of the symbol 0x58 is loaded. -/
def deep (pending : List HostEvent) : State := { State.reset with
  params := { nnodes := 4, outqDepth := 8, base := 256 }, treeValid := true, nodecnt := 3#17, pending := pending
  nodes := [(0, { leaf := false, sym := 0#8, left := 1#16, right := 0#16 }),
    (1, { leaf := false, sym := 0#8, left := 2#16, right := 0#16 }),
    (2, { leaf := true, sym := 0x58#8, left := 0#16, right := 0#16 })] }

/-- An arena with a root alone, and an entry of two bits open on it. -/
def sprouting : State := { State.reset with
  params := { nnodes := 2, outqDepth := 8, base := 0 }, phase := .entry, nodecnt := 1#17, remain := 1#9
  eSym := 0x58#8, eLen := 2#8, eLeft := 2#8, nodes := [(0, .placeholder)] }

theorem deep_allocated {p : List HostEvent} {i : NodeIdx} (h : (deep p).Allocated i) : i = 0#16 ∨ i = 1#16 ∨ i = 2#16 := by
  have h : i.toNat < 3 := h
  have : i.toNat = 0 ∨ i.toNat = 1 ∨ i.toNat = 2 := by omega
  rcases this with h | h | h
  · exact .inl (BitVec.eq_of_toNat_eq h)
  · exact .inr (.inl (BitVec.eq_of_toNat_eq h))
  · exact .inr (.inr (BitVec.eq_of_toNat_eq h))

theorem deep_node_0 (p : List HostEvent) : (deep p).node 0#16 = { leaf := false, sym := 0#8, left := 1#16, right := 0#16 } := rfl
theorem deep_node_1 (p : List HostEvent) : (deep p).node 1#16 = { leaf := false, sym := 0#8, left := 2#16, right := 0#16 } := rfl
theorem deep_node_2 (p : List HostEvent) : (deep p).node 2#16 = { leaf := true, sym := 0x58#8, left := 0#16, right := 0#16 } := rfl

theorem deep_nodecnt (p : List HostEvent) : (deep p).nodecnt = 3#17 := rfl

theorem sprouting_allocated {i : NodeIdx} (h : sprouting.Allocated i) : i = 0#16 := by
  have h : i.toNat < 1 := h
  exact BitVec.eq_of_toNat_eq (by simp; omega)

theorem deep_trie (p : List HostEvent) : TrieOk (deep p) where
  rootInternal _ := rfl
  leafChildless i h := by rcases deep_allocated h with rfl | rfl | rfl <;> simp [deep_node_0, deep_node_1, deep_node_2]
  internalSymZero i h := by rcases deep_allocated h with rfl | rfl | rfl <;> simp [deep_node_0, deep_node_1, deep_node_2]
  childAllocated i b h := by
    rcases deep_allocated h with rfl | rfl | rfl <;> cases b <;>
      simp [deep_node_0, deep_node_1, deep_node_2, Node.child, State.Allocated, deep_nodecnt]
  oneParent i j b c hi hj := by
    rcases deep_allocated hi with rfl | rfl | rfl <;> rcases deep_allocated hj with rfl | rfl | rfl <;> cases b <;> cases c <;>
      simp [deep_node_0, deep_node_1, deep_node_2, Node.child]
  noOrphan k h h0 := by
    rcases deep_allocated h with rfl | rfl | rfl
    · exact absurd rfl h0
    · exact ⟨0#16, false, by simp [State.Allocated, deep], rfl⟩
    · exact ⟨1#16, false, by simp [State.Allocated, deep], rfl⟩

theorem deep_inv (p : List HostEvent) : Inv (deep p) where
  params := by simp [deep, Params.Legal]
  queue := by simp [deep, State.reset]
  memory := {
    canonical := rfl
    inArena := by intro i n h; simp [deep] at h; simp only [deep]; omega
    countFits := by simp [deep]
    written := by intro i h; rcases deep_allocated h with rfl | rfl | rfl <;> rfl }
  trie := deep_trie p
  depth := {
    bounded := fun _ w i h => by
      have h1 := follow_length (deep_trie p) (by simp [State.Allocated, deep]) h
      have h2 := follow_allocated (deep_trie p) (by simp [State.Allocated, deep]) h
      have h2 : i.toNat < 3 := h2
      omega
    walkReached := fun h => by cases h
    walkDepth := fun h => by cases h }
  flags := {
    causeIffError := by simp [deep, State.reset]
    infoClear := fun _ => rfl
    doneIdle := fun _ => rfl }
  load := {
    treeHasRoot := fun _ => by simp [deep]
    opened := fun h => by simp [deep, State.reset] at h
    entryOpen := fun h => by cases h }
  record := {
    posPlace := .inl rfl
    posZero := fun _ => rfl
    decoding := fun h => by cases h
    lastvalidRange := by simp [deep, State.reset]
    bytesRange := by simp [deep, State.reset]
    bitsBounded := by simp [deep, State.reset]
    outBounded := by simp [deep, State.reset]
    recordOpen := fun h => by simp [deep, State.reset] at h }

theorem sprouting_trie : TrieOk sprouting where
  rootInternal _ := rfl
  leafChildless i h := by rcases sprouting_allocated h with rfl; intro h; cases h
  internalSymZero i h := by rcases sprouting_allocated h with rfl; intro; rfl
  childAllocated i b h := by rcases sprouting_allocated h with rfl; cases b <;> exact fun h => absurd rfl h
  oneParent i j b c hi hj := by rcases sprouting_allocated hi with rfl; cases b <;> exact fun h => absurd rfl h
  noOrphan k h h0 := absurd (sprouting_allocated h) h0

theorem sprouting_inv : Inv sprouting where
  params := by simp [sprouting, Params.Legal]
  queue := by simp [sprouting, State.reset]
  memory := {
    canonical := rfl
    inArena := by intro i n h; simp [sprouting] at h; simp only [sprouting]; omega
    countFits := by simp [sprouting]
    written := by intro i h; rcases sprouting_allocated h with rfl; rfl }
  trie := sprouting_trie
  depth := {
    bounded := fun _ w i h => by
      have h1 := follow_length sprouting_trie (by simp [State.Allocated, sprouting]) h
      have h2 := follow_allocated sprouting_trie (by simp [State.Allocated, sprouting]) h
      have h2 : i.toNat < 1 := h2
      omega
    walkReached := fun _ => ⟨[], rfl⟩
    walkDepth := fun _ w h => by rw [root_len h]; rfl }
  flags := {
    causeIffError := by simp [sprouting, State.reset]
    infoClear := fun _ => rfl
    doneIdle := fun h => by cases h }
  load := {
    treeHasRoot := fun h => by cases h
    opened := fun _ => by simp [sprouting, State.reset]
    entryOpen := fun _ => by simp [sprouting, State.reset, State.Allocated, State.node, Memory.read, Memory.read?, Node.placeholder] }
  record := {
    posPlace := .inl rfl
    posZero := fun _ => rfl
    decoding := fun h => by cases h
    lastvalidRange := by simp [sprouting, State.reset]
    bytesRange := by simp [sprouting, State.reset]
    bitsBounded := by simp [sprouting, State.reset]
    outBounded := by simp [sprouting, State.reset]
    recordOpen := fun h => by simp [sprouting, State.reset] at h }

/-- The event changes STATE: TBL_BEGIN with ARG0 = 0, a fault. -/
theorem test_witness_EveryStepKeepsTheInvariant :
    Inv (deep [.access (.write 0x104 4 1)])
    ∧ stepsTo (deep [.access (.write 0x104 4 1)]) (fun t => t.errCause == some .badCodeCount) = true :=
  ⟨deep_inv _, by decide +kernel⟩

/-- A node is allocated and linked. -/
theorem test_witness_TheTrieOnlyGrows :
    Inv sprouting ∧ exec (.dinEntry 0x30) sprouting = .next (after (.dinEntry 0x30) sprouting)
    ∧ (after (.dinEntry 0x30) sprouting).nodecnt = 2#17 ∧ ¬ (Instr.dinEntry 0x30 = .tblBegin ∧ sprouting.phase = .idle)
    ∧ Instr.dinEntry 0x30 ≠ .softReset ∧ sprouting.Allocated 0#16 :=
  ⟨sprouting_inv, rfl, by decide +kernel, by decide, by decide, by simp [State.Allocated, sprouting]⟩

/-- `deep` with another content of node 3, which is not allocated. -/
def deepOther (pending : List HostEvent) : State :=
  { deep pending with nodes := (deep pending).nodes ++ [(3, .leafOf 0xFF#8)] }

/-- The two states differ, and both go on. -/
theorem test_witness_UnallocatedNodesAreUnobservable :
    let e := [HostEvent.access (.write 0x104 4 1)]
    Inv (deep e) ∧ SameButUnallocated (deep e) (deepOther e) ∧ (deep e).nodes ≠ (deepOther e).nodes
    ∧ stepsTo (deep e) (fun _ => true) = true ∧ stepsTo (deepOther e) (fun _ => true) = true := by
  refine ⟨deep_inv _, ⟨rfl, ?_⟩, by decide +kernel, by decide +kernel, by decide +kernel⟩
  intro i h
  rcases deep_allocated h with rfl | rfl | rfl <;> rfl

/-- A record of one bit, and one of none. -/
theorem test_witness_UnpackRecordEmitsUnpack :
    Inv (deep []) ∧ (deep []).phase = .idle ∧ (deep []).outq = []
    ∧ recordFault 1#32 1#32 = none ∧ ([0x80#32] : List Word).length = ceil8 (1#32).toNat
    ∧ recordFault 0#32 8#32 = none ∧ ([] : List Word).length = ceil8 (0#32).toNat :=
  ⟨deep_inv _, rfl, rfl, by decide +kernel, by decide +kernel, by decide +kernel, by decide +kernel⟩

/-- The premises, and a bit string for each of the three ends: "00", "1" and "0". -/
theorem test_witness_DecodeRecordEmitsDecode :
    Inv (deep []) ∧ (deep []).phase = .idle ∧ (deep []).treeValid = true ∧ (deep []).outq = []
    ∧ recordFault 2#32 2#32 = none ∧ ([0x00#32] : List Word).length = ceil8 (2#32).toNat
    ∧ (decodeRecord (deep []).node (unpack [0x00#8] 2 2)).2 = .wellFormed
    ∧ recordFault 1#32 1#32 = none ∧ ([0x80#32] : List Word).length = ceil8 (1#32).toNat
    ∧ (decodeRecord (deep []).node (unpack [0x80#8] 1 1)).2 = .absentChild 0
    ∧ (decodeRecord (deep []).node (unpack [0x00#8] 1 1)).2 = .endNotAtRoot 1#16 :=
  ⟨deep_inv _, rfl, rfl, rfl, by decide +kernel, by decide +kernel, by decide +kernel, by decide +kernel, by decide +kernel,
    by decide +kernel, by decide +kernel⟩

/-- a = "0", b = "10": its three prefixes and the root fill the arena of `deep`. -/
def fits : List (Byte × List Bool) := [(0x61#8, [false]), (0x62#8, [true, false])]

/-- One prefix more than the arena has room for; and a code that is a proper prefix of another. -/
def tooMany : List (Byte × List Bool) := [(0x61#8, [false, false]), (0x62#8, [false, true]), (0x63#8, [true])]
def notPrefixFree : List (Byte × List Bool) := [(0x61#8, [false]), (0x62#8, [false, true])]

theorem test_witness_PrefixFreeTableLoads :
    Inv (deep []) ∧ (deep []).phase = .idle ∧ 1 ≤ fits.length ∧ fits.length ≤ 256
    ∧ (∀ e ∈ fits, 1 ≤ e.2.length ∧ e.2.length ≤ 255) ∧ NoProperPrefix fits
    ∧ (codePrefixes fits).length + 1 = (deep []).params.nnodes :=
  ⟨deep_inv _, rfl, by decide, by decide, by decide, by unfold NoProperPrefix; decide, by decide +kernel⟩

theorem test_witness_TablesThatDoNotFitFault :
    Inv (deep []) ∧ (deep []).phase = .idle ∧ 1 ≤ tooMany.length ∧ tooMany.length ≤ 256
    ∧ (∀ e ∈ tooMany, 1 ≤ e.2.length ∧ e.2.length ≤ 255) ∧ NoProperPrefix tooMany
    ∧ (deep []).params.nnodes < (codePrefixes tooMany).length + 1
    ∧ 1 ≤ notPrefixFree.length ∧ notPrefixFree.length ≤ 256
    ∧ (∀ e ∈ notPrefixFree, 1 ≤ e.2.length ∧ e.2.length ≤ 255) ∧ ¬ NoProperPrefix notPrefixFree :=
  ⟨deep_inv _, rfl, by decide, by decide, by decide, by unfold NoProperPrefix; decide, by decide +kernel, by decide, by decide,
    by decide, by unfold NoProperPrefix; decide⟩

/-- The buffer a, b, a; and the empty one. -/
theorem test_witness_DecodeOfEncodedBufferIsTheBuffer :
    let code (x : Byte) : List Bool := if x = 0x61#8 then [false] else [true, false]
    Inv (deep []) ∧ (deep []).phase = .idle ∧ (deep []).outq = [] ∧ (fits.map fun e => e.2).Nodup
    ∧ (∀ x ∈ [0x61#8, 0x62#8, 0x61#8], (x, code x) ∈ fits)
    ∧ (pack ([0x61#8, 0x62#8, 0x61#8].flatMap code)).2.1 < 2 ^ 31 ∧ (pack (([] : List Byte).flatMap code)).2.1 < 2 ^ 31 :=
  ⟨deep_inv _, rfl, rfl, by decide +kernel, by decide +kernel, by decide +kernel, by decide +kernel⟩

theorem test_witness_SingleSymbolTableHasOneLeaf : Inv (deep []) ∧ (deep []).phase = .idle := ⟨deep_inv _, rfl⟩

end Sys2Proof.Tests
end

/-! PROOFS. 20_memory.md: the padding bits of a record's last byte (R44) and the port's refusal of an access that is no
aligned whole word (R47). First what `decode`, `step`, a DIN write and the bits of a byte do. -/

namespace Sys2Proof.Machine

/-! ### An access that is no instruction -/

/-- An access fails R47's form by its address or by its width. -/
theorem wellFormed_eq_false_iff (a : Access) : a.wellFormed = false ↔ a.addr % 4 ≠ 0 ∨ a.width ≠ 4 := by
  simp only [Access.wellFormed, Bool.and_eq_false_iff, beq_eq_false_iff_ne]

theorem decode_of_not_wellFormed (p : Phase) {a : Access} (h : a.wellFormed = false) :
    decode p a = .rejected .portError := by
  simp [decode, h]

theorem step_of_rejected {s : State} {a : Access} {rest : List HostEvent} {r : Reject}
    (hp : s.pending = .access a :: rest) (hd : decode s.phase a = .rejected r) :
    step s = .next (rejected r { s with pending := rest, answer := .done }) := by
  simp only [step, fetch, hp, react, hd]

/-- Settles O12: the decoder rejects the access, and the rejection writes the port's answer alone. -/
theorem misalignedOrNarrowAccessIsRefusedByThePort : Obligations.MisalignedOrNarrowAccessIsRefusedByThePort := by
  intro s a rest hp h
  have hd : decode s.phase a = .rejected .portError :=
    decode_of_not_wellFormed s.phase ((wellFormed_eq_false_iff a).mpr h)
  rw [step_of_rejected hp hd]
  rfl

/-! ### A packed byte counts through its valid bits alone -/

theorem exec_dinDecode (v : Word) {s : State} (h : s.phase = .decode) :
    exec (.dinDecode v) s = .next (decodeByte (dinByte v) s) := by
  rw [exec_of_isDin s (.inr (.inl rfl))]
  simp only [dinWrite, h]

theorem exec_dinUnpack (v : Word) {s : State} (h : s.phase = .unpack) :
    exec (.dinUnpack v) s = .next (unpackByte (dinByte v) s) := by
  rw [exec_of_isDin s (.inr (.inr (.inl rfl)))]
  simp only [dinWrite, h]

theorem getLsbD_dinByte (v : Word) {j : Nat} (h : j < 8) : (dinByte v).getLsbD j = v.getLsbD j := by
  simp [dinByte, h]

/-- `bits_of_byte` (40_bit_unpacker.md R92) for every count: the bits 7, 6, … down, as many as asked for and at most 8. -/
theorem bitsOfByte_eq_map_range (b : Byte) (n : Nat) :
    bitsOfByte b n = (List.range (min n 8)).map fun k => b.getLsbD (7 - k) := by
  rw [← List.take_range, List.map_take]
  rfl

/-- Bytes that agree in the `n` high-order bits give the same bits. -/
theorem bitsOfByte_congr {b c : Byte} {n : Nat} (h : ∀ j, 8 - n ≤ j → j < 8 → b.getLsbD j = c.getLsbD j) :
    bitsOfByte b n = bitsOfByte c n := by
  rw [bitsOfByte_eq_map_range, bitsOfByte_eq_map_range]
  refine List.map_congr_left fun k hk => ?_
  have hk : k < min n 8 := List.mem_range.mp hk
  exact h (7 - k) (by omega) (by omega)

theorem decodeByte_congr {b c : Byte} {s : State} (h : bitsOfByte b s.validBits = bitsOfByte c s.validBits) :
    decodeByte b s = decodeByte c s := by
  simp only [decodeByte, h]

theorem unpackByte_congr {b c : Byte} {s : State} (h : bitsOfByte b s.validBits = bitsOfByte c s.validBits) :
    unpackByte b s = unpackByte c s := by
  simp only [unpackByte, h]

theorem validBits_of_last {s : State} (h : s.bytesLeft = 1#29) : s.validBits = s.lastvalid.toNat := if_pos h

/-- Settles O31: in the last byte LASTVALID bits are valid, and both rules see the byte through those bits alone. -/
theorem paddingBitsMakeNoDifference : Obligations.PaddingBitsMakeNoDifference := by
  intro s v w hlast hagree
  have hbits : bitsOfByte (dinByte v) s.validBits = bitsOfByte (dinByte w) s.validBits := by
    rw [validBits_of_last hlast]
    refine bitsOfByte_congr fun j hlo hj => ?_
    rw [getLsbD_dinByte v hj, getLsbD_dinByte w hj, hagree j hlo hj]
  refine ⟨fun hdecode => ?_, fun hunpack => ?_⟩
  · rw [exec_dinDecode v hdecode, exec_dinDecode w hdecode, decodeByte_congr hbits]
  · rw [exec_dinUnpack v hunpack, exec_dinUnpack w hunpack, unpackByte_congr hbits]

end Sys2Proof.Machine

/-! PROOFS. 30_encoding.md: what a read of a laid-out register shows (R62, R63, R70, R71). First the two range rules of a
word laid out in fields; then, per register, each field of its word; last the statements. -/

namespace Sys2Proof.Machine

/-! ### A range of bits of a laid-out word -/

/-- A field occupies its own range. -/
@[simp] theorem extractLsb'_field_same {n : Nat} (v : BitVec n) {lo : Nat} (h : lo + n ≤ 32) :
    (field v lo).extractLsb' lo n = v := by
  refine BitVec.eq_of_getLsbD_eq fun j hj => ?_
  have hlt : lo + j < 32 := by omega
  rw [BitVec.getLsbD_extractLsb', getLsbD_field]
  simp [hj, hlt]

/-- A range that does not meet a field sees zeros there. -/
@[simp] theorem extractLsb'_field_disjoint {n : Nat} (v : BitVec n) {lo i m : Nat} (h : i + m ≤ lo ∨ lo + n ≤ i) :
    (field v lo).extractLsb' i m = 0#m := by
  refine BitVec.eq_of_getLsbD_eq fun j hj => ?_
  rcases h with hbelow | habove
  · have hnot : ¬ lo ≤ i + j := by omega
    simp [getLsbD_field, hnot]
  · have hge : n ≤ i + j - lo := by omega
    simp [getLsbD_field, BitVec.getLsbD_of_ge v _ hge]

/-- A range that does not hold a flag's bit sees zeros there. -/
@[simp] theorem extractLsb'_flag_disjoint (b : Bool) {lo i m : Nat} (h : i + m ≤ lo ∨ lo < i) :
    (flag b lo).extractLsb' i m = 0#m :=
  extractLsb'_field_disjoint (BitVec.ofBool b) h

/-! ### STATUS (R62) -/

theorem exec_rStatus (s : State) : exec .rStatus s = .next { s with answer := .data s.statusWord } := rfl

theorem statusWord_state (s : State) : s.statusWord.extractLsb' 0 3 = phaseCode s.phase := by
  simp [State.statusWord, BitVec.extractLsb'_or]

theorem statusWord_level (s : State) : s.statusWord.extractLsb' 16 16 = s.outqLevel := by
  simp [State.statusWord, BitVec.extractLsb'_or]

theorem statusWord_reserved_9_15 (s : State) : s.statusWord.extractLsb' 9 7 = 0#7 := by
  simp [State.statusWord, BitVec.extractLsb'_or]

/-- The bits 3 to 8: the reserved one, and the six flags. -/
theorem statusWord_bits (s : State) :
    s.statusWord.getLsbD 3 = false ∧ s.statusWord.getLsbD 4 = s.treeValid ∧ s.statusWord.getLsbD 5 = s.done
    ∧ s.statusWord.getLsbD 6 = s.dinRdy ∧ s.statusWord.getLsbD 7 = s.outAvail ∧ s.statusWord.getLsbD 8 = s.atRoot := by
  simp only [State.statusWord, BitVec.getLsbD_or, getLsbD_field, getLsbD_flag]
  simp

theorem outAvail_iff (s : State) : s.outAvail = true ↔ s.outq ≠ [] := by
  simp [State.outAvail, List.length_pos_iff]

theorem atRoot_iff (s : State) : s.atRoot = true ↔ s.pos = 0#16 := by
  simp [State.atRoot]

/-- The level is exact where the capacity is one of R4. -/
theorem outqLevel_toNat {s : State} (hp : s.params.Legal) (hq : s.outq.length ≤ s.params.outqDepth) :
    s.outqLevel.toNat = s.outq.length := by
  obtain ⟨-, -, -, hdepth, -⟩ := hp
  have hfits : s.outq.length < 2 ^ 16 := by omega
  exact (BitVec.toNat_ofNat _ _).trans (Nat.mod_eq_of_lt hfits)

/-- Settles O6: the read answers `statusWord`, whose fields are shown above one by one. -/
theorem statusReadShowsEveryField : Obligations.StatusReadShowsEveryField := by
  intro s hp hq
  obtain ⟨hres, htree, hdone, hrdy, havail, hroot⟩ := statusWord_bits s
  refine ⟨s.statusWord, exec_rStatus s, ?state, hres, htree, hdone, ?rdy, ?avail, ?root, statusWord_reserved_9_15 s, ?level⟩
  case state => rw [statusWord_state]; cases s.phase <;> rfl
  case rdy =>
    have hroom : 8 ≤ s.params.outqDepth - s.outq.length ↔ s.outq.length + 8 ≤ s.params.outqDepth := by omega
    rw [hrdy, dinRdy_iff, hroom]
  case avail => rw [havail, outAvail_iff]
  case root => rw [hroot, atRoot_iff]
  case level => rw [statusWord_level, outqLevel_toNat hp hq]

/-! ### NODEDAT0 and NODEDAT1 (R71) -/

theorem exec_rNodedat0 (s : State) : exec .rNodedat0 s = .next { s with answer := .data s.nodedat0Word } := rfl

theorem exec_rNodedat1 (s : State) : exec .rNodedat1 s = .next { s with answer := .data s.nodedat1Word } := rfl

theorem nodeShown_iff (s : State) : s.nodeShown = true ↔ s.nodeidx.toNat < s.nodecnt.toNat := decide_eq_true_iff

/-- NODEDAT0 of an allocated node: ALLOC, LEAF, zeros, SYM. -/
theorem nodedat0Word_of_shown {s : State} (h : s.nodeShown = true) :
    s.nodedat0Word.getLsbD 31 = true ∧ s.nodedat0Word.getLsbD 30 = (s.node s.nodeidx).leaf
    ∧ s.nodedat0Word.extractLsb' 8 22 = 0#22 ∧ s.nodedat0Word.extractLsb' 0 8 = (s.node s.nodeidx).sym := by
  rw [State.nodedat0Word, if_pos h]
  refine ⟨?_, ?_, ?_, ?_⟩
  · simp only [BitVec.getLsbD_or, getLsbD_field, getLsbD_flag]
    simp
  · simp only [BitVec.getLsbD_or, getLsbD_field, getLsbD_flag]
    simp
  · simp [BitVec.extractLsb'_or]
  · simp [BitVec.extractLsb'_or]

/-- NODEDAT1 of an allocated node: RIGHT and LEFT. -/
theorem nodedat1Word_of_shown {s : State} (h : s.nodeShown = true) :
    s.nodedat1Word.extractLsb' 16 16 = (s.node s.nodeidx).right
    ∧ s.nodedat1Word.extractLsb' 0 16 = (s.node s.nodeidx).left := by
  rw [State.nodedat1Word, if_pos h]
  simp [BitVec.extractLsb'_or]

/-- Both words of a node that is not allocated are 0, whatever the node memory holds there. -/
theorem nodedatWords_of_not_shown {s : State} (h : ¬ s.nodeShown = true) :
    s.nodedat0Word = 0#32 ∧ s.nodedat1Word = 0#32 :=
  ⟨if_neg h, if_neg h⟩

/-- Settles O9: whether the selected node is shown is the comparison of NODEIDX with NODECNT. -/
theorem nodeReadsShowAllocatedNodesOnly : Obligations.NodeReadsShowAllocatedNodesOnly := by
  intro s
  refine ⟨s.nodedat0Word, s.nodedat1Word, exec_rNodedat0 s, exec_rNodedat1 s, fun hlt => ?_, fun hle => ?_⟩
  · have hshown : s.nodeShown = true := (nodeShown_iff s).mpr hlt
    obtain ⟨halloc, hleaf, hzeros, hsym⟩ := nodedat0Word_of_shown hshown
    exact ⟨halloc, hleaf, hzeros, hsym, nodedat1Word_of_shown hshown⟩
  · exact nodedatWords_of_not_shown fun hshown => Nat.not_lt.mpr hle ((nodeShown_iff s).mp hshown)

/-! ### ERR and ERRINFO (R63) -/

theorem exec_rErr (s : State) : exec .rErr s = .next { s with answer := .data s.errWord } := rfl

theorem exec_rErrinfo (s : State) : exec .rErrinfo s = .next { s with answer := .data s.errInfo } := rfl

theorem errWord_of_none {s : State} (h : s.errCause = none) : s.errWord = 0#32 := by
  simp only [State.errWord, h]

/-- The kind stands right above the code. -/
theorem errWord_of_some {s : State} {c : Cause} (h : s.errCause = some c) :
    s.errWord = BitVec.ofNat 32 (c.kind.toNat * 2 ^ 8 + c.code.toNat) := by
  simp only [State.errWord, h, field_pair]

/-- Settles O7: one case per cause, each the kind and the code of R201. -/
theorem errReadShowsCauseAndKind : Obligations.ErrReadShowsCauseAndKind := by
  intro s
  refine ⟨?_, exec_rErrinfo s⟩
  rw [exec_rErr]
  cases hcause : s.errCause with
  | none => rw [errWord_of_none hcause]; rfl
  | some c => rw [errWord_of_some hcause]; cases c <;> rfl

/-! ### CONFIG (R70) -/

theorem exec_rConfig (s : State) : exec .rConfig s = .next { s with answer := .data s.configWord } := rfl

theorem configWord_nnodes (s : State) : s.configWord.extractLsb' 0 16 = BitVec.ofNat 16 (s.params.nnodes - 1) := by
  simp [State.configWord, BitVec.extractLsb'_or]

theorem configWord_outqDepth (s : State) : s.configWord.extractLsb' 16 16 = BitVec.ofNat 16 s.params.outqDepth := by
  simp [State.configWord, BitVec.extractLsb'_or]

/-- Settles O8: the legal ranges of R4 are what 16 bits hold, NNODES as NNODES - 1. -/
theorem configReadShowsTheParameters : Obligations.ConfigReadShowsTheParameters := by
  intro s hp
  obtain ⟨hnodesPos, hnodes, -, hdepth, -⟩ := hp
  refine ⟨s.configWord, exec_rConfig s, ?nodes, ?depth⟩
  case nodes => rw [configWord_nnodes, BitVec.toNat_ofNat, Nat.mod_eq_of_lt (by omega)]; omega
  case depth => rw [configWord_outqDepth, BitVec.toNat_ofNat, Nat.mod_eq_of_lt (by omega)]

end Sys2Proof.Machine

/-! PROOFS. 40_bit_unpacker.md: the bits of a byte (R92), the packed byte that becomes bit characters (R96), the two
operands of a record (when they pass the checks, and the registers that opening a record then writes) and UNPK_BEGIN (R95). -/

namespace Sys2Proof.Machine

/-! ### The bits of a byte (R92) -/

/-- Settles O30: the length, each bit, and what the bits depend on, each by the law that says it. -/
theorem bitsOfByteAreTheHighOrderBits : Obligations.BitsOfByteAreTheHighOrderBits := by
  intro b n _ hn
  refine ⟨?_, fun k hk => bitsOfByte_get b n k hn hk, fun b' hagree => bitsOfByte_congr hagree⟩
  rw [length_bitsOfByte, Nat.min_eq_left hn]

/-! ### A packed byte of an UNPACK record (R96) -/

/-- Settles O29: no room, more bytes to come, or the last byte. -/
theorem unpackByteEmitsItsBitCharacters : Obligations.UnpackByteEmitsItsBitCharacters := by
  intro s v hphase
  rw [exec_dinUnpack v hphase]
  rcases unpackByte_shape (dinByte v) s with ⟨hroom, e⟩ | ⟨hroom, bits, -, rfl, ⟨hmore, e⟩ | ⟨hlast, e⟩⟩ <;> rw [e]
  · rw [hasRoom_eq_false_iff] at hroom
    exact ⟨fun _ => rfl, fun h => by omega, fun h => by omega⟩
  · rw [hasRoom_iff] at hroom
    exact ⟨fun h => by omega, fun _ _ => rfl, fun _ h => absurd h (sub_ne_zero.mp hmore)⟩
  · rw [hasRoom_iff] at hroom
    exact ⟨fun h => by omega, fun _ h => absurd (sub_eq_zero.mp hlast) h, fun _ _ => rfl⟩

/-! ### The operands of a record (R91, R95; 60_exceptions.md R207) -/

theorem toNat_signed {a : Word} (h : 0 ≤ signed a) : (signed a).toNat = a.toNat := by
  simp only [signed, BitVec.toInt_eq_toNat_cond] at h ⊢
  omega

/-- Truncation to the width of a field loses the same bits of a signed operand as of its word. -/
theorem ofInt_signed (a : Word) {n : Nat} (h : n ≤ 32) : BitVec.ofInt n (signed a) = a.setWidth n :=
  BitVec.signExtend_eq_setWidth_of_le a h

/-- `trail` (R91) as arithmetic of integers. -/
theorem trail_toNat {l : Int} (h : 0 ≤ l) : (trail l.toNat : Int) = if l % 8 = 0 then 8 else l % 8 := by
  simp only [trail]
  split <;> split <;> omega

theorem recordFault_of_negative {a b : Word} (h : signed a < 0) : recordFault a b = some (.badBitLength, a) := if_pos h

/-- A count out of range, and one that does not belong to the length, are one fault. -/
theorem recordFault_of_bad_count {a b : Word} (ha : 0 ≤ signed a)
    (h : signed b < 1 ∨ 8 < signed b ∨ signed b ≠ trail (signed a).toNat) :
    recordFault a b = some (.badTrailCount, b) := by
  rw [recordFault, if_neg (by omega)]
  by_cases hrange : signed b < 1 ∨ signed b > 8
  · rw [if_pos hrange]
  · rw [if_neg hrange, if_pos (by omega)]

theorem recordFault_of_legal {a b : Word} (ha : 0 ≤ signed a) (hb : signed b = trail (signed a).toNat) :
    recordFault a b = none := by
  have hrange := trail_le (signed a).toNat
  exact (recordFault_eq_none a b).mpr ⟨ha, by omega, by omega, hb⟩

/-- The registers of a record as the operands' words give them (R95). -/
def State.withRecord (s : State) : State :=
  { s with
    bitlen := s.arg0.setWidth 31, lastvalid := s.arg1.setWidth 4, bytesLeft := BitVec.ofNat 29 (ceil8 s.arg0.toNat)
    bitcnt := 0#32, outcnt := 0#32 }

theorem openRecord_of_pos (p : Phase) {s : State} (h : 0 < signed s.arg0) :
    openRecord p s = { s.withRecord with phase := p } := by
  rcases openRecord_cases p s with ⟨hzero, -⟩ | ⟨-, e⟩
  · omega
  · rw [e, toNat_signed h.le, ofInt_signed _ (by decide)]
    rfl

theorem openRecord_of_zero (p : Phase) {s : State} (h : signed s.arg0 = 0) :
    openRecord p s = { s.withRecord with done := true } := by
  have hzero : s.arg0 = 0#32 := BitVec.eq_of_toInt_eq h
  rcases openRecord_cases p s with ⟨-, e⟩ | ⟨hne, -⟩
  · rw [e, ofInt_signed _ (by decide)]
    simp [State.withRecord, hzero, ceil8]
  · omega

/-! ### UNPK_BEGIN (R95) -/

theorem exec_unpkBegin (s : State) : exec .unpkBegin s = .next (unpkBegin s) := rfl

theorem unpkBegin_of_recordFault {s : State} {cause : Cause} {info : Word} (h : s.phase = .idle)
    (hf : recordFault s.arg0 s.arg1 = some (cause, info)) : unpkBegin s = raise cause info s := by
  simp only [unpkBegin, h, hf]
  rfl

theorem unpkBegin_of_legal {s : State} (h : s.phase = .idle) (hf : recordFault s.arg0 s.arg1 = none) :
    unpkBegin s = openRecord .unpack { s with done := false } := by
  simp only [unpkBegin, h, hf]

theorem unpkBegin_of_busy {s : State} (h : s.phase = .load ∨ s.phase = .entry ∨ s.phase = .decode ∨ s.phase = .unpack) :
    unpkBegin s = raise .badState 0x04#32 s := by
  rcases h with h | h | h | h <;> simp only [unpkBegin, h]

theorem unpkBegin_of_error {s : State} (h : s.phase = .error) : unpkBegin s = s := by
  simp only [unpkBegin, h]

/-- Settles O26: in IDLE the operands' checks decide between a fault and the record, in the other states STATE alone. -/
theorem unpkBeginOpensARecord : Obligations.UnpkBeginOpensARecord := by
  intro s l t opened legal
  have hlegal (hl : 0 ≤ l) : legal ↔ t = trail l.toNat := by rw [trail_toNat hl]
  rw [exec_unpkBegin]
  refine ⟨fun hidle hpos ht => ?opened, fun hidle hzero ht => ?complete, fun hidle hneg => ?badLength,
    fun hidle hl ht => ?badCount, fun hbusy => ?busy, fun herror => ?ignored⟩
  case opened =>
    rw [unpkBegin_of_legal hidle (recordFault_of_legal hpos.le ((hlegal hpos.le).mp ht)),
      openRecord_of_pos .unpack (s := { s with done := false }) hpos]
    rfl
  case complete =>
    have hcount : t = trail l.toNat := by rw [ht, hzero]; rfl
    rw [unpkBegin_of_legal hidle (recordFault_of_legal hzero.ge hcount),
      openRecord_of_zero .unpack (s := { s with done := false }) hzero]
    rfl
  case badLength => rw [unpkBegin_of_recordFault hidle (recordFault_of_negative hneg)]; rfl
  case badCount =>
    rw [hlegal hl] at ht
    rw [unpkBegin_of_recordFault hidle (recordFault_of_bad_count hl ht)]
    rfl
  case busy => rw [unpkBegin_of_busy hbusy]; rfl
  case ignored => rw [unpkBegin_of_error herror]

end Sys2Proof.Machine

/-! PROOFS. 41_tree_reconstructor.md: one bit character of an open entry (R118), TBL_BEGIN (R112) and TBL_ENTRY (R114).
Per operation first one equation for each case of its rule; then the statement, a line or two per clause. -/

namespace Sys2Proof.Machine

/-! ### A node read after a write -/

@[simp] theorem Memory.read_write_same (m : Memory) (i : Nat) (n : Node) : (m.write i n).read i = n := by
  rw [Memory.read_write, if_pos rfl]

@[simp] theorem Memory.read_write_of_ne (m : Memory) {i j : Nat} (n : Node) (h : i ≠ j) :
    (m.write i n).read j = m.read j := by
  rw [Memory.read_write, if_neg h]

/-! ### Which step of the walk a bit character takes (R118) -/

theorem exec_dinEntry (v : Word) {s : State} (h : s.phase = .entry) :
    exec (.dinEntry v) s = .next (entryByte (dinByte v) s) := by
  rw [exec_of_isDin s (.inl rfl)]
  simp only [dinWrite, h]

theorem bitOfChar_charOfBit (bit : Bool) : bitOfChar (charOfBit bit) = some bit := by
  cases bit <;> rfl

theorem bitOfChar_eq_none {c : Byte} (h0 : c ≠ 0x30#8) (h1 : c ≠ 0x31#8) : bitOfChar c = none := by
  rw [bitOfChar, if_neg h0, if_neg h1]

theorem entryByte_of_not_bitChar {c : Byte} (s : State) (h : bitOfChar c = none) :
    entryByte c s = raise .badBitChar (s.entryInfo c) s := by
  simp only [entryByte, h]

theorem entryByte_of_inner {s : State} (bit : Bool) (h : 1 < s.eLeft.toNat) :
    entryByte (charOfBit bit) s = innerStep bit s := by
  simp only [entryByte, bitOfChar_charOfBit, if_pos h]

theorem entryByte_of_final {s : State} (bit : Bool) (h : s.eLeft.toNat ≤ 1) :
    entryByte (charOfBit bit) s = finalStep bit s := by
  simp only [entryByte, bitOfChar_charOfBit, if_neg (Nat.not_lt.mpr h)]

/-- The character's index stands right above the byte. -/
theorem entryInfo_eq (s : State) (b : Byte) :
    s.entryInfo b = BitVec.ofNat 32 (s.charIndex.toNat * 2 ^ 8 + b.toNat) :=
  field_pair s.charIndex b

/-! ### The slot is free: a node is allocated and linked to it, or there is no room -/

/-- The node memory with node `n` written at NODECNT and linked to WPOS's slot `bit`. -/
def State.grownNodes (s : State) (bit : Bool) (n : Node) : Memory :=
  ((s.allocated n).linkChild s.wpos bit s.nextNode).nodes

section
variable {s : State} {bit : Bool} (missing : (s.node s.wpos).child bit = 0#16)
include missing

/-- With E_LEFT above 1 or not, a full arena ends the step before anything is written. -/
theorem entryByte_of_exhausted (full : s.nodecnt.toNat = s.params.nnodes) :
    entryByte (charOfBit bit) s = raise .nodeExhausted (s.eSym.setWidth 32) s := by
  rcases Nat.lt_or_ge 1 s.eLeft.toNat with h | h
  · rw [entryByte_of_inner bit h]
    simpa [missing, full] using innerStep_cases bit s
  · rw [entryByte_of_final bit h]
    simpa [missing, full] using finalStep_cases bit s

theorem innerStep_of_missing (room : s.nodecnt.toNat ≠ s.params.nnodes) :
    innerStep bit s = walkOn s.nextNode
      { s with nodes := s.grownNodes bit .placeholder, nodecnt := s.nodecnt + 1#17 } := by
  have h : innerStep bit s = walkOn s.nextNode ((s.allocated .placeholder).linkChild s.wpos bit s.nextNode) := by
    simpa [missing, room] using innerStep_cases bit s
  exact h

theorem finalStep_of_missing (room : s.nodecnt.toNat ≠ s.params.nnodes) :
    finalStep bit s = closeEntry
      { s with nodes := s.grownNodes bit (.leafOf s.eSym), nodecnt := s.nodecnt + 1#17 } := by
  have h : finalStep bit s = closeEntry ((s.allocated (.leafOf s.eSym)).linkChild s.wpos bit s.nextNode) := by
    simpa [missing, room] using finalStep_cases bit s
  exact h

end

/-- The grown memory at every index: the walk pointer's node is linked, the new one is `n`, all others are as before. WPOS is
allocated, so it is not the node that is given out. -/
theorem read_grownNodes {s : State} (bit : Bool) (n : Node) (hw : s.wpos.toNat < s.nodecnt.toNat)
    (room : s.nodecnt.toNat < 65536) :
    (s.grownNodes bit n).read s.nextNode.toNat = n
    ∧ (s.grownNodes bit n).read s.wpos.toNat = (s.node s.wpos).setChild bit s.nextNode
    ∧ ∀ j, j ≠ s.nextNode.toNat → j ≠ s.wpos.toNat → (s.grownNodes bit n).read j = s.nodes.read j := by
  have hidx : s.nextNode.toNat ≠ s.wpos.toNat := by rw [nextNode_toNat s room]; omega
  have hne : s.wpos ≠ s.nextNode := fun h => hidx (congrArg BitVec.toNat h).symm
  have hnode := node_allocChild s bit n
  refine ⟨(hnode s.nextNode hne).trans ?_, (hnode s.wpos hne).trans (if_pos rfl), fun j hj hjw => ?_⟩
  · rw [if_neg hne.symm, if_pos rfl]
  · exact (Memory.read_write_of_ne _ _ hjw.symm).trans (Memory.read_write_of_ne _ _ hj.symm)

/-! ### The slot holds a child: a Leaf or an Internal node -/

section
variable {s : State} {bit : Bool} (present : (s.node s.wpos).child bit ≠ 0#16)
include present

theorem innerStep_of_internal (internal : (s.node ((s.node s.wpos).child bit)).leaf = false) :
    innerStep bit s = walkOn ((s.node s.wpos).child bit) s := by
  simpa [present, internal] using innerStep_cases bit s

theorem innerStep_of_leaf (leaf : (s.node ((s.node s.wpos).child bit)).leaf = true) :
    innerStep bit s = raise .prefixConflict (s.entryInfo s.eSym) s := by
  simpa [present, leaf] using innerStep_cases bit s

theorem finalStep_of_leaf (leaf : (s.node ((s.node s.wpos).child bit)).leaf = true) :
    finalStep bit s = closeEntry (s.writeNode ((s.node s.wpos).child bit)
      { s.node ((s.node s.wpos).child bit) with sym := s.eSym }) := by
  simpa [present, leaf] using finalStep_cases bit s

theorem finalStep_of_internal (internal : (s.node ((s.node s.wpos).child bit)).leaf = false) :
    finalStep bit s = raise .prefixConflict (s.entryInfo s.eSym) s := by
  simpa [present, internal] using finalStep_cases bit s

end

/-- Closing an entry, by whether it is the last one of its table. -/
theorem closeEntry_eq (s : State) :
    closeEntry s = if s.remain = 1#9 then
        { s with eLeft := 0#8, remain := 0#9, phase := .idle, treeValid := true, done := true }
      else { s with eLeft := 0#8, remain := s.remain - 1#9, phase := .load } := by
  rcases closeEntry_cases s with ⟨hlast, e⟩ | ⟨hmore, e⟩ <;> rw [e]
  · rw [if_pos (sub_eq_zero.mp hlast)]
  · rw [if_neg (sub_ne_zero.mp hmore)]

/-- Settles O27: the byte selects the bit, E_LEFT the inner or the final step, and the slot's child the case of that step. -/
theorem entryByteTakesOneStepOfTheWalk : Obligations.EntryByteTakesOneStepOfTheWalk := by
  intro s v hphase hwpos _ harena c i fresh closed faulted
  rw [exec_dinEntry v hphase]
  refine ⟨fun h0 h1 => ?notABit, ?aBit⟩
  case notABit =>
    have hnone : bitOfChar (dinByte v) = none := bitOfChar_eq_none h0 h1
    rw [entryByte_of_not_bitChar s hnone, entryInfo_eq]
    rfl
  intro bit hbit ch
  rw [show dinByte v = charOfBit bit from hbit]
  refine ⟨fun hmissing hfull => ?exhausted, fun hmissing hroom hleft => ?placeholder,
    fun hpresent hinternal hleft => ?stepOn, fun hpresent hleaf hleft => ?throughLeaf,
    fun hmissing hroom hlast => ?newLeaf, fun hpresent hleaf hlast => ?overwrite,
    fun hpresent hinternal hlast => ?ontoInternal⟩
  case exhausted => rw [entryByte_of_exhausted hmissing hfull]; rfl
  case placeholder =>
    rw [entryByte_of_inner bit hleft, innerStep_of_missing hmissing hroom.ne]
    exact ⟨_, rfl, read_grownNodes bit .placeholder hwpos (by omega)⟩
  case stepOn => rw [entryByte_of_inner bit hleft, innerStep_of_internal hpresent hinternal]; rfl
  case throughLeaf => rw [entryByte_of_inner bit hleft, innerStep_of_leaf hpresent hleaf, entryInfo_eq]; rfl
  case newLeaf =>
    rw [entryByte_of_final bit hlast.le, finalStep_of_missing hmissing hroom.ne, closeEntry_eq]
    exact ⟨_, rfl, read_grownNodes bit (.leafOf s.eSym) hwpos (by omega)⟩
  case overwrite =>
    rw [entryByte_of_final bit hlast.le, finalStep_of_leaf hpresent hleaf, closeEntry_eq]
    exact ⟨_, rfl, Memory.read_write_same _ _ _, fun j hj => Memory.read_write_of_ne _ _ hj.symm⟩
  case ontoInternal => rw [entryByte_of_final bit hlast.le, finalStep_of_internal hpresent hinternal, entryInfo_eq]; rfl

/-! ### TBL_BEGIN (R112) -/

theorem exec_tblBegin (s : State) : exec .tblBegin s = .next (tblBegin s) := rfl

theorem tblBegin_of_legal {s : State} (h : s.phase = .idle) (hlo : 1 ≤ signed s.arg0) (hhi : signed s.arg0 ≤ 256) :
    tblBegin s = { s with
      treeValid := false, done := false, nodes := s.nodes.write 0 .placeholder, nodecnt := 1#17,
      remain := s.arg0.setWidth 9, phase := .load } := by
  have hrange : ¬ (signed s.arg0 < 1 ∨ signed s.arg0 > 256) := by omega
  simp only [tblBegin, h, if_neg hrange, ofInt_signed s.arg0 (show 9 ≤ 32 by decide)]
  rfl

theorem tblBegin_of_bad_count {s : State} (h : s.phase = .idle) (hrange : signed s.arg0 < 1 ∨ 256 < signed s.arg0) :
    tblBegin s = raise .badCodeCount s.arg0 { s with treeValid := false } := by
  simp only [tblBegin, h]
  rw [if_pos hrange]
  rfl

theorem tblBegin_of_busy {s : State} (h : s.phase = .load ∨ s.phase = .entry ∨ s.phase = .decode ∨ s.phase = .unpack) :
    tblBegin s = raise .badState 0x01#32 s := by
  rcases h with h | h | h | h <;> simp only [tblBegin, h]

theorem tblBegin_of_error {s : State} (h : s.phase = .error) : tblBegin s = s := by
  simp only [tblBegin, h]

/-- Settles O23: in IDLE the count decides between a load and a fault, in the other states STATE alone. -/
theorem tblBeginOpensALoad : Obligations.TblBeginOpensALoad := by
  intro s
  rw [exec_tblBegin]
  refine ⟨fun hidle hlo hhi => ?opened, fun hidle hcount => ?badCount, fun hbusy => ?busy, fun herror => ?ignored⟩
  case opened =>
    rw [tblBegin_of_legal hidle hlo hhi]
    exact ⟨_, rfl, Memory.read_write_same _ _ _, fun i hi => Memory.read_write_of_ne _ _ hi.symm⟩
  case badCount => rw [tblBegin_of_bad_count hidle hcount]; rfl
  case busy => rw [tblBegin_of_busy hbusy]; rfl
  case ignored => rw [tblBegin_of_error herror]

/-! ### TBL_ENTRY (R114) -/

theorem exec_tblEntry (s : State) : exec .tblEntry s = .next (tblEntry s) := rfl

theorem tblEntry_of_legal {s : State} (h : s.phase = .load) (hlo : 1 ≤ signed s.arg1) (hhi : signed s.arg1 ≤ 255) :
    tblEntry s = { s with
      eSym := s.arg0.extractLsb' 0 8, eLen := s.arg1.setWidth 8, eLeft := s.arg1.setWidth 8,
      wpos := 0#16, phase := .entry } := by
  have hrange : ¬ (signed s.arg1 < 1 ∨ signed s.arg1 > 255) := by omega
  simp only [tblEntry, h, if_neg hrange, ofInt_signed s.arg1 (show 8 ≤ 32 by decide)]

theorem tblEntry_of_bad_length {s : State} (h : s.phase = .load) (hrange : signed s.arg1 < 1 ∨ 255 < signed s.arg1) :
    tblEntry s = raise .badCodeLength s.arg1 s := by
  simp only [tblEntry, h]
  rw [if_pos hrange]

theorem tblEntry_of_closed {s : State} (h : s.phase = .idle ∨ s.phase = .entry ∨ s.phase = .decode ∨ s.phase = .unpack) :
    tblEntry s = raise .badState 0x02#32 s := by
  rcases h with h | h | h | h <;> simp only [tblEntry, h]

theorem tblEntry_of_error {s : State} (h : s.phase = .error) : tblEntry s = s := by
  simp only [tblEntry, h]

/-- Settles O24: in LOAD the length decides between an entry and a fault, in the other states STATE alone. -/
theorem tblEntryOpensAnEntry : Obligations.TblEntryOpensAnEntry := by
  intro s
  rw [exec_tblEntry]
  refine ⟨fun hload hlo hhi => ?opened, fun hload hlength => ?badLength, fun hclosed => ?closed, fun herror => ?ignored⟩
  case opened => rw [tblEntry_of_legal hload hlo hhi]
  case badLength => rw [tblEntry_of_bad_length hload hlength]; rfl
  case closed => rw [tblEntry_of_closed hclosed]; rfl
  case ignored => rw [tblEntry_of_error herror]

end Sys2Proof.Machine

/-! PROOFS. 42_decode_automaton.md: DEC_BEGIN (R141) and the packed byte whose bits are stepped (R143 with R142).
Per operation first one equation for each case of its rule; then the statement, a line or two per clause. -/

namespace Sys2Proof.Machine

/-! ### DEC_BEGIN (R141) -/

theorem exec_decBegin (s : State) : exec .decBegin s = .next (decBegin s) := rfl

section
variable {s : State} (hidle : s.phase = .idle)
include hidle

theorem decBegin_of_no_trie (ht : s.treeValid = false) : decBegin s = raise .badState 0x103#32 s := by
  simpa [hidle, ht] using decBegin_cases s

theorem decBegin_of_recordFault {cause : Cause} {info : Word} (ht : s.treeValid = true)
    (hf : recordFault s.arg0 s.arg1 = some (cause, info)) : decBegin s = raise cause info s := by
  have h : decBegin s = raise cause info { s with done := false } := by
    simpa [hidle, ht, hf] using decBegin_cases s
  exact h

theorem decBegin_of_legal (ht : s.treeValid = true) (hf : recordFault s.arg0 s.arg1 = none) :
    decBegin s = openRecord .decode { s with done := false, pos := 0#16 } := by
  simpa [hidle, ht, hf] using decBegin_cases s

end

theorem decBegin_of_busy {s : State} (h : s.phase = .load ∨ s.phase = .entry ∨ s.phase = .decode ∨ s.phase = .unpack) :
    decBegin s = raise .badState 0x03#32 s := by
  rcases h with h | h | h | h <;> simpa [h] using decBegin_cases s

theorem decBegin_of_error {s : State} (h : s.phase = .error) : decBegin s = s := by
  simpa [h] using decBegin_cases s

/-- Settles O25: in IDLE first TREE_VALID and then the operands' checks decide, in the other states STATE alone. -/
theorem decBeginOpensARecord : Obligations.DecBeginOpensARecord := by
  intro s l t opened legal
  have hlegal (hl : 0 ≤ l) : legal ↔ t = trail l.toNat := by rw [trail_toNat hl]
  rw [exec_decBegin]
  refine ⟨fun hidle htrie hpos ht => ?opened, fun hidle htrie hzero ht => ?complete, fun hidle htrie hneg => ?badLength,
    fun hidle htrie hl ht => ?badCount, fun hidle htrie => ?noTrie, fun hbusy => ?busy, fun herror => ?ignored⟩
  case opened =>
    rw [decBegin_of_legal hidle htrie (recordFault_of_legal hpos.le ((hlegal hpos.le).mp ht)),
      openRecord_of_pos .decode (s := { s with done := false, pos := 0#16 }) hpos]
    rfl
  case complete =>
    have hcount : t = trail l.toNat := by rw [ht, hzero]; rfl
    rw [decBegin_of_legal hidle htrie (recordFault_of_legal hzero.ge hcount),
      openRecord_of_zero .decode (s := { s with done := false, pos := 0#16 }) hzero]
    rfl
  case badLength => rw [decBegin_of_recordFault hidle htrie (recordFault_of_negative hneg)]; rfl
  case badCount =>
    rw [hlegal hl] at ht
    rw [decBegin_of_recordFault hidle htrie (recordFault_of_bad_count hl ht)]
    rfl
  case noTrie => rw [decBegin_of_no_trie hidle htrie]; rfl
  case busy => rw [decBegin_of_busy hbusy]; rfl
  case ignored => rw [decBegin_of_error herror]

/-! ### A packed byte of a DECODE record (R143), against the walk of its bits from POS -/

/-- The walk that a packed byte asks for: its valid bits, from POS. -/
def State.byteWalk (s : State) (b : Byte) : Walk := walk s.node s.pos (bitsOfByte b s.validBits)

theorem decodeByte_of_no_room {s : State} (b : Byte) (h : s.params.outqDepth - s.outq.length < 8) :
    decodeByte b s = raise .dinOverrun (s.outqLevel.setWidth 32) s := by
  have hroom : s.hasRoom = false := (hasRoom_eq_false_iff s).mpr h
  simpa [hroom] using decodeByte_shape b s

/-- With room for 8 bytes the walk alone decides: it met an absent child, or every bit was stepped. -/
theorem decodeByte_of_room {s : State} (b : Byte) (h : 8 ≤ s.params.outqDepth - s.outq.length) :
    (s.byteWalk b).absent = true ∧
        decodeByte b s = raise .absentChild (s.walked (s.byteWalk b)).bitcnt (s.walked (s.byteWalk b))
    ∨ (s.byteWalk b).absent = false ∧ decodeByte b s = endOfByte (s.walked (s.byteWalk b)) := by
  rcases decodeByte_shape b s with ⟨hfull, -⟩ | ⟨-, w, -, hw, hcases⟩
  · rw [hasRoom_eq_false_iff] at hfull; omega
  · rwa [show s.byteWalk b = w from hw.symm]

theorem decodeByte_of_absent {s : State} (b : Byte) (room : 8 ≤ s.params.outqDepth - s.outq.length)
    (h : (s.byteWalk b).absent = true) :
    decodeByte b s = raise .absentChild (s.walked (s.byteWalk b)).bitcnt (s.walked (s.byteWalk b)) := by
  simpa [h] using decodeByte_of_room b room

theorem decodeByte_of_walked {s : State} (b : Byte) (room : 8 ≤ s.params.outqDepth - s.outq.length)
    (h : (s.byteWalk b).absent = false) : decodeByte b s = endOfByte (s.walked (s.byteWalk b)) := by
  simpa [h] using decodeByte_of_room b room

/-! The end of a byte (R143, R144): more bytes to come, or the last one, at the root or off it. -/

theorem endOfByte_of_more {s : State} (h : s.bytesLeft ≠ 1#29) :
    endOfByte s = { s with bytesLeft := s.bytesLeft - 1#29 } := by
  have hmore : s.bytesLeft - 1#29 ≠ 0#29 := sub_ne_zero.mpr h
  simpa [hmore] using endOfByte_cases s

theorem endOfByte_at_root {s : State} (h : s.bytesLeft = 1#29) (hroot : s.pos = 0#16) :
    endOfByte s = { s with bytesLeft := 0#29, phase := .idle, done := true } := by
  simpa [h, hroot] using endOfByte_cases s

theorem endOfByte_off_root {s : State} (h : s.bytesLeft = 1#29) (hoff : s.pos ≠ 0#16) :
    endOfByte s = raise .endNotAtRoot (s.pos.setWidth 32) { s with bytesLeft := 0#29 } := by
  simpa [h, hoff] using endOfByte_cases s

/-- Settles O28: the room in OUTQ, the walk of the byte's valid bits, BYTES_LEFT and the node reached decide the case. -/
theorem decodeByteStepsItsBits : Obligations.DecodeByteStepsItsBits := by
  intro s v hphase n w walked
  rw [exec_dinDecode v hphase]
  refine ⟨fun hfull => ?overrun, fun hroom habsent => ?absent, fun hroom hend hmore => ?more,
    fun hroom hend hlast hroot => ?atRoot, fun hroom hend hlast hoff => ?offRoot⟩
  case overrun => rw [decodeByte_of_no_room (dinByte v) hfull]; rfl
  case absent => rw [decodeByte_of_absent (dinByte v) hroom habsent]; rfl
  case more =>
    rw [decodeByte_of_walked (dinByte v) hroom hend]
    exact congrArg Host.Outcome.next (endOfByte_of_more hmore)
  case atRoot =>
    rw [decodeByte_of_walked (dinByte v) hroom hend]
    exact congrArg Host.Outcome.next (endOfByte_at_root hlast hroot)
  case offRoot =>
    rw [decodeByte_of_walked (dinByte v) hroom hend]
    exact congrArg Host.Outcome.next (endOfByte_off_root hlast hoff)

end Sys2Proof.Machine

/-! PROOFS. 43_control_and_io.md: NOP (R170), ABORT (R172), the pop of DOUT (R174) and the plain writes (R175), with the
writes that no register takes (30_encoding.md R61). -/

namespace Sys2Proof.Machine

/-! ### A write that no register takes -/

/-- The mask that selects a register (20_memory.md R41) keeps an aligned offset. -/
theorem and_mask_of_aligned {off : BitVec 8} : off.toNat % 4 = 0 → off &&& 0xFC = off := by
  revert off
  decide

theorem offset_of_selected {off : BitVec 8} {r : Reg} (h : Reg.ofOffset off = some r) : r.offset = off &&& 0xFC :=
  eq_of_beq (List.find?_some (p := fun x : Reg => x.offset == off &&& 0xFC) h)

/-- An aligned access selects the register whose offset is the address's bits [7:0]. -/
theorem toNat_offset_of_selected {a : Access} {r : Reg} (ha : a.addr % 4 = 0) (h : Reg.ofOffset a.offset = some r) :
    r.offset.toNat = a.addr % 256 := by
  have hlow : a.offset.toNat = a.addr % 256 := BitVec.toNat_ofNat a.addr 8
  rw [offset_of_selected h, and_mask_of_aligned (by omega), hlow]

/-- The offsets of CMD, INTEN, ARG0, ARG1, DIN and NODEIDX (30_encoding.md R61). -/
def writableOffsets : List Nat := [0x04, 0x14, 0x18, 0x1C, 0x20, 0x38]

/-- A write is ignored where the register selected, if there is one, is none of the six that can be written. -/
theorem decodeWrite_of_not_writable (p : Phase) (v : Word) {r : Option Reg}
    (h : ∀ x, r = some x → x.offset.toNat ∉ writableOffsets) :
    decodeWrite p r v = .rejected .ignoredWrite := by
  cases r with
  | none => rfl
  | some x =>
    have hx := h x rfl
    cases x
    case cmd | inten | arg0 | arg1 | din | nodeidx => exact absurd (by decide) hx
    all_goals rfl

theorem decode_of_not_writable (p : Phase) {addr : Nat} (v : Word) (ha : addr % 4 = 0)
    (h : addr % 256 ∉ writableOffsets) : decode p (.write addr 4 v) = .rejected .ignoredWrite := by
  have hwf : (Access.write addr 4 v).wellFormed = true := by
    simp [Access.wellFormed, Access.addr, Access.width, ha]
  have hwrite : decode p (.write addr 4 v) = decodeWrite p (Reg.ofOffset (Access.write addr 4 v).offset) v := if_pos hwf
  rw [hwrite]
  refine decodeWrite_of_not_writable p v fun x hx hmem => h ?_
  rwa [toNat_offset_of_selected (a := .write addr 4 v) ha hx] at hmem

/-- Settles O10: the plain writes are the model's own equations; any other write selects no register that takes it, and
the rejection writes nothing. -/
theorem plainWritesStoreMaskedOthersAreIgnored : Obligations.PlainWritesStoreMaskedOthersAreIgnored := by
  refine ⟨fun s v => ⟨rfl, rfl, rfl, rfl⟩, fun s addr v rest hp ha hother => ?_⟩
  rw [step_of_rejected hp (decode_of_not_writable s.phase v ha hother)]
  rfl

/-! ### NOP (R170) and ABORT (R172) -/

/-- Settles O3: the meaning of NOP answers the state it is given. -/
theorem nopChangesNothing : Obligations.NopChangesNothing := fun _ => rfl

theorem exec_abort (s : State) : exec .abort s = .next (giveUp s) := rfl

/-- Settles O4: `giveUp` writes the elements of R172, whatever STATE is. -/
theorem abortReturnsToIdleAndKeepsTheTrie : Obligations.AbortReturnsToIdleAndKeepsTheTrie := exec_abort

/-! ### DOUT (R174, layout 30_encoding.md R68) -/

theorem exec_doutPop (s : State) : exec .doutPop s = .next (doutRead s) := rfl

theorem doutRead_of_empty {s : State} (h : s.outq = []) : doutRead s = { s with answer := .data 0#32 } := by
  simp only [doutRead, h, State.respond]

/-- The word of a popped byte: VALID above DATA. -/
def doutWord (d : Byte) : Word := flag true 8 ||| field d 0

theorem doutRead_of_head {s : State} {d : Byte} {rest : List Byte} (h : s.outq = d :: rest) :
    doutRead s = { s with outq := rest, answer := .data (doutWord d) } := by
  simp only [doutRead, h, State.respond, doutWord]

theorem doutWord_data (d : Byte) : (doutWord d).extractLsb' 0 8 = d := by
  simp [doutWord, BitVec.extractLsb'_or]

theorem doutWord_valid (d : Byte) : (doutWord d).getLsbD 8 = true := by
  simp [doutWord, getLsbD_flag]

theorem doutWord_zeros (d : Byte) : (doutWord d).extractLsb' 9 23 = 0#23 := by
  simp [doutWord, BitVec.extractLsb'_or]

/-- Settles O13: the queue is empty, or has a head, which the answered word carries. -/
theorem doutReadPopsTheHead : Obligations.DoutReadPopsTheHead := by
  refine ⟨fun s hempty => ?_, fun s d rest hhead => ?_⟩
  · rw [exec_doutPop, doutRead_of_empty hempty]
  · exact ⟨doutWord d, congrArg Host.Outcome.next (doutRead_of_head hhead),
      doutWord_data d, doutWord_valid d, doutWord_zeros d⟩

end Sys2Proof.Machine

/-! PROOFS. 60_exceptions.md: the interrupt line (R208). First its sources as the flags of STATUS, then each flag spelled
out. -/

namespace Sys2Proof.Machine

/-! ### The interrupt line (R208) -/

/-- Each source of the line is a bit of INTEN with the flag it enables. -/
theorem irq_iff (s : State) : s.irq = true ↔
    (s.inten.getLsbD 0 = true ∧ s.done = true) ∨ (s.inten.getLsbD 1 = true ∧ s.phase = .error)
    ∨ (s.inten.getLsbD 2 = true ∧ s.dinRdy = true) ∨ (s.inten.getLsbD 3 = true ∧ s.outAvail = true) := by
  simp only [State.irq, Bool.or_eq_true, Bool.and_eq_true, beq_iff_eq, or_assoc]

/-- Settles O14: DIN_RDY and OUT_AVAIL hold where R25 says. -/
theorem interruptLineIsItsFourSources : Obligations.InterruptLineIsItsFourSources := by
  intro s
  rw [irq_iff, dinRdy_iff, outAvail_iff]

end Sys2Proof.Machine

/-! PROOFS. 70_reset_and_hazards.md: the state after reset (R240). First what a read of a register that is one state element
answers (43_control_and_io.md R176); then the words that are composed, with the values of reset; last the statement. -/

namespace Sys2Proof.Machine

/-! ### Reads of one state element (R176) -/

theorem exec_rInten (s : State) : exec .rInten s = .next { s with answer := .data (s.inten.setWidth 32) } := rfl

theorem exec_rArg0 (s : State) : exec .rArg0 s = .next { s with answer := .data s.arg0 } := rfl

theorem exec_rArg1 (s : State) : exec .rArg1 s = .next { s with answer := .data s.arg1 } := rfl

theorem exec_rBitcnt (s : State) : exec .rBitcnt s = .next { s with answer := .data s.bitcnt } := rfl

theorem exec_rOutcnt (s : State) : exec .rOutcnt s = .next { s with answer := .data s.outcnt } := rfl

theorem exec_rPos (s : State) : exec .rPos s = .next { s with answer := .data (s.pos.setWidth 32) } := rfl

theorem exec_rNodecnt (s : State) : exec .rNodecnt s = .next { s with answer := .data (s.nodecnt.setWidth 32) } := rfl

theorem exec_rNodeidx (s : State) : exec .rNodeidx s = .next { s with answer := .data (s.nodeidx.setWidth 32) } := rfl

/-! ### The composed values after reset (R240) -/

/-- The state after reset of an implementation with the parameters `p`. -/
def resetWith (p : Params) : State := { State.reset with params := p }

theorem irq_of_inten_zero {s : State} (h : s.inten = 0#4) : s.irq = false := by
  simp [State.irq, h]

theorem nodeShown_of_nodecnt_zero {s : State} (h : s.nodecnt = 0#17) : ¬ s.nodeShown = true := by
  simp [nodeShown_iff, h]

/-- AT_ROOT alone is set: in IDLE DIN_RDY does not look at the room in OUTQ, so the parameters make no difference. -/
theorem statusWord_resetWith (p : Params) : (resetWith p).statusWord = 0x00000100#32 :=
  calc (resetWith p).statusWord
    _ = field (phaseCode .idle) 0 ||| flag false 4 ||| flag false 5 ||| flag false 6 ||| flag false 7
          ||| flag true 8 ||| field 0#16 16 := rfl
    _ = 0x00000100#32 := by decide

/-- No node is allocated, so the selected one is not shown. -/
theorem nodedatWords_resetWith (p : Params) :
    (resetWith p).nodedat0Word = 0#32 ∧ (resetWith p).nodedat1Word = 0#32 :=
  nodedatWords_of_not_shown (nodeShown_of_nodecnt_zero rfl)

/-! ### The register view after reset (R240) -/

/-- Settles O1: the elements by the record itself, CONFIG for the parameters, STATUS by its fields; of the others each
shows an element that is 0, and ERR, DOUT and the node words have no fault, no byte and no node to show. -/
theorem resetLeavesTheTabledValues : Obligations.ResetLeavesTheTabledValues := by
  intro p hp
  change _ ∧ _ ∧ exec .rStatus (resetWith p) = _ ∧ ∀ i, _ → exec i (resetWith p) = _
  refine ⟨?elements, configReadShowsTheParameters (resetWith p) hp, ?status, ?others⟩
  case elements =>
    have hirq : (resetWith p).irq = false := irq_of_inten_zero rfl
    exact ⟨rfl, rfl, rfl, rfl, rfl, rfl, rfl, rfl, rfl, rfl, rfl, rfl, rfl, rfl, rfl, rfl, rfl, rfl, rfl, rfl, rfl, rfl, hirq⟩
  case status => rw [exec_rStatus, statusWord_resetWith]; rfl
  case others =>
    obtain ⟨hnode0, hnode1⟩ := nodedatWords_resetWith p
    rintro i (rfl | rfl | rfl | rfl | rfl | rfl | rfl | rfl | rfl | rfl | rfl | rfl | rfl)
    · rw [exec_rErr, errWord_of_none rfl]; rfl
    · exact exec_rErrinfo _
    · exact exec_rInten _
    · exact exec_rArg0 _
    · exact exec_rArg1 _
    · rw [exec_doutPop, doutRead_of_empty rfl]; rfl
    · exact exec_rBitcnt _
    · exact exec_rOutcnt _
    · exact exec_rPos _
    · exact exec_rNodecnt _
    · exact exec_rNodeidx _
    · rw [exec_rNodedat0, hnode0]; rfl
    · rw [exec_rNodedat1, hnode1]; rfl

end Sys2Proof.Machine

/-! PROOFS. 30_encoding.md: decoding against encoding, both ways (R60, R77, R79), and the words written out from the spec.
First what an access to a register decodes to; then that nothing else decodes. -/

namespace Sys2Proof

/-! ### An access to the register at an offset -/

theorem Reg.ofOffset_offset (r : Reg) : Reg.ofOffset r.offset = some r := by
  cases r <;> rfl

/-- Register offsets are aligned and within the window (R61). -/
theorem Reg.offset_aligned (r : Reg) : r.offset.toNat % 4 = 0 := by
  cases r <;> rfl

theorem Access.offset_of_addr {base : Nat} (h : base % 256 = 0) (r : Reg) (a : Access)
    (ha : a.addr = base + r.offset.toNat) : a.offset = r.offset := by
  refine BitVec.eq_of_toNat_eq ?_
  have hlt := r.offset.isLt
  rw [Access.offset, BitVec.toNat_ofNat, ha]
  omega

theorem decode_write {base : Nat} (h : base % 256 = 0) (p : Phase) (r : Reg) (v : Word) :
    decode p (r.write base v) = decodeWrite p (some r) v := by
  have hform : (r.write base v).wellFormed = true := (Laws.EncodingInWindow.write_inWindow r v base h).1
  have hreg : Reg.ofOffset (r.write base v).offset = some r := by
    rw [Access.offset_of_addr h r _ rfl, Reg.ofOffset_offset]
  rw [← hreg]
  exact if_pos hform

theorem decode_read {base : Nat} (h : base % 256 = 0) (p : Phase) (r : Reg) :
    decode p (r.read base) = decodeRead (some r) := by
  have hform : (r.read base).wellFormed = true := (Laws.EncodingInWindow.read_inWindow r base h).1
  have hreg : Reg.ofOffset (r.read base).offset = some r := by
    rw [Access.offset_of_addr h r _ rfl, Reg.ofOffset_offset]
  rw [← hreg]
  exact if_pos hform

/-- The base of the window that an access lies in. -/
def Access.base (a : Access) : Nat := a.addr - a.addr % 256

theorem Access.base_mod (a : Access) : a.base % 256 = 0 := by
  rw [Access.base]
  omega

/-- A whole-word access is the access to the register at its offset, in its window. -/
theorem write_eq_of_offset {addr : Nat} {v : Word} {r : Reg} (h : r.offset.toNat = addr % 256) :
    Access.write addr 4 v = r.write (Access.write addr 4 v).base v := by
  rw [Reg.write, Access.base, h, Access.addr, Nat.sub_add_cancel (Nat.mod_le addr 256)]

theorem read_eq_of_offset {addr : Nat} {r : Reg} (h : r.offset.toNat = addr % 256) :
    Access.read addr 4 = r.read (Access.read addr 4).base := by
  rw [Reg.read, Access.base, h, Access.addr, Nat.sub_add_cancel (Nat.mod_le addr 256)]

theorem decode_write_of_offset (p : Phase) {addr : Nat} (v : Word) {r : Reg} (h : r.offset.toNat = addr % 256) :
    decode p (.write addr 4 v) = decodeWrite p (some r) v := by
  rw [write_eq_of_offset h, decode_write (Access.base_mod _)]

/-! ### What decodes at all -/

/-- An access that is not refused by the port: its address is aligned and its width is 4. -/
theorem Access.wellFormed_iff (a : Access) : a.wellFormed = true ↔ a.addr % 4 = 0 ∧ a.width = 4 := by
  simp [Access.wellFormed]

/-- Every access is refused by the port, selects no register, or is the access to a register in its window. -/
theorem decode_cases (p : Phase) (a : Access) :
    (∃ j, (j = .portError ∨ j = .ignoredWrite ∨ j = .zeroRead) ∧ decode p a = .rejected j)
    ∨ (∃ r v, a = Reg.write a.base r v ∧ decode p a = decodeWrite p (some r) v)
    ∨ ∃ r, a = Reg.read a.base r ∧ decode p a = decodeRead (some r) := by
  by_cases hform : a.wellFormed = true
  case neg => exact .inl ⟨_, .inl rfl, Machine.decode_of_not_wellFormed p (Bool.not_eq_true _ ▸ hform)⟩
  obtain ⟨haddr, hwidth⟩ := a.wellFormed_iff.mp hform
  rw [decode.eq_def, if_pos hform]
  cases hreg : Reg.ofOffset a.offset with
  | none =>
    cases a with
    | write => exact .inl ⟨_, .inr (.inl rfl), rfl⟩
    | read => exact .inl ⟨_, .inr (.inr rfl), rfl⟩
  | some r =>
    have hoff := Machine.toNat_offset_of_selected haddr hreg
    cases a with
    | write addr width v => cases hwidth; exact .inr (.inl ⟨r, v, write_eq_of_offset hoff, rfl⟩)
    | read addr width => cases hwidth; exact .inr (.inr ⟨r, read_eq_of_offset hoff, rfl⟩)

/-- A command word is one of the seven of R64, or illegal. -/
theorem decodeCommand_cases (v : Word) :
    (v = 0#32 ∧ decodeCommand v = .instr .nop) ∨ (v = 1#32 ∧ decodeCommand v = .instr .tblBegin)
    ∨ (v = 2#32 ∧ decodeCommand v = .instr .tblEntry) ∨ (v = 3#32 ∧ decodeCommand v = .instr .decBegin)
    ∨ (v = 4#32 ∧ decodeCommand v = .instr .unpkBegin) ∨ (v = 5#32 ∧ decodeCommand v = .instr .abort)
    ∨ (v = 6#32 ∧ decodeCommand v = .instr .softReset)
    ∨ (6 < v.toNat ∧ decodeCommand v = .rejected (.badCommand v)) := by
  rcases Nat.lt_or_ge 6 v.toNat with hbad | hlegal
  · have hne (n : Nat) (hn : n ≤ 6) : v ≠ BitVec.ofNat 32 n := by
      rintro rfl
      rw [BitVec.toNat_ofNat, Nat.mod_eq_of_lt (by omega)] at hbad
      omega
    simp only [decodeCommand, hbad, hne 0, hne 1, hne 2, hne 3, hne 4, hne 5, hne 6, Nat.reduceLeDiff, if_false]
    simp
  · obtain ⟨n, rfl⟩ : ∃ n : Fin 7, v = BitVec.ofNat 32 n :=
      ⟨⟨v.toNat, by omega⟩, by simp⟩
    revert n
    decide

/-- A write that decodes to an instruction is that instruction's encoding. -/
theorem encode_of_decodeWrite (base : Nat) {p : Phase} {r : Reg} {v : Word} {i : Instr}
    (h : decodeWrite p (some r) v = .instr i) : i.wellFormed p = true ∧ encode base i = r.write base v := by
  cases r
  case cmd =>
    replace h : decodeCommand v = .instr i := h
    rcases decodeCommand_cases v with ⟨rfl, e⟩ | ⟨rfl, e⟩ | ⟨rfl, e⟩ | ⟨rfl, e⟩ | ⟨rfl, e⟩ | ⟨rfl, e⟩ | ⟨rfl, e⟩ | ⟨-, e⟩ <;>
      cases e.symm.trans h <;> exact ⟨rfl, rfl⟩
  case din =>
    cases p <;> cases h <;> exact ⟨rfl, rfl⟩
  case arg0 | arg1 | inten | nodeidx => cases h; exact ⟨rfl, rfl⟩
  all_goals cases h

/-- A read that decodes to an instruction is that instruction's encoding. -/
theorem encode_of_decodeRead (base : Nat) (p : Phase) {r : Reg} {i : Instr}
    (h : decodeRead (some r) = .instr i) : i.wellFormed p = true ∧ encode base i = r.read base := by
  cases r <;> cases h <;> exact ⟨rfl, rfl⟩

/-! ### The statements -/

/-- Settles O19: the encoding selects its register, whose row the word or STATE selects. -/
theorem decodeOfEncode : Obligations.DecodeOfEncode := by
  intro base p i hbase hrow
  cases i
  case dinEntry v | dinDecode v | dinUnpack v =>
    cases eq_of_beq hrow
    exact decode_write hbase _ .din v
  case dinUnexpected v =>
    have hphase : p = .idle ∨ p = .load := by simpa [Instr.wellFormed] using hrow
    rcases hphase with rfl | rfl <;> exact decode_write hbase _ .din v
  case nop | tblBegin | tblEntry | decBegin | unpkBegin | abort | softReset => exact decode_write hbase p .cmd _
  case wArg0 v => exact decode_write hbase p .arg0 v
  case wArg1 v => exact decode_write hbase p .arg1 v
  case wInten v => exact decode_write hbase p .inten v
  case wNodeidx v => exact decode_write hbase p .nodeidx v
  all_goals exact decode_read hbase p _

/-- Settles O20: the access is a register's, and each register's rows are encoded as accesses to it. -/
theorem encodeOfDecode : Obligations.EncodeOfDecode := by
  intro p a i h
  rcases decode_cases p a with ⟨j, -, hd⟩ | ⟨r, v, ha, hd⟩ | ⟨r, ha, hd⟩
  · cases hd.symm.trans h
  · obtain ⟨hwf, henc⟩ := encode_of_decodeWrite a.base (hd.symm.trans h)
    exact ⟨hwf, henc.trans ha.symm⟩
  · obtain ⟨hwf, henc⟩ := encode_of_decodeRead a.base p (hd.symm.trans h)
    exact ⟨hwf, henc.trans ha.symm⟩

/-- Settles O18: the words are closed, and the decoder runs. -/
theorem wordsOfProgramP1Decode : Obligations.WordsOfProgramP1Decode := by
  refine ⟨?_, ?_, ?_, ?_, ?_, ?_⟩ <;> decide

end Sys2Proof

/-! PROOFS. 20_memory.md R48, R50 and the steps that STATE or the offset alone decides: reset (70_reset_and_hazards.md R240,
R241), reads of 0 (30_encoding.md R61), illegal command words (R65), and what ERROR ignores (60_exceptions.md R205). -/

namespace Sys2Proof.Machine

/-! ### One step, by the oldest pending event -/

theorem step_of_no_event {s : State} (hp : s.pending = []) : step s = .next s := by
  simp only [step, fetch, hp]

theorem step_of_reset {s : State} {inFlight : Option Access} {rest : List HostEvent}
    (hp : s.pending = .resetInput inFlight :: rest) :
    step s = .next (resetInput { s with pending := rest, answer := .done }) := by
  simp only [step, fetch, hp, react]

theorem step_of_instr {s : State} {a : Access} {rest : List HostEvent} {i : Instr}
    (hp : s.pending = .access a :: rest) (hd : decode s.phase a = .instr i) :
    step s = exec i { s with pending := rest, answer := .done } := by
  simp only [step, fetch, hp, react, hd]

/-- Settles O16. -/
theorem nothingChangesBetweenActions : Obligations.NothingChangesBetweenActions := fun _ => step_of_no_event

/-- Settles O15. -/
theorem stepRunsTheDecodedInstruction : Obligations.StepRunsTheDecodedInstruction := fun _ _ _ _ => step_of_instr

/-- Settles O17: `exec` answers `after`, and a step is `exec`, `rejected` or the reset. -/
theorem everyActionCompletes : Obligations.EveryActionCompletes := by
  refine ⟨fun i s => ⟨after i s, exec_after i s⟩, fun s => ?_⟩
  cases hp : s.pending with
  | nil => exact ⟨s, step_of_no_event hp⟩
  | cons e rest =>
    cases e with
    | resetInput inFlight => exact ⟨_, step_of_reset hp⟩
    | access a =>
      cases hd : decode s.phase a with
      | instr i => exact ⟨_, (step_of_instr hp hd).trans (exec_after i _)⟩
      | rejected r => exact ⟨_, step_of_rejected hp hd⟩

/-! ### Reset (R240, R241) -/

/-- Settles O2: `resetBlock` is R240's record, and the reset input takes the port's answer away. -/
theorem softResetAndResetInputReset : Obligations.SoftResetAndResetInputReset :=
  ⟨fun _ => rfl, fun _ _ _ hp => step_of_reset hp⟩

/-! ### Reads of one element and reads of 0 -/

/-- Settles O5. -/
theorem plainReadsAnswerTheirElement : Obligations.PlainReadsAnswerTheirElement := fun s =>
  ⟨exec_rErrinfo s, exec_rInten s, exec_rArg0 s, exec_rArg1 s, exec_rBitcnt s, exec_rOutcnt s, exec_rPos s,
    exec_rNodecnt s, exec_rNodeidx s⟩

/-- A read decodes to no instruction where the register selected, if there is one, is CMD or DIN. -/
theorem decodeRead_of_not_readable {r : Option Reg} (h : ∀ x, r = some x → x = .cmd ∨ x = .din) :
    decodeRead r = .rejected .zeroRead := by
  cases r with
  | none => rfl
  | some x => rcases h x rfl with rfl | rfl <;> rfl

/-- CMD's offset, DIN's, and all from 0x44 up. -/
theorem register_of_zero_offset {n : Nat} (h : n = 0x04 ∨ n = 0x20 ∨ 0x44 ≤ n) {r : Reg} (hr : r.offset.toNat = n) :
    r = .cmd ∨ r = .din := by
  subst hr
  revert h
  cases r <;> decide

/-- Settles O11: such a read selects CMD, DIN or no register, and the rejection answers 0. -/
theorem writeOnlyAndReservedOffsetsReadZero : Obligations.WriteOnlyAndReservedOffsetsReadZero := by
  intro s addr rest hp ha hoff
  have hform : (Access.read addr 4).wellFormed = true := (Access.wellFormed_iff _).mpr ⟨ha, rfl⟩
  have hread : decode s.phase (.read addr 4) = decodeRead (Reg.ofOffset (Access.read addr 4).offset) := if_pos hform
  have hzero : decode s.phase (.read addr 4) = .rejected .zeroRead := by
    rw [hread]
    exact decodeRead_of_not_readable fun r hr =>
      register_of_zero_offset hoff (toNat_offset_of_selected (a := .read addr 4) ha hr)
  exact step_of_rejected hp hzero

/-! ### Words written to CMD and DIN -/

theorem decode_write_cmd (p : Phase) {addr : Nat} (v : Word) (h : addr % 256 = 0x04) :
    decode p (.write addr 4 v) = decodeCommand v :=
  decode_write_of_offset p v (r := .cmd) h.symm

theorem decode_write_din (p : Phase) {addr : Nat} (v : Word) (h : addr % 256 = 0x20) :
    decode p (.write addr 4 v) = decodeDin p v :=
  decode_write_of_offset p v (r := .din) h.symm

theorem decodeCommand_of_illegal {v : Word} (h : 0x06 < v.toNat) : decodeCommand v = .rejected (.badCommand v) := by
  rcases decodeCommand_cases v with ⟨rfl, -⟩ | ⟨rfl, -⟩ | ⟨rfl, -⟩ | ⟨rfl, -⟩ | ⟨rfl, -⟩ | ⟨rfl, -⟩ | ⟨rfl, -⟩ | ⟨-, e⟩
  case inr.inr.inr.inr.inr.inr.inr => exact e
  all_goals exact absurd h (by decide)

/-- Settles O21: the decoder rejects the word, and STATE decides whether that raises. -/
theorem illegalCommandWordRaisesBadCommand : Obligations.IllegalCommandWordRaisesBadCommand := by
  intro s addr v rest hp haddr hv
  rw [step_of_rejected hp ((decode_write_cmd s.phase v haddr).trans (decodeCommand_of_illegal hv))]
  exact ⟨fun h => congrArg Host.Outcome.next (if_neg h), fun h => congrArg Host.Outcome.next (if_pos h)⟩

/-- A byte is the low eight bits of its word (R67). -/
theorem dinByte_congr {v w : Word} (h : v.toNat % 256 = w.toNat % 256) : dinByte v = dinByte w := by
  refine BitVec.eq_of_toNat_eq ?_
  simpa [dinByte] using h

/-- Settles O22: all four rows are `dinWrite`, which sees the word through its byte. -/
theorem dinIgnoresUpperBits : Obligations.DinIgnoresUpperBits := by
  intro s v w h
  have hwrite : dinWrite v s = dinWrite w s := by simp only [dinWrite, dinByte_congr h]
  have hnext : (Host.Outcome.next (dinWrite v s) : Result) = .next (dinWrite w s) := by rw [hwrite]
  exact ⟨hnext, hnext, hnext, hnext⟩

theorem dinWrite_of_error (v : Word) {s : State} (h : s.phase = .error) : dinWrite v s = s := by
  simp only [dinWrite, h]

theorem dinWrite_of_unexpected (v : Word) {s : State} (h : s.phase = .idle ∨ s.phase = .load) :
    dinWrite v s = raise .dinUnexpected ((dinByte v).setWidth 32) s := by
  rcases h with h | h <;> simp only [dinWrite, h]

/-- Settles O32. -/
theorem dinIsDispatchedOnState : Obligations.DinIsDispatchedOnState := fun _ v =>
  ⟨fun h => congrArg Host.Outcome.next (dinWrite_of_unexpected v h),
    fun h => congrArg Host.Outcome.next (dinWrite_of_error v h), rfl, rfl, rfl⟩

/-! ### ERROR (R205) -/

/-- In ERROR a command other than ABORT and SOFT_RESET leaves the state, whether its word is legal or not. -/
theorem step_of_command_in_error {s : State} {addr : Nat} {v : Word} {rest : List HostEvent} (herror : s.phase = .error)
    (hp : s.pending = .access (.write addr 4 v) :: rest) (haddr : addr % 256 = 0x04) (habort : v ≠ 0x05#32)
    (hreset : v ≠ 0x06#32) : step s = .next { s with pending := rest, answer := .done } := by
  have hd := decode_write_cmd s.phase v haddr
  have hignored : ({ s with pending := rest, answer := .done } : State).phase = .error := herror
  rcases decodeCommand_cases v with ⟨-, e⟩ | ⟨-, e⟩ | ⟨-, e⟩ | ⟨-, e⟩ | ⟨-, e⟩ | ⟨h, -⟩ | ⟨h, -⟩ | ⟨-, e⟩
  case inr.inr.inr.inr.inr.inl => exact absurd h habort
  case inr.inr.inr.inr.inr.inr.inl => exact absurd h hreset
  case inr.inr.inr.inr.inr.inr.inr =>
    rw [step_of_rejected hp (hd.trans e), rejected, if_pos hignored]
  all_goals rw [step_of_instr hp (hd.trans e)]
  · rfl
  · rw [exec_tblBegin, tblBegin_of_error hignored]
  · rw [exec_tblEntry, tblEntry_of_error hignored]
  · rw [exec_decBegin, decBegin_of_error hignored]
  · rw [exec_unpkBegin, unpkBegin_of_error hignored]

/-- Settles O38: a command is ignored by its own rule, a byte by the decoder. -/
theorem errorIgnoresCommandsAndData : Obligations.ErrorIgnoresCommandsAndData := by
  rintro s addr v rest herror hp (⟨haddr, habort, hreset⟩ | haddr)
  · exact step_of_command_in_error herror hp haddr habort hreset
  · have hd : decode s.phase (.write addr 4 v) = .rejected .dinInError := by
      rw [decode_write_din s.phase v haddr, herror]
      rfl
    exact step_of_rejected hp hd

end Sys2Proof.Machine

/-! PROOFS. 60_exceptions.md: the causes and where they come from (R200, R201, R203 to R206), the fault record (10_state.md
R23) and the readiness flag (70_reset_and_hazards.md R243). First what the compound operations keep; then every way into
ERROR, said once; the statements are read off it. -/

namespace Sys2Proof.Machine

/-! ### The fields that the compound operations keep -/

@[simp] theorem closeEntry_keeps (s : State) :
    (closeEntry s).arg0 = s.arg0 ∧ (closeEntry s).arg1 = s.arg1 ∧ (closeEntry s).nodes = s.nodes
    ∧ (closeEntry s).nodecnt = s.nodecnt ∧ (closeEntry s).eSym = s.eSym ∧ (closeEntry s).eLen = s.eLen
    ∧ (closeEntry s).wpos = s.wpos ∧ (closeEntry s).pos = s.pos ∧ (closeEntry s).bitlen = s.bitlen
    ∧ (closeEntry s).lastvalid = s.lastvalid ∧ (closeEntry s).bytesLeft = s.bytesLeft ∧ (closeEntry s).bitcnt = s.bitcnt
    ∧ (closeEntry s).outcnt = s.outcnt ∧ (closeEntry s).outq = s.outq ∧ (closeEntry s).errCause = s.errCause
    ∧ (closeEntry s).errInfo = s.errInfo ∧ (closeEntry s).inten = s.inten ∧ (closeEntry s).nodeidx = s.nodeidx
    ∧ (closeEntry s).params = s.params := by
  rcases closeEntry_cases s with ⟨-, e⟩ | ⟨-, e⟩ <;> simp [e]

@[simp] theorem openRecord_keeps (p : Phase) (s : State) :
    (openRecord p s).arg0 = s.arg0 ∧ (openRecord p s).arg1 = s.arg1 ∧ (openRecord p s).nodes = s.nodes
    ∧ (openRecord p s).nodecnt = s.nodecnt ∧ (openRecord p s).treeValid = s.treeValid ∧ (openRecord p s).remain = s.remain
    ∧ (openRecord p s).eSym = s.eSym ∧ (openRecord p s).eLen = s.eLen ∧ (openRecord p s).eLeft = s.eLeft
    ∧ (openRecord p s).wpos = s.wpos ∧ (openRecord p s).pos = s.pos ∧ (openRecord p s).outq = s.outq
    ∧ (openRecord p s).errCause = s.errCause ∧ (openRecord p s).errInfo = s.errInfo ∧ (openRecord p s).inten = s.inten
    ∧ (openRecord p s).nodeidx = s.nodeidx ∧ (openRecord p s).params = s.params := by
  rcases openRecord_cases p s with ⟨-, e⟩ | ⟨-, e⟩ <;> simp [e]

@[simp] theorem endOfByte_keeps (s : State) :
    (endOfByte s).arg0 = s.arg0 ∧ (endOfByte s).arg1 = s.arg1 ∧ (endOfByte s).nodes = s.nodes
    ∧ (endOfByte s).nodecnt = s.nodecnt ∧ (endOfByte s).treeValid = s.treeValid ∧ (endOfByte s).remain = s.remain
    ∧ (endOfByte s).eSym = s.eSym ∧ (endOfByte s).eLen = s.eLen ∧ (endOfByte s).eLeft = s.eLeft
    ∧ (endOfByte s).wpos = s.wpos ∧ (endOfByte s).pos = s.pos ∧ (endOfByte s).bitlen = s.bitlen
    ∧ (endOfByte s).lastvalid = s.lastvalid ∧ (endOfByte s).bitcnt = s.bitcnt ∧ (endOfByte s).outcnt = s.outcnt
    ∧ (endOfByte s).outq = s.outq ∧ (endOfByte s).inten = s.inten ∧ (endOfByte s).nodeidx = s.nodeidx
    ∧ (endOfByte s).params = s.params := by
  rcases endOfByte_cases s with ⟨-, e⟩ | ⟨-, -, e⟩ | ⟨-, -, e⟩ <;> simp [e]

@[simp] theorem walked_keeps (s : State) (w : Walk) :
    (s.walked w).phase = s.phase ∧ (s.walked w).treeValid = s.treeValid ∧ (s.walked w).done = s.done
    ∧ (s.walked w).arg0 = s.arg0 ∧ (s.walked w).arg1 = s.arg1 ∧ (s.walked w).nodes = s.nodes
    ∧ (s.walked w).nodecnt = s.nodecnt ∧ (s.walked w).remain = s.remain ∧ (s.walked w).eSym = s.eSym
    ∧ (s.walked w).eLen = s.eLen ∧ (s.walked w).eLeft = s.eLeft ∧ (s.walked w).wpos = s.wpos
    ∧ (s.walked w).bitlen = s.bitlen ∧ (s.walked w).lastvalid = s.lastvalid ∧ (s.walked w).bytesLeft = s.bytesLeft
    ∧ (s.walked w).errCause = s.errCause ∧ (s.walked w).errInfo = s.errInfo ∧ (s.walked w).inten = s.inten
    ∧ (s.walked w).nodeidx = s.nodeidx ∧ (s.walked w).params = s.params := by
  simp [State.walked]

@[simp] theorem unpacked_keeps (s : State) (bits : List Bool) :
    (s.unpacked bits).phase = s.phase ∧ (s.unpacked bits).treeValid = s.treeValid ∧ (s.unpacked bits).done = s.done
    ∧ (s.unpacked bits).arg0 = s.arg0 ∧ (s.unpacked bits).arg1 = s.arg1 ∧ (s.unpacked bits).nodes = s.nodes
    ∧ (s.unpacked bits).nodecnt = s.nodecnt ∧ (s.unpacked bits).remain = s.remain ∧ (s.unpacked bits).eSym = s.eSym
    ∧ (s.unpacked bits).eLen = s.eLen ∧ (s.unpacked bits).eLeft = s.eLeft ∧ (s.unpacked bits).wpos = s.wpos
    ∧ (s.unpacked bits).pos = s.pos ∧ (s.unpacked bits).bitlen = s.bitlen ∧ (s.unpacked bits).lastvalid = s.lastvalid
    ∧ (s.unpacked bits).bytesLeft = s.bytesLeft ∧ (s.unpacked bits).errCause = s.errCause
    ∧ (s.unpacked bits).errInfo = s.errInfo ∧ (s.unpacked bits).inten = s.inten
    ∧ (s.unpacked bits).nodeidx = s.nodeidx ∧ (s.unpacked bits).params = s.params := by
  simp [State.unpacked]

/-- Placing a Leaf keeps every field but the node memory and NODECNT. -/
theorem FinalEffect.keeps {s s1 : State} (h : FinalEffect s s1) :
    s1.phase = s.phase ∧ s1.treeValid = s.treeValid ∧ s1.done = s.done ∧ s1.arg0 = s.arg0 ∧ s1.arg1 = s.arg1
    ∧ s1.remain = s.remain ∧ s1.eSym = s.eSym ∧ s1.eLen = s.eLen ∧ s1.eLeft = s.eLeft ∧ s1.wpos = s.wpos
    ∧ s1.pos = s.pos ∧ s1.bitlen = s.bitlen ∧ s1.lastvalid = s.lastvalid ∧ s1.bytesLeft = s.bytesLeft
    ∧ s1.bitcnt = s.bitcnt ∧ s1.outcnt = s.outcnt ∧ s1.outq = s.outq ∧ s1.errCause = s.errCause
    ∧ s1.errInfo = s.errInfo ∧ s1.inten = s.inten ∧ s1.nodeidx = s.nodeidx ∧ s1.params = s.params := by
  cases h <;> simp

/-! ### Every way into ERROR -/

/-- The next states of the instructions that enter ERROR: what the rule did before the raise, then fault entry. -/
inductive FaultEffect (s : State) : Instr → State → Prop
  | badState {i : Instr} (info : Word) (row : IsOperationCommand i) : FaultEffect s i (raise .badState info s)
  | badCount (phase : s.phase = .idle) : FaultEffect s .tblBegin (raise .badCodeCount s.arg0 { s with treeValid := false })
  | badLength (phase : s.phase = .load) : FaultEffect s .tblEntry (raise .badCodeLength s.arg1 s)
  | badRecord {i : Instr} (cause : Cause) (info : Word) (row : i = .decBegin ∨ i = .unpkBegin) (phase : s.phase = .idle)
      (names : cause = .badBitLength ∨ cause = .badTrailCount) : FaultEffect s i (raise cause info s)
  | entryFault {i : Instr} (cause : Cause) (info : Word) (row : IsDin i) (phase : s.phase = .entry)
      (names : cause = .badBitChar ∨ cause = .prefixConflict ∨ cause = .nodeExhausted) :
      FaultEffect s i (raise cause info s)
  | overrun {i : Instr} (info : Word) (row : IsDin i) (phase : s.phase = .decode ∨ s.phase = .unpack)
      (noRoom : s.hasRoom = false) : FaultEffect s i (raise .dinOverrun info s)
  | absentChild {i : Instr} (w : Walk) (row : IsDin i) (phase : s.phase = .decode) :
      FaultEffect s i (raise .absentChild (s.walked w).bitcnt (s.walked w))
  | endNotAtRoot {i : Instr} (w : Walk) (row : IsDin i) (phase : s.phase = .decode) :
      FaultEffect s i (raise .endNotAtRoot (w.pos.setWidth 32) { s.walked w with bytesLeft := 0#29 })
  | unexpected {i : Instr} (info : Word) (row : IsDin i) (phase : s.phase = .idle ∨ s.phase = .load) :
      FaultEffect s i (raise .dinUnexpected info s)

/-- An effect that ends in ERROR from another STATE is one of the faults. -/
theorem Effect.fault {s t : State} {i : Instr} (h : Effect s i t) (hs : s.phase ≠ .error) (ht : t.phase = .error) :
    FaultEffect s i t := by
  cases h with
  | badState info row _ => exact .badState info row
  | badCount phase => exact .badCount phase
  | badLength phase => exact .badLength phase
  | badRecord cause info row phase names => exact .badRecord cause info row phase names
  | entryFault cause info row phase names => exact .entryFault cause info row phase names
  | overrun info row phase noRoom => exact .overrun info row phase noRoom
  | absentChild w _ row phase => exact .absentChild w row phase
  | unexpected info row phase => exact .unexpected info row phase
  | decoded w _ row phase =>
    rcases endOfByte_cases (s.walked w) with ⟨-, e⟩ | ⟨-, -, e⟩ | ⟨-, -, e⟩ <;> rw [e] at ht ⊢
    · exact absurd ht hs
    · cases ht
    · exact .endNotAtRoot w row phase
  | closed s1 =>
    rcases closeEntry_cases s1 with ⟨-, e⟩ | ⟨-, e⟩ <;> rw [e] at ht <;> cases ht
  | decodeOpened =>
    rcases openRecord_cases .decode { s with done := false, pos := 0#16 } with ⟨-, e⟩ | ⟨-, e⟩ <;> rw [e] at ht
    · exact absurd ht hs
    · cases ht
  | unpackOpened =>
    rcases openRecord_cases .unpack { s with done := false } with ⟨-, e⟩ | ⟨-, e⟩ <;> rw [e] at ht
    · exact absurd ht hs
    · cases ht
  | loadOpened | entryOpened | aborted | wasReset | unpackedLast => cases ht
  | _ => exact absurd ht hs

theorem FaultEffect.row {s t : State} {i : Instr} (h : FaultEffect s i t) : IsOperationCommand i ∨ IsDin i := by
  cases h with
  | badState _ row => exact .inl row
  | badCount => exact .inl (.inl rfl)
  | badLength => exact .inl (.inr (.inl rfl))
  | badRecord _ _ row => exact .inl (.inr (.inr row))
  | entryFault _ _ row | overrun _ row | absentChild _ row | endNotAtRoot _ row | unexpected _ row => exact .inr row

/-- Settles O33: each fault is fault entry on the state its rule had reached. -/
theorem faultEntryWritesNothingElse : Obligations.FaultEntryWritesNothingElse := by
  intro i s t h hs ht
  cases (exec_effect h).fault hs ht with
  | badRecord cause info _ _ names =>
    refine ⟨cause, rfl, rfl, ?_⟩
    rcases names with rfl | rfl <;> simp [raise]
  | entryFault cause info _ _ names =>
    refine ⟨cause, rfl, rfl, ?_⟩
    rcases names with rfl | rfl | rfl <;> simp [raise]
  | _ => exact ⟨_, rfl, rfl, by simp [raise, State.walked]⟩

/-- Settles O35: the row and the STATE that each fault has beside its cause. -/
theorem eachCauseComesFromItsOwnRule : Obligations.EachCauseComesFromItsOwnRule := by
  intro i s t h hs ht
  cases (exec_effect h).fault hs ht with
  | badState _ row => exact row
  | badCount phase => exact ⟨rfl, phase⟩
  | badLength phase => exact ⟨rfl, phase⟩
  | badRecord _ _ row phase names => rcases names with rfl | rfl <;> exact ⟨row, phase⟩
  | entryFault _ _ row phase names => rcases names with rfl | rfl | rfl <;> exact ⟨row, phase⟩
  | overrun _ row phase => exact ⟨row, phase⟩
  | absentChild _ row phase => exact ⟨row, phase⟩
  | endNotAtRoot _ row phase => exact ⟨row, phase⟩
  | unexpected _ row phase => exact ⟨row, phase⟩

/-! ### The accesses that enter ERROR (R200) -/

/-- What an access is that decodes to a command or a DIN row. -/
theorem write_of_decode {p : Phase} {a : Access} {i : Instr} {r : Reg} {v : Word} (h : decode p a = .instr i)
    (henc : encode a.base i = r.write a.base v) : ∃ addr, a = .write addr 4 v ∧ addr % 256 = r.offset.toNat := by
  have hbase := a.base_mod
  have hlt := r.offset.isLt
  exact ⟨a.base + r.offset.toNat, (encodeOfDecode p a i h).2.symm.trans henc, by omega⟩

/-- The operation commands are written to CMD and the DIN rows to DIN. -/
theorem encode_of_row {i : Instr} (row : IsOperationCommand i ∨ IsDin i) :
    ∃ (r : Reg) (v : Word), (r = .cmd ∨ r = .din) ∧ ∀ base, encode base i = r.write base v := by
  rcases row with (rfl | rfl | rfl | rfl) | ⟨v, rfl | rfl | rfl | rfl⟩
  case inl.inl | inl.inr.inl | inl.inr.inr.inl | inl.inr.inr.inr => exact ⟨.cmd, _, .inl rfl, fun _ => rfl⟩
  all_goals exact ⟨.din, v, .inr rfl, fun _ => rfl⟩

/-- BadCommand comes from a word written to CMD. -/
theorem write_of_badCommand {p : Phase} {a : Access} {w : Word} (h : decode p a = .rejected (.badCommand w)) :
    ∃ addr v, a = .write addr 4 v ∧ addr % 256 = 0x04 := by
  have hbase := a.base_mod
  rcases decode_cases p a with ⟨j, hj, hd⟩ | ⟨r, v, ha, hd⟩ | ⟨r, -, hd⟩
  · cases hd.symm.trans h
    simp at hj
  · have hcmd : r = .cmd := by
      have hrow := hd.symm.trans h
      cases r
      case cmd => rfl
      case din => cases p <;> cases hrow
      all_goals cases hrow
    subst hcmd
    exact ⟨a.base + 4, v, ha, by omega⟩
  · have hrow := hd.symm.trans h
    cases r <;> cases hrow

/-- Settles O34: the fault's row is a command or a DIN row, or the access was an illegal command word. -/
theorem faultsComeOnlyFromWritesToCmdAndDin : Obligations.FaultsComeOnlyFromWritesToCmdAndDin := by
  intro s t h hs ht
  rcases step_cases h with ⟨-, rfl⟩ | ⟨f, rest, -, rfl⟩ | ⟨a, rest, i, hp, hd, he⟩ | ⟨a, rest, j, hp, hd, rfl⟩
  · exact absurd ht hs
  · cases ht
  · obtain ⟨r, v, hr, henc⟩ := encode_of_row ((exec_effect he).fault hs ht).row
    obtain ⟨addr, rfl, haddr⟩ := write_of_decode hd (henc a.base)
    refine ⟨addr, v, rest, hp, ?_⟩
    rcases hr with rfl | rfl
    · exact .inl haddr
    · exact .inr haddr
  · rcases rejected_cases j { s with pending := rest, answer := .done } with ⟨w, rfl, -, -⟩ | ⟨b, e⟩
    · obtain ⟨addr, v, rfl, haddr⟩ := write_of_badCommand hd
      exact ⟨addr, v, rest, hp, .inl haddr⟩
    · rw [e] at ht
      exact absurd ht hs

/-! ### The events that leave ERROR (R206) -/

/-- In ERROR an instruction keeps STATE and the fault record, or is ABORT or SOFT_RESET and clears them. -/
theorem Effect.from_error {s t : State} {i : Instr} (h : Effect s i t) (hs : s.phase = .error) :
    (t.phase = .error ∧ t.errCause = s.errCause ∧ t.errInfo = s.errInfo)
    ∨ (IsAbortOrReset i ∧ t.phase = .idle ∧ t.errCause = none ∧ t.errInfo = 0#32) := by
  cases h with
  | answered | popped | wroteArg0 | wroteArg1 | wroteInten | wroteNodeidx | ignored => exact .inl ⟨hs, rfl, rfl⟩
  | aborted => exact .inr ⟨.inl rfl, rfl, rfl, rfl⟩
  | wasReset => exact .inr ⟨.inr rfl, rfl, rfl, rfl⟩
  | badState _ _ phase => exact absurd hs phase
  | overrun _ _ phase | unexpected _ _ phase => rcases phase with phase | phase <;> cases phase.symm.trans hs
  | _ => cases Eq.trans (Eq.symm ‹s.phase = _›) hs

/-- Settles O37: an instruction keeps the record unless its word is ABORT's or SOFT_RESET's; what is no instruction is
ignored. -/
theorem errorIsLeftOnlyByAbortOrReset : Obligations.ErrorIsLeftOnlyByAbortOrReset := by
  intro s t e rest hs hp h
  rcases step_cases h with ⟨hnil, -⟩ | ⟨f, r, hp', -⟩ | ⟨a, r, i, hp', hd, he⟩ | ⟨a, r, j, hp', -, rfl⟩
  · cases hp.symm.trans hnil
  · cases hp.symm.trans hp'
    exact .inr (.inl ⟨f, rfl⟩)
  · cases hp.symm.trans hp'
    rcases (exec_effect he).from_error hs with hkept | ⟨rfl | rfl, hcleared⟩
    · exact .inl hkept
    · obtain ⟨addr, rfl, haddr⟩ := write_of_decode (r := .cmd) hd rfl
      exact .inr (.inr ⟨addr, _, rfl, haddr, .inl rfl, hcleared⟩)
    · obtain ⟨addr, rfl, haddr⟩ := write_of_decode (r := .cmd) hd rfl
      exact .inr (.inr ⟨addr, _, rfl, haddr, .inr rfl, hcleared⟩)
  · rcases rejected_cases j { s with pending := r, answer := .done } with ⟨v, -, hnot, -⟩ | ⟨b, e⟩
    · exact absurd hs hnot
    · rw [e]
      exact .inl ⟨hs, rfl, rfl⟩

/-! ### DIN_RDY and DinOverrun (70_reset_and_hazards.md R243) -/

/-- The end of a byte records no cause but EndNotAtRoot. -/
theorem endOfByte_errCause (s : State) :
    (endOfByte s).errCause = s.errCause ∨ (endOfByte s).errCause = some .endNotAtRoot := by
  rcases endOfByte_cases s with ⟨-, e⟩ | ⟨-, -, e⟩ | ⟨-, -, e⟩ <;> rw [e]
  · exact .inl rfl
  · exact .inl rfl
  · exact .inr rfl

/-- In DECODE and UNPACK a byte overruns exactly where OUTQ has no room for it. -/
theorem dinWrite_overrun_iff (v : Word) {s : State} (hphase : s.phase = .decode ∨ s.phase = .unpack)
    (hnone : s.errCause = none) : (dinWrite v s).errCause = some .dinOverrun ↔ s.hasRoom = false := by
  rcases hphase with hphase | hphase <;> simp only [dinWrite, hphase]
  · rcases decodeByte_shape (dinByte v) s with ⟨hroom, e⟩ | ⟨hroom, w, -, -, ⟨-, e⟩ | ⟨-, e⟩⟩ <;> rw [e, hroom]
    · simp
    · simp
    · rcases endOfByte_errCause (s.walked w) with h | h <;> rw [h] <;> simp [State.walked, hnone]
  · rcases unpackByte_shape (dinByte v) s with ⟨hroom, e⟩ | ⟨hroom, bits, -, -, ⟨-, e⟩ | ⟨-, e⟩⟩ <;> rw [e, hroom] <;>
      simp [State.unpacked, hnone]

/-- Settles O36: in both states DIN_RDY is the room in OUTQ, and so is the guard against the overrun. -/
theorem readinessTellsOverrun : Obligations.ReadinessTellsOverrun := by
  intro s t w i hphase hnone hread ⟨v, row⟩ h
  have hw : s.statusWord = w := by simpa [exec_rStatus] using hread
  obtain ⟨-, -, -, hrdy, -, -⟩ := statusWord_bits s
  have hroom : s.dinRdy = s.hasRoom := by rcases hphase with h | h <;> simp only [State.dinRdy, h]
  cases (exec_of_isDin s row).symm.trans h
  rw [dinWrite_overrun_iff v hphase hnone, ← hw, hrdy, hroom]

/-! ### The fault record (10_state.md R23) -/

/-- ERR_CAUSE holds a cause exactly in ERROR. -/
def FaultRecorded (s : State) : Prop := s.errCause ≠ none ↔ s.phase = .error

/-- An instruction that does not end in ERROR keeps the cause, or is ABORT or SOFT_RESET and clears it and DONE. -/
theorem Effect.errCause_kept {s t : State} {i : Instr} (h : Effect s i t) (ht : t.phase ≠ .error) :
    t.errCause = s.errCause ∨ (t.errCause = none ∧ t.done = false) := by
  cases h with
  | aborted | wasReset => exact .inr ⟨rfl, rfl⟩
  | badState | badCount | badLength | badRecord | entryFault | overrun | absentChild | unexpected => exact absurd rfl ht
  | decoded w =>
    rcases endOfByte_cases (s.walked w) with ⟨-, e⟩ | ⟨-, -, e⟩ | ⟨-, -, e⟩ <;> rw [e] at ht ⊢
    · exact .inl rfl
    · exact .inl rfl
    · exact absurd rfl ht
  | closed s1 _ _ _ placed => simp [placed.keeps]
  | _ => simp

theorem FaultEffect.faultRecorded {s t : State} {i : Instr} (h : FaultEffect s i t) : FaultRecorded t := by
  cases h <;> exact ⟨fun _ => rfl, fun _ => nofun⟩

/-- A state that records no fault is not in ERROR. -/
theorem faultRecorded_of_none {s : State} (hc : s.errCause = none) (hp : s.phase ≠ .error) : FaultRecorded s :=
  ⟨fun h => absurd hc h, fun h => absurd h hp⟩

theorem Effect.keeps_faultRecorded {s t : State} {i : Instr} (h : Effect s i t) (hs : FaultRecorded s) :
    FaultRecorded t := by
  by_cases herr : s.phase = .error
  · rcases h.from_error herr with ⟨hphase, hcause, -⟩ | ⟨-, hphase, hcause, -⟩
    · simpa [FaultRecorded, hphase, hcause, herr] using hs
    · exact faultRecorded_of_none hcause (hphase ▸ nofun)
  by_cases ht : t.phase = .error
  · exact (h.fault herr ht).faultRecorded
  · have hnone : s.errCause = none := not_not.mp (mt hs.mp herr)
    rcases h.errCause_kept ht with hkept | ⟨hcleared, -⟩
    · exact faultRecorded_of_none (hkept.trans hnone) ht
    · exact faultRecorded_of_none hcleared ht

/-- Settles O49: reset records nothing in IDLE, and an illegal command word is a fault. -/
theorem everyStepKeepsTheFaultRecord : Obligations.EveryStepKeepsTheFaultRecord :=
  keeps_of_effects FaultRecorded (fun _ _ _ h => h) (fun _ _ => faultRecorded_of_none rfl nofun)
    (fun _ _ _ _ => ⟨fun _ => rfl, fun _ => nofun⟩) fun _ _ _ hs h => h.keeps_faultRecorded hs

end Sys2Proof.Machine

/-! PROOFS. 43_control_and_io.md R178 and 10_state.md R12 to R24, 20_memory.md R52: who changes STATE, the stored flags, the
node memory and the registers. Each statement is a case analysis on `Effect`; the cases that keep the fields in question are
closed by the rules on what each operation keeps. -/

namespace Sys2Proof.Machine

/-! ### STATE (R178) -/

/-- Settles O39: a fault is the last line of the table; the other effects that change STATE are a line each. -/
theorem stateChangesOnlyAsTabled : Obligations.StateChangesOnlyAsTabled := by
  intro i s t h hne
  have heff := exec_effect h
  by_cases ht : t.phase = .error
  · have hs : s.phase ≠ .error := fun hs => hne (ht.trans hs.symm)
    exact .inr (.inr (.inr (.inr (.inr (.inr (.inr (.inr (.inr ⟨hs, ht, (heff.fault hs ht).row⟩))))))))
  cases heff with
  | loadOpened phase => simp [phase]
  | entryOpened phase => simp [phase]
  | decodeOpened phase =>
    rcases openRecord_cases .decode { s with done := false, pos := 0#16 } with ⟨-, e⟩ | ⟨-, e⟩ <;> rw [e] at hne ⊢
    · exact absurd rfl hne
    · simp [phase]
  | unpackOpened phase =>
    rcases openRecord_cases .unpack { s with done := false } with ⟨-, e⟩ | ⟨-, e⟩ <;> rw [e] at hne ⊢
    · exact absurd rfl hne
    · simp [phase]
  | closed s1 row phase =>
    rcases closeEntry_cases s1 with ⟨-, e⟩ | ⟨-, e⟩ <;> rw [e] <;> simp [phase, row]
  | decoded w _ row phase =>
    rcases endOfByte_cases (s.walked w) with ⟨-, e⟩ | ⟨-, hroot, e⟩ | ⟨-, -, e⟩ <;> rw [e] at hne ht ⊢
    · exact absurd rfl hne
    · simp [phase, row, hroot]
    · exact absurd rfl ht
  | unpackedLast _ row phase => simp [phase, row]
  | aborted => simp [IsAbortOrReset]
  | wasReset => simp [IsAbortOrReset]
  | badState | badCount | badLength | badRecord | entryFault | overrun | absentChild | unexpected => exact absurd rfl ht
  | _ => exact absurd rfl hne

/-! ### The node memory (20_memory.md R52, 20_memory.md R40) -/

/-- Every effect keeps the node memory but the opening of a load and the steps of an entry. -/
theorem Effect.nodes_kept {s t : State} {i : Instr} (h : Effect s i t) :
    t.nodes = s.nodes ∨ (i = .tblBegin ∧ s.phase = .idle) ∨ (IsDin i ∧ s.phase = .entry) := by
  cases h with
  | loadOpened phase => exact .inr (.inl ⟨rfl, phase⟩)
  | walkedNew _ row phase => exact .inr (.inr ⟨row, phase⟩)
  | closed _ row phase => exact .inr (.inr ⟨row, phase⟩)
  | _ => simp

/-- In DECODE the trie is kept by everything but SOFT_RESET. -/
theorem Effect.trie_kept_in_decode {s t : State} {i : Instr} (h : Effect s i t) (hs : s.phase = .decode)
    (hi : i ≠ .softReset) : t.nodes = s.nodes ∧ t.nodecnt = s.nodecnt ∧ t.treeValid = s.treeValid := by
  cases h with
  | wasReset => exact absurd rfl hi
  | badCount phase | loadOpened phase | walkedNew _ _ phase | closed _ _ phase => cases phase.symm.trans hs
  | _ => simp

/-- Settles O40: the two writers, the freeze in DECODE, and TBL_BEGIN's own rule there. -/
theorem nodeMemoryHasTwoWriters : Obligations.NodeMemoryHasTwoWriters := by
  refine ⟨fun i s t h hne => (exec_effect h).nodes_kept.resolve_left hne,
    fun i s t h hs hi => (exec_effect h).trie_kept_in_decode hs hi, fun s hs => ?_⟩
  rw [exec_tblBegin, tblBegin_of_busy (by simp [hs])]
  rfl

theorem FinalEffect.keeps_wf {s s1 : State} (h : FinalEffect s s1) (hs : s.nodes.wf = true) : s1.nodes.wf = true := by
  cases h with
  | newLeaf => exact linkChild_wf _ _ _ _ (allocated_wf _ _ hs)
  | oldLeaf => exact writeNode_wf _ _ _ hs

theorem Effect.keeps_wf {s t : State} {i : Instr} (h : Effect s i t) (hs : s.nodes.wf = true) : t.nodes.wf = true := by
  cases h with
  | loadOpened => exact Memory.wf_write _ _ _ hs
  | walkedNew => exact linkChild_wf _ _ _ _ (allocated_wf _ _ hs)
  | closed s1 _ _ _ placed => simpa using placed.keeps_wf hs
  | _ => simpa using hs

/-- Settles O48: reset keeps the node content, and every writer writes in canonical form. -/
theorem everyStepKeepsTheMemoryCanonical : Obligations.EveryStepKeepsTheMemoryCanonical :=
  keeps_of_effects (fun s => s.nodes.wf = true) (fun _ _ _ h => h) (fun _ h => h) (fun _ _ _ h => h)
    fun _ _ _ hs h => h.keeps_wf hs

/-! ### The stored flags (R12, R13) -/

/-- TREE_VALID is set by the end of a load, and cleared by TBL_BEGIN in IDLE and by SOFT_RESET. -/
theorem Effect.treeValid_writers {s t : State} {i : Instr} (h : Effect s i t) :
    t.treeValid = s.treeValid
    ∨ (t.treeValid = true ∧ IsDin i ∧ s.phase = .entry ∧ t.phase = .idle ∧ t.remain = 0#9)
    ∨ (t.treeValid = false ∧ ((i = .tblBegin ∧ s.phase = .idle) ∨ i = .softReset)) := by
  cases h with
  | badCount phase => exact .inr (.inr ⟨rfl, .inl ⟨rfl, phase⟩⟩)
  | loadOpened phase => exact .inr (.inr ⟨rfl, .inl ⟨rfl, phase⟩⟩)
  | wasReset => exact .inr (.inr ⟨rfl, .inr rfl⟩)
  | closed s1 row phase _ placed =>
    rcases closeEntry_cases s1 with ⟨-, e⟩ | ⟨-, e⟩ <;> rw [e]
    · exact .inr (.inl ⟨rfl, row, phase, rfl, rfl⟩)
    · exact .inl placed.keeps.2.1
  | _ => simp

/-- A legal length of 0 is the word 0. -/
theorem arg0_of_empty_record {s : State} (legal : recordFault s.arg0 s.arg1 = none) (h : (signed s.arg0).toNat = 0) :
    s.arg0 = 0#32 := by
  obtain ⟨hpos, -⟩ := (recordFault_eq_none _ _).mp legal
  rw [toNat_signed hpos] at h
  exact BitVec.eq_of_toNat_eq h

/-- DONE is set where an operation ends. -/
theorem Effect.done_set {s t : State} {i : Instr} (h : Effect s i t) (hs : s.done = false) (ht : t.done = true) :
    t.phase = .idle ∧ ((IsDin i ∧ (s.phase = .entry ∨ s.phase = .decode ∨ s.phase = .unpack))
      ∨ ((i = .decBegin ∨ i = .unpkBegin) ∧ s.phase = .idle ∧ s.arg0 = 0#32)) := by
  have hnot {P : Prop} (h : s.done = true) : P := absurd (hs.symm.trans h) nofun
  cases h with
  | decodeOpened phase _ legal =>
    rcases openRecord_cases .decode { s with done := false, pos := 0#16 } with ⟨hzero, e⟩ | ⟨-, e⟩ <;> rw [e] at ht ⊢
    · exact ⟨phase, .inr ⟨.inl rfl, phase, arg0_of_empty_record legal hzero⟩⟩
    · cases ht
  | unpackOpened phase legal =>
    rcases openRecord_cases .unpack { s with done := false } with ⟨hzero, e⟩ | ⟨-, e⟩ <;> rw [e] at ht ⊢
    · exact ⟨phase, .inr ⟨.inr rfl, phase, arg0_of_empty_record legal hzero⟩⟩
    · cases ht
  | closed s1 row phase _ placed =>
    rcases closeEntry_cases s1 with ⟨-, e⟩ | ⟨-, e⟩ <;> rw [e] at ht ⊢
    · exact ⟨rfl, .inl ⟨row, .inl phase⟩⟩
    · exact hnot (placed.keeps.2.2.1.symm.trans ht)
  | decoded w _ row phase =>
    rcases endOfByte_cases (s.walked w) with ⟨-, e⟩ | ⟨-, -, e⟩ | ⟨-, -, e⟩ <;> rw [e] at ht ⊢
    · exact hnot ht
    · exact ⟨rfl, .inl ⟨row, .inr (.inl phase)⟩⟩
    · cases ht
  | unpackedLast _ row phase => exact ⟨rfl, .inl ⟨row, .inr (.inr phase)⟩⟩
  | aborted | wasReset | loadOpened => cases ht
  | badState | badCount | badLength | badRecord | entryFault | overrun | absentChild | unexpected => cases ht
  | _ => exact hnot ht

/-- DONE is cleared by the commands that open an operation, ABORT, SOFT_RESET and a faulting DIN write. -/
theorem Effect.done_cleared {s t : State} {i : Instr} (h : Effect s i t) (hs : s.done = true) (ht : t.done = false) :
    IsOperationCommand i ∨ IsAbortOrReset i ∨ (IsDin i ∧ t.phase = .error) := by
  have hnot {P : Prop} (h : s.done = false) : P := absurd (hs.symm.trans h) nofun
  cases h with
  | aborted => exact .inr (.inl (.inl rfl))
  | wasReset => exact .inr (.inl (.inr rfl))
  | badCount | loadOpened => exact .inl (.inl rfl)
  | badLength | entryOpened => exact .inl (.inr (.inl rfl))
  | badState _ row => exact .inl row
  | badRecord _ _ row => exact .inl (.inr (.inr row))
  | decodeOpened => exact .inl (.inr (.inr (.inl rfl)))
  | unpackOpened => exact .inl (.inr (.inr (.inr rfl)))
  | entryFault _ _ row | overrun _ row | absentChild _ _ row | unexpected _ row => exact .inr (.inr ⟨row, rfl⟩)
  | closed s1 _ _ _ placed =>
    rcases closeEntry_cases s1 with ⟨-, e⟩ | ⟨-, e⟩ <;> rw [e] at ht
    · cases ht
    · exact hnot (placed.keeps.2.2.1.symm.trans ht)
  | decoded w _ row =>
    rcases endOfByte_cases (s.walked w) with ⟨-, e⟩ | ⟨-, -, e⟩ | ⟨-, -, e⟩ <;> rw [e] at ht ⊢
    · exact hnot ht
    · cases ht
    · exact .inr (.inr ⟨row, rfl⟩)
  | unpackedLast => cases ht
  | _ => exact hnot ht

/-- Settles O42. -/
theorem storedFlagsChangeOnlyAsRuled : Obligations.StoredFlagsChangeOnlyAsRuled := by
  intro i s t h
  have heff := exec_effect h
  refine ⟨fun hs ht => ?set, fun hs ht => ?cleared, fun hs ht => ?done, heff.done_cleared⟩
  case set => simpa [hs, ht] using heff.treeValid_writers
  case cleared => simpa [hs, ht] using heff.treeValid_writers
  case done =>
    obtain ⟨hidle, hrow⟩ := heff.done_set hs ht
    have hcause : t.errCause = s.errCause := by simpa [ht] using heff.errCause_kept (hidle ▸ nofun)
    exact ⟨hidle, hcause, hrow⟩

/-! ### The registers (R14, R18 to R22, R24) -/

/-- Settles O43: the four plain writes and SOFT_RESET write these registers, and no other effect does. -/
theorem hostRegistersHaveOneWriter : Obligations.HostRegistersHaveOneWriter := by
  intro i s t h hi
  cases exec_effect h with
  | wroteArg0 v | wroteArg1 v | wroteInten v | wroteNodeidx v => simp
  | wasReset => exact absurd rfl hi
  | closed s1 _ _ _ placed => simp [placed.keeps]
  | _ => simp

/-- Settles O44: the openings, the steps of an entry, the bytes of a record and ABORT write these registers. -/
theorem hiddenRegistersHaveTheirWriters : Obligations.HiddenRegistersHaveTheirWriters := by
  intro i s t h hi
  cases exec_effect h with
  | wasReset => exact absurd rfl hi
  | aborted => simp
  | loadOpened phase | entryOpened phase | decodeOpened phase | unpackOpened phase => simp [phase]
  | walkedNew _ row phase | walkedOld _ row phase => simp [row, phase]
  | closed s1 row phase _ placed => simp [row, phase, placed.keeps]
  | decoded _ _ row phase | unpackedByte _ row phase | unpackedLast _ row phase => simp [row, phase]
  | _ => simp

/-- A walk over the bits of one byte emits 8 symbols at most. -/
theorem length_out_of_byte {trie : NodeIdx → Node} {p : NodeIdx} {bits : List Bool} {w : Walk} {n : Nat}
    (count : bits.length = min n 8) (walks : w = walk trie p bits) : w.out.length ≤ 8 := by
  have hbounds := walk_bounds trie bits p
  rw [← walks] at hbounds
  omega

/-- OUTQ is appended to by the bytes of a record, which OUTCNT counts, loses its head to a read of DOUT, and is emptied by
ABORT and SOFT_RESET. -/
theorem Effect.outq_writers {s t : State} {i : Instr} (h : Effect s i t) :
    t.outq = s.outq ∨ IsAbortOrReset i
    ∨ (∃ new, t.outq = s.outq ++ new ∧ new.length ≤ 8 ∧ IsDin i ∧ (s.phase = .decode ∨ s.phase = .unpack)
        ∧ t.outcnt = s.outcnt + BitVec.ofNat 32 new.length)
    ∨ (∃ d, s.outq = d :: t.outq ∧ i = .doutPop) := by
  cases h with
  | aborted => exact .inr (.inl (.inl rfl))
  | wasReset => exact .inr (.inl (.inr rfl))
  | popped d _ head => exact .inr (.inr (.inr ⟨d, head, rfl⟩))
  | absentChild w _ row phase _ count walks =>
    exact .inr (.inr (.inl ⟨w.out, rfl, length_out_of_byte count walks, row, .inl phase, rfl⟩))
  | decoded w _ row phase _ count walks =>
    exact .inr (.inr (.inl ⟨w.out, by simp [State.walked], length_out_of_byte count walks, row, .inl phase,
      by simp [State.walked]⟩))
  | unpackedByte bits row phase _ count | unpackedLast bits row phase _ count =>
    exact .inr (.inr (.inl ⟨bits.map charOfBit, rfl, by simp [count], row, .inr phase, by simp [State.unpacked]⟩))
  | closed s1 _ _ _ placed => simp [placed.keeps]
  | _ => simp

/-- POS and the counters are written by the openings and the bytes of records, and by ABORT and SOFT_RESET. -/
theorem Effect.counter_writers {s t : State} {i : Instr} (h : Effect s i t) (hi : ¬ IsAbortOrReset i) :
    (t.pos ≠ s.pos → (i = .decBegin ∧ s.phase = .idle) ∨ (IsDin i ∧ s.phase = .decode))
    ∧ ((t.bitcnt ≠ s.bitcnt ∨ t.outcnt ≠ s.outcnt) →
        ((i = .decBegin ∨ i = .unpkBegin) ∧ s.phase = .idle)
        ∨ (IsDin i ∧ (s.phase = .decode ∨ s.phase = .unpack))) := by
  cases h with
  | aborted => exact absurd (.inl rfl) hi
  | wasReset => exact absurd (.inr rfl) hi
  | decodeOpened phase | unpackOpened phase => simp [phase]
  | absentChild _ _ row phase | decoded _ _ row phase | unpackedByte _ row phase | unpackedLast _ row phase =>
    simp [row, phase]
  | closed s1 _ _ _ placed => simp [placed.keeps]
  | _ => simp

/-- Settles O45. -/
theorem recordRegistersHaveTheirWriters : Obligations.RecordRegistersHaveTheirWriters := by
  intro i s t h hi
  obtain ⟨hpos, hcnt⟩ := (exec_effect h).counter_writers hi
  refine ⟨hpos, hcnt, fun hne => ?_⟩
  rcases (exec_effect h).outq_writers with hkept | hreset | hwritten
  · exact absurd hkept hne
  · exact absurd hreset hi
  · exact hwritten

end Sys2Proof.Machine

/-! PROOFS. 10_state.md R15 to R17, R22: what an instruction can do to the trie, said once (`TrieChange`), and from it the
parts of the invariant about the node memory, the trie and its depth (41_tree_reconstructor.md R125), and R17 (c). -/

namespace Sys2Proof.Machine

/-! ### The changes of the trie -/

/-- Both node values that are ever allocated are childless, and an Internal one carries no symbol. -/
structure Node.Fresh (n : Node) : Prop where
  childless : ∀ bit, n.child bit = 0#16
  plain : n.leaf = false → n.sym = 0#8

theorem Node.fresh_placeholder : Node.placeholder.Fresh := ⟨Node.child_placeholder, fun _ => rfl⟩

theorem Node.fresh_leafOf (v : Byte) : (Node.leafOf v).Fresh := ⟨Node.child_leafOf v, nofun⟩

/-- The five things an instruction can do to the node memory and NODECNT. -/
inductive TrieChange (s : State) (i : Instr) (t : State) : Prop
  | kept (nodes : t.nodes = s.nodes) (count : t.nodecnt = s.nodecnt)
  | emptied (row : i = .softReset) (state : t = resetBlock s)
  | opened (row : i = .tblBegin ∧ s.phase = .idle) (nodes : t.nodes = s.nodes.write 0 .placeholder) (count : t.nodecnt = 1#17)
  | grown (bit : Bool) (n : Node) (phase : s.phase = .entry) (absent : (s.node s.wpos).child bit = 0#16)
      (room : s.nodecnt.toNat ≠ s.params.nnodes) (fresh : n.Fresh)
      (nodes : t.nodes = ((s.allocated n).linkChild s.wpos bit s.nextNode).nodes) (count : t.nodecnt = s.nodecnt + 1#17)
  | relabelled (bit : Bool) (sym : Byte) (phase : s.phase = .entry) (present : (s.node s.wpos).child bit ≠ 0#16)
      (leaf : (s.node ((s.node s.wpos).child bit)).leaf = true)
      (nodes : t.nodes = (s.writeNode ((s.node s.wpos).child bit)
        { s.node ((s.node s.wpos).child bit) with sym := sym }).nodes)
      (count : t.nodecnt = s.nodecnt)

theorem Effect.params_kept {s t : State} {i : Instr} (h : Effect s i t) : t.params = s.params := by
  cases h with
  | closed s1 _ _ _ placed => simp [placed.keeps]
  | _ => simp

theorem Effect.trieChange {s t : State} {i : Instr} (h : Effect s i t) : TrieChange s i t := by
  cases h with
  | wasReset => exact .emptied rfl rfl
  | loadOpened phase => exact .opened ⟨rfl, phase⟩ rfl rfl
  | walkedNew bit _ phase _ absent room => exact .grown bit _ phase absent room Node.fresh_placeholder rfl rfl
  | closed s1 _ phase _ placed =>
    cases placed with
    | newLeaf bit absent room => exact .grown bit _ phase absent room (Node.fresh_leafOf s.eSym) (by simp) (by simp)
    | oldLeaf bit present leaf => exact .relabelled bit s.eSym phase present leaf (by simp) (by simp)
  | _ => exact .kept (by simp) (by simp)

/-! ### Node by node -/

theorem node_congr {s t : State} (h : t.nodes = s.nodes) (i : NodeIdx) : t.node i = s.node i := by
  rw [State.node, State.node, h]

/-- The growth of the trie looks at the node memory and NODECNT of the grown state alone. -/
theorem Grown.of_nodes {s s1 t : State} {bit : Bool} {c : NodeIdx} {n : Node} (g : Grown s s1 bit c n)
    (hn : t.nodes = s1.nodes) (hc : t.nodecnt = s1.nodecnt) : Grown s t bit c n :=
  ⟨hc ▸ g.cnt, g.cidx, fun i => (node_congr hn i).trans (g.node i), g.wneq, g.alloc⟩

section
variable {s t : State} (hinv : Inv s)
include hinv

/-- In ENTRY the walk pointer stands on an allocated Internal node. -/
theorem Inv.wpos_placed (phase : s.phase = .entry) : s.Allocated s.wpos ∧ (s.node s.wpos).leaf = false :=
  (hinv.load.entryOpen phase).2.2

theorem Inv.grown {n : Node} (bit : Bool) (phase : s.phase = .entry) (room : s.nodecnt.toNat ≠ s.params.nnodes)
    (nodes : t.nodes = ((s.allocated n).linkChild s.wpos bit s.nextNode).nodes) (count : t.nodecnt = s.nodecnt + 1#17) :
    Grown s t bit s.nextNode n :=
  (Machine.grown s bit n hinv.params hinv.memory (hinv.wpos_placed phase).1 room).of_nodes nodes count

/-- A child of the walk pointer's node is allocated. -/
theorem Inv.child_allocated {bit : Bool} (phase : s.phase = .entry) (present : (s.node s.wpos).child bit ≠ 0#16) :
    s.Allocated ((s.node s.wpos).child bit) :=
  (hinv.trie.childAllocated s.wpos bit (hinv.wpos_placed phase).1 present).1

end

/-- Another symbol in a Leaf leaves every flag and link. -/
theorem node_relabelled {s t : State} {ch : NodeIdx} {sym : Byte}
    (nodes : t.nodes = (s.writeNode ch { s.node ch with sym := sym }).nodes) (i : NodeIdx) :
    t.node i = if ch = i then { s.node ch with sym := sym } else s.node i :=
  (node_congr nodes i).trans (State.node_writeNode s ch i _)

theorem relabelled_leaf {s t : State} {ch : NodeIdx} {sym : Byte}
    (nodes : t.nodes = (s.writeNode ch { s.node ch with sym := sym }).nodes) (i : NodeIdx) :
    (t.node i).leaf = (s.node i).leaf := by
  rw [node_relabelled nodes]
  split
  case isTrue h => subst h; rfl
  case isFalse => rfl

theorem relabelled_child {s t : State} {ch : NodeIdx} {sym : Byte}
    (nodes : t.nodes = (s.writeNode ch { s.node ch with sym := sym }).nodes) (i : NodeIdx) (bit : Bool) :
    (t.node i).child bit = (s.node i).child bit := by
  rw [node_relabelled nodes]
  split
  case isTrue h => subst h; rfl
  case isFalse => rfl

/-! ### R17 (c) -/

/-- No node is given back, turned or unlinked. -/
def Grows (s t : State) : Prop :=
  s.nodecnt.toNat ≤ t.nodecnt.toNat
  ∧ ∀ k, s.Allocated k → (t.node k).leaf = (s.node k).leaf
    ∧ ∀ bit, (s.node k).child bit ≠ 0#16 → (t.node k).child bit = (s.node k).child bit

theorem Grown.grows {s t : State} {bit : Bool} {c : NodeIdx} {n : Node} (g : Grown s t bit c n)
    (fresh : n.Fresh) (absent : (s.node s.wpos).child bit = 0#16) : Grows s t := by
  refine ⟨by rw [g.cnt]; omega, fun k hk => ?_⟩
  have hne : k ≠ c := fun h => g.notAlloc (h ▸ hk)
  refine ⟨by rw [g.leaf, if_neg hne], fun b hb => ?_⟩
  rw [g.child fresh.childless, if_neg, if_neg hne]
  rintro ⟨rfl, rfl⟩
  exact hb absent

theorem TrieChange.grows {s t : State} {i : Instr} (h : TrieChange s i t) (hinv : Inv s)
    (hload : ¬ (i = .tblBegin ∧ s.phase = .idle)) (hreset : i ≠ .softReset) : Grows s t := by
  cases h with
  | kept nodes count => exact ⟨by rw [count], fun k _ => by rw [node_congr nodes]; exact ⟨rfl, fun _ _ => rfl⟩⟩
  | emptied row => exact absurd row hreset
  | opened row => exact absurd row hload
  | grown bit n phase absent room fresh nodes count => exact (hinv.grown bit phase room nodes count).grows fresh absent
  | relabelled bit sym phase present leaf nodes count =>
    exact ⟨by rw [count], fun k _ => ⟨relabelled_leaf nodes k, fun b _ => relabelled_child nodes k b⟩⟩

/-- Settles O41. -/
theorem theTrieOnlyGrows : Obligations.TheTrieOnlyGrows := by
  intro i s t hinv h hload hreset
  obtain ⟨hcount, hnodes⟩ := (exec_effect h).trieChange.grows hinv hload hreset
  refine ⟨hcount, fun k hk => ?_⟩
  obtain ⟨hleaf, hchild⟩ := hnodes k hk
  exact ⟨hleaf, hchild false, hchild true⟩

/-! ### The parts of the invariant about the node memory and the trie -/

/-- With no node allocated there is no trie to speak of. -/
theorem not_allocated_of_empty {s : State} (h : s.nodecnt = 0#17) (i : NodeIdx) : ¬ s.Allocated i := by
  simp [State.Allocated, h]

/-- After TBL_BEGIN the root alone is allocated, and is childless. -/
theorem allocated_of_opened {t : State} (count : t.nodecnt = 1#17) {i : NodeIdx} : t.Allocated i ↔ i = 0#16 := by
  rw [State.Allocated, count, ← BitVec.toNat_inj]
  exact Nat.lt_one_iff

theorem node_of_opened {s t : State} (nodes : t.nodes = s.nodes.write 0 .placeholder) : t.node 0#16 = .placeholder := by
  rw [State.node, nodes]
  exact Memory.read_write_same _ _ _

theorem TrieChange.memoryOk {s t : State} {i : Instr} (h : TrieChange s i t) (hinv : Inv s) (hp : t.params = s.params) :
    MemoryOk t := by
  obtain ⟨hcanon, harena, hfits, hwritten⟩ := hinv.memory
  cases h with
  | kept nodes count => exact hinv.memory.of nodes count hp
  | emptied _ state =>
    subst state
    exact ⟨hcanon, harena, Nat.zero_le _, fun k hk => absurd hk (not_allocated_of_empty rfl k)⟩
  | opened _ nodes count =>
    obtain ⟨hnodes, -⟩ := hinv.params
    refine ⟨nodes ▸ Memory.wf_write _ _ _ hcanon, fun j n hj => ?_, ?_, fun k hk => ?_⟩
    · rw [nodes] at hj
      rw [hp]
      rcases Memory.mem_write hj with rfl | hj
      · omega
      · exact harena j n hj
    · rw [count, hp]
      exact Nat.le_of_succ_le hnodes
    · rw [(allocated_of_opened count).mp hk, nodes]
      simp
  | grown bit n phase _ room _ nodes count =>
    exact (grown_memory s bit n hinv.params hinv.memory (hinv.wpos_placed phase).1 room).of nodes count hp
  | relabelled bit sym phase present _ nodes count =>
    have hch : ((s.node s.wpos).child bit).toNat < s.params.nnodes :=
      Nat.lt_of_lt_of_le (hinv.child_allocated phase present) hfits
    refine ⟨nodes ▸ writeNode_wf _ _ _ hcanon, fun j n hj => ?_, by rw [count, hp]; exact hfits, fun k hk => ?_⟩
    · rw [nodes] at hj
      rw [hp]
      rcases Memory.mem_write hj with rfl | hj
      · exact hch
      · exact harena j n hj
    · rw [nodes, writeNode_nodes, Memory.read?_write]
      split
      · rfl
      · exact hwritten k (by rwa [State.Allocated, count] at hk)

theorem TrieChange.trieOk {s t : State} {i : Instr} (h : TrieChange s i t) (hinv : Inv s) : TrieOk t := by
  cases h with
  | kept nodes count => exact hinv.trie.of nodes count
  | emptied _ state =>
    have hnone : ∀ k, ¬ t.Allocated k := not_allocated_of_empty (state ▸ rfl)
    exact ⟨fun h => absurd h (hnone 0#16), fun k hk => absurd hk (hnone k), fun k hk => absurd hk (hnone k),
      fun k _ hk => absurd hk (hnone k), fun k _ _ _ hk => absurd hk (hnone k), fun k hk => absurd hk (hnone k)⟩
  | opened _ nodes count =>
    have hroot := node_of_opened nodes
    have hchild (k : NodeIdx) (b : Bool) (hk : t.Allocated k) : (t.node k).child b = 0#16 := by
      rw [(allocated_of_opened count).mp hk, hroot, Node.child_placeholder]
    refine ⟨fun _ => by rw [hroot]; rfl, fun k hk _ => ⟨hchild k false hk, hchild k true hk⟩, fun k hk _ => ?_,
      fun k b hk hne => absurd (hchild k b hk) hne, fun k _ b _ hk _ hne => absurd (hchild k b hk) hne,
      fun k hk hne => absurd ((allocated_of_opened count).mp hk) hne⟩
    rw [(allocated_of_opened count).mp hk, hroot]
    rfl
  | grown bit n phase absent room fresh nodes count =>
    exact grown_trie (hinv.grown bit phase room nodes count) hinv.trie fresh.childless fresh.plain
      (hinv.wpos_placed phase).2 absent
  | relabelled bit sym phase present leaf nodes count =>
    have halloc (k : NodeIdx) : t.Allocated k ↔ s.Allocated k := by rw [State.Allocated, count]; rfl
    have hl := relabelled_leaf nodes
    have hc := relabelled_child nodes
    obtain ⟨hroot, hleafs, hsym, hchild, hparent, horphan⟩ := hinv.trie
    refine ⟨fun h => by rw [hl]; exact hroot (count ▸ h), fun k hk hleaf => ?_, fun k hk hint => ?_,
      fun k b hk hne => ?_, fun k j b c hk hj hne heq => ?_, fun k hk hne => ?_⟩
    · rw [hl] at hleaf
      have hnone := hleafs k ((halloc k).mp hk) hleaf
      exact ⟨(hc k false).trans hnone.1, (hc k true).trans hnone.2⟩
    · rw [hl] at hint
      rw [node_relabelled nodes, if_neg]
      · exact hsym k ((halloc k).mp hk) hint
      · rintro rfl
        cases leaf.symm.trans hint
    · rw [hc] at hne ⊢
      exact (hchild k b ((halloc k).mp hk) hne).imp_left (halloc _).mpr
    · rw [hc] at hne
      rw [hc, hc] at heq
      exact hparent k j b c ((halloc k).mp hk) ((halloc j).mp hj) hne heq
    · obtain ⟨j, b, hj, hjk⟩ := horphan k ((halloc k).mp hk) hne
      exact ⟨j, b, (halloc j).mpr hj, (hc j b).trans hjk⟩

/-! ### The depth (R125) and the walk pointer (R118) -/

/-- A childless root ends every path. -/
theorem follow_of_childless {s : State} {p : NodeIdx} (h : ∀ b, (s.node p).child b = 0#16) {w : List Bool} {i : NodeIdx}
    (hw : s.follow p w = some i) : w = [] ∧ i = p := by
  cases w with
  | nil => exact ⟨rfl, (Option.some.inj hw).symm⟩
  | cons b rest => simp [State.follow, h] at hw

/-- A relabelled trie has the same paths. -/
theorem relabelled_follow {s t : State} {ch : NodeIdx} {sym : Byte} (ht : TrieOk s)
    (nodes : t.nodes = (s.writeNode ch { s.node ch with sym := sym }).nodes) {p : NodeIdx} (hp : s.Allocated p)
    (w : List Bool) : t.follow p w = s.follow p w :=
  follow_congr ht (fun i b _ => relabelled_child nodes i b) hp w

/-- In ENTRY the path to the walk pointer still leaves room for a bit of the code. -/
theorem Inv.walk_short {s : State} (hinv : Inv s) (phase : s.phase = .entry) {w : List Bool}
    (hw : s.follow 0#16 w = some s.wpos) : w.length < 255 := by
  have hlen := hinv.depth.walkDepth phase w hw
  obtain ⟨hleft, hle, -⟩ := hinv.load.entryOpen phase
  have hlt := s.eLen.isLt
  omega

theorem TrieChange.depth_bounded {s t : State} {i : Instr} (h : TrieChange s i t) (hinv : Inv s)
    (hroot : 0 < t.nodecnt.toNat) (w : List Bool) (k : NodeIdx) (hw : t.follow 0#16 w = some k) : w.length ≤ 255 := by
  cases h with
  | kept nodes count => exact hinv.depth.bounded (count ▸ hroot) w k (follow_of hw nodes)
  | emptied _ state => exact absurd hroot (not_allocated_of_empty (state ▸ rfl) 0#16)
  | opened _ nodes count =>
    have hchild (b : Bool) : (t.node 0#16).child b = 0#16 := by rw [node_of_opened nodes, Node.child_placeholder]
    rw [(follow_of_childless hchild hw).1]
    exact Nat.zero_le _
  | grown bit n phase absent room fresh nodes count =>
    have hpos : s.Allocated 0#16 := Nat.zero_lt_of_lt (hinv.wpos_placed phase).1
    rcases (grown_follow (hinv.grown bit phase room nodes count) hinv.trie fresh.childless absent hpos).mp hw with
      hold | ⟨-, v, rfl, hv⟩
    · exact hinv.depth.bounded hpos w k hold
    · have hshort := hinv.walk_short phase hv
      simpa using hshort
  | relabelled bit sym phase present _ nodes count =>
    have hpos : s.Allocated 0#16 := show 0 < s.nodecnt.toNat from count ▸ hroot
    exact hinv.depth.bounded hpos w k ((relabelled_follow hinv.trie nodes hpos w).symm.trans hw)

end Sys2Proof.Machine

/-! PROOFS. 10_state.md: the invariant (R11 to R23). One part after another: what every effect keeps of it; then the whole. -/

namespace Sys2Proof.Machine

/-! ### The walk pointer's place (41_tree_reconstructor.md R118) -/

/-- The walk pointer stands at the depth of the characters taken: some path reaches it, and all that do have that length. -/
structure WalkPlaced (s : State) (p : NodeIdx) (len : Nat) : Prop where
  reached : ∃ w, s.follow 0#16 w = some p
  depth : ∀ w, s.follow 0#16 w = some p → w.length = len

theorem DepthOk.of_walk {s : State} (hb : 0 < s.nodecnt.toNat → ∀ w i, s.follow 0#16 w = some i → w.length ≤ 255)
    (hw : s.phase = .entry → WalkPlaced s s.wpos (s.eLen.toNat - s.eLeft.toNat)) : DepthOk s :=
  ⟨hb, fun h => (hw h).reached, fun h => (hw h).depth⟩

theorem Inv.walkPlaced {s : State} (hinv : Inv s) (phase : s.phase = .entry) :
    WalkPlaced s s.wpos (s.eLen.toNat - s.eLeft.toNat) :=
  ⟨hinv.depth.walkReached phase, hinv.depth.walkDepth phase⟩

theorem walkPlaced_root (s : State) : WalkPlaced s 0#16 0 :=
  ⟨⟨[], rfl⟩, fun _ hw => by rw [root_len hw]; rfl⟩

/-- Places are places of the node memory alone. -/
theorem WalkPlaced.of_nodes {s t : State} {p : NodeIdx} {len : Nat} (h : WalkPlaced s p len) (hn : t.nodes = s.nodes) :
    WalkPlaced t p len :=
  ⟨h.reached.imp fun w hw => (follow_eq hn _ w).trans hw, fun w hw => h.depth w (follow_of hw hn)⟩

/-- The node just grown stands one link below. -/
theorem Grown.walkPlaced {s t : State} {bit : Bool} {c : NodeIdx} {n : Node} {len : Nat} (g : Grown s t bit c n)
    (ht : TrieOk s) (hroot : s.Allocated 0#16) (fresh : n.Fresh) (absent : (s.node s.wpos).child bit = 0#16)
    (h : WalkPlaced s s.wpos len) : WalkPlaced t c (len + 1) := by
  have hpaths (w : List Bool) := grown_follow g ht fresh.childless absent (i := c) (w := w) hroot
  refine ⟨?_, fun w hw => ?_⟩
  · obtain ⟨v, hv⟩ := h.reached
    exact ⟨v ++ [bit], (hpaths _).mpr (.inr ⟨rfl, v, rfl, hv⟩)⟩
  · rcases (hpaths w).mp hw with hold | ⟨-, v, rfl, hv⟩
    · exact absurd (follow_allocated ht hroot hold) g.notAlloc
    · simpa using h.depth v hv

/-- A child stands one link below its parent, for it has no other. -/
theorem WalkPlaced.child {s : State} {p : NodeIdx} {bit : Bool} {len : Nat} (h : WalkPlaced s p len) (ht : TrieOk s)
    (hroot : s.Allocated 0#16) (present : (s.node p).child bit ≠ 0#16) :
    WalkPlaced s ((s.node p).child bit) (len + 1) := by
  obtain ⟨v, hv⟩ := h.reached
  refine ⟨⟨v ++ [bit], (follow_snoc _ _ _ _ _).mpr ⟨p, hv, rfl, present⟩⟩, fun w hw => ?_⟩
  induction w using List.reverseRecOn with
  | nil => exact absurd (Option.some.inj hw).symm present
  | append_singleton w b _ =>
    obtain ⟨q, hq, heq, -⟩ := (follow_snoc _ _ _ _ _).mp hw
    have hqp : q = p :=
      (ht.oneParent q p b bit (follow_allocated ht hroot hq) (follow_allocated ht hroot hv) (heq ▸ present) heq).1
    rw [List.length_append, h.depth w (hqp ▸ hq)]
    rfl

/-! ### Where an instruction can end: the states that the parts of the invariant speak of -/

theorem closeEntry_phase (s : State) : (closeEntry s).phase = .idle ∨ (closeEntry s).phase = .load := by
  rcases closeEntry_cases s with ⟨-, e⟩ | ⟨-, e⟩ <;> simp [e]

theorem openRecord_phase (p : Phase) (s : State) : (openRecord p s).phase = s.phase ∨ (openRecord p s).phase = p := by
  rcases openRecord_cases p s with ⟨-, e⟩ | ⟨-, e⟩ <;> simp [e]

theorem endOfByte_phase (s : State) :
    (endOfByte s).phase = s.phase ∨ (endOfByte s).phase = .idle ∨ (endOfByte s).phase = .error := by
  rcases endOfByte_cases s with ⟨-, e⟩ | ⟨-, -, e⟩ | ⟨-, -, e⟩ <;> simp [e]

theorem openRecord_not_loading {p : Phase} {s : State} (hp : ¬ (p = .load ∨ p = .entry)) (phase : s.phase = .idle) :
    ¬ ((openRecord p s).phase = .load ∨ (openRecord p s).phase = .entry) := by
  rcases openRecord_phase p s with e | e <;> rw [e]
  · simp [phase]
  · exact hp

theorem endOfByte_not_loading {s : State} (phase : s.phase = .decode) :
    ¬ ((endOfByte s).phase = .load ∨ (endOfByte s).phase = .entry) := by
  rcases endOfByte_phase s with e | e | e <;> simp [e, phase]

/-- The effects that end in ENTRY: nothing about the entry changed, an entry was opened, or a step of its walk was taken. -/
inductive EntryEffect (s t : State) : Prop
  | kept (phase : s.phase = .entry) (nodes : t.nodes = s.nodes) (count : t.nodecnt = s.nodecnt) (wpos : t.wpos = s.wpos)
      (eLen : t.eLen = s.eLen) (eLeft : t.eLeft = s.eLeft)
  | opened (phase : s.phase = .load) (low : 1 ≤ signed s.arg1) (high : signed s.arg1 ≤ 255) (nodes : t.nodes = s.nodes)
      (count : t.nodecnt = s.nodecnt) (wpos : t.wpos = 0#16) (eLen : t.eLen = BitVec.ofInt 8 (signed s.arg1))
      (eLeft : t.eLeft = t.eLen)
  | walkedNew (bit : Bool) (phase : s.phase = .entry) (inner : 1 < s.eLeft.toNat)
      (absent : (s.node s.wpos).child bit = 0#16) (grown : Grown s t bit s.nextNode .placeholder)
      (wpos : t.wpos = s.nextNode) (eLen : t.eLen = s.eLen) (eLeft : t.eLeft = s.eLeft - 1#8)
  | walkedOld (bit : Bool) (phase : s.phase = .entry) (inner : 1 < s.eLeft.toNat)
      (present : (s.node s.wpos).child bit ≠ 0#16) (internal : (s.node ((s.node s.wpos).child bit)).leaf = false)
      (nodes : t.nodes = s.nodes) (count : t.nodecnt = s.nodecnt) (wpos : t.wpos = (s.node s.wpos).child bit)
      (eLen : t.eLen = s.eLen) (eLeft : t.eLeft = s.eLeft - 1#8)

theorem Effect.ends_in_entry {s t : State} {i : Instr} (h : Effect s i t) (hinv : Inv s) (ht : t.phase = .entry) :
    EntryEffect s t := by
  cases h with
  | answered | popped | wroteArg0 | wroteArg1 | wroteInten | wroteNodeidx | ignored => exact .kept ht rfl rfl rfl rfl rfl
  | entryOpened phase low high => exact .opened phase low high rfl rfl rfl rfl rfl
  | walkedNew bit _ phase inner absent room =>
    exact .walkedNew bit phase inner absent (hinv.grown bit phase room rfl rfl) rfl rfl rfl
  | walkedOld bit _ phase inner present internal =>
    exact .walkedOld bit phase inner present internal rfl rfl rfl rfl rfl
  | closed s1 => rcases closeEntry_phase s1 with e | e <;> cases e.symm.trans ht
  | decodeOpened phase | unpackOpened phase => exact absurd (.inr ht) (openRecord_not_loading nofun phase)
  | decoded _ _ _ phase => exact absurd (.inr ht) (endOfByte_not_loading (s := s.walked _) phase)
  | unpackedByte _ _ phase => cases phase.symm.trans ht
  | _ => cases ht

/-! ### The walk and the depth of the trie -/

/-- A counter above 0 goes down by 1. -/
theorem toNat_sub_one {n : Nat} {v : BitVec n} (h : 1 ≤ v.toNat) : (v - BitVec.ofNat n 1).toNat = v.toNat - 1 := by
  have hlt := v.isLt
  have hone : (BitVec.ofNat n 1).toNat ≤ 1 := Nat.mod_le _ _
  rw [BitVec.toNat_sub_of_le (by rw [BitVec.le_def]; omega), BitVec.toNat_ofNat, Nat.mod_eq_of_lt (by omega)]

section
variable {s t : State} {i : Instr} (h : Effect s i t) (hinv : Inv s)
include h hinv

theorem Effect.walkPlaced (ht : t.phase = .entry) : WalkPlaced t t.wpos (t.eLen.toNat - t.eLeft.toNat) := by
  have hdown (inner : 1 < s.eLeft.toNat) (phase : s.phase = .entry) :
      s.eLen.toNat - (s.eLeft - 1#8).toNat = s.eLen.toNat - s.eLeft.toNat + 1 := by
    obtain ⟨-, hle, -⟩ := hinv.load.entryOpen phase
    have hless := toNat_sub_one inner.le
    omega
  have hroot (phase : s.phase = .entry) : s.Allocated 0#16 := Nat.zero_lt_of_lt (hinv.wpos_placed phase).1
  cases h.ends_in_entry hinv ht with
  | kept phase nodes count wpos eLen eLeft =>
    rw [wpos, eLen, eLeft]
    exact (hinv.walkPlaced phase).of_nodes nodes
  | opened _ _ _ nodes count wpos eLen eLeft =>
    rw [wpos, eLeft, Nat.sub_self]
    exact walkPlaced_root t
  | walkedNew bit phase inner absent grown wpos eLen eLeft =>
    rw [wpos, eLen, eLeft, hdown inner phase]
    exact grown.walkPlaced hinv.trie (hroot phase) Node.fresh_placeholder absent (hinv.walkPlaced phase)
  | walkedOld bit phase inner present _ nodes _ wpos eLen eLeft =>
    rw [wpos, eLen, eLeft, hdown inner phase]
    exact ((hinv.walkPlaced phase).child hinv.trie (hroot phase) present).of_nodes nodes

theorem Effect.depthOk : DepthOk t :=
  .of_walk (h.trieChange.depth_bounded hinv) (h.walkPlaced hinv)

/-! ### The load registers -/

theorem Effect.entryOpen (ht : t.phase = .entry) :
    1 ≤ t.eLeft.toNat ∧ t.eLeft.toNat ≤ t.eLen.toNat ∧ t.Allocated t.wpos ∧ (t.node t.wpos).leaf = false := by
  have hsame (nodes : t.nodes = s.nodes) (count : t.nodecnt = s.nodecnt) {p : NodeIdx}
      (hp : s.Allocated p ∧ (s.node p).leaf = false) : t.Allocated p ∧ (t.node p).leaf = false := by
    rw [node_congr nodes]
    exact ⟨show _ < t.nodecnt.toNat from count ▸ hp.1, hp.2⟩
  cases h.ends_in_entry hinv ht with
  | kept phase nodes count wpos eLen eLeft =>
    obtain ⟨hlow, hle, hplace⟩ := hinv.load.entryOpen phase
    rw [wpos, eLen, eLeft]
    exact ⟨hlow, hle, hsame nodes count hplace⟩
  | opened phase low high nodes count wpos eLen eLeft =>
    have hroot := (hinv.load.opened (.inl phase)).2.1
    have hlen : 1 ≤ t.eLen.toNat := by
      rw [eLen, BitVec.toNat_ofInt]
      omega
    rw [wpos, eLeft]
    exact ⟨hlen, le_rfl, hsame nodes count ⟨hroot, hinv.trie.rootInternal hroot⟩⟩
  | walkedNew bit phase inner absent grown wpos eLen eLeft =>
    obtain ⟨-, hle, -⟩ := hinv.load.entryOpen phase
    have hless := toNat_sub_one inner.le
    rw [wpos, eLen, eLeft]
    exact ⟨by omega, by omega, (grown.allocated _).mpr (.inr rfl), by rw [grown.leaf, if_pos rfl]; rfl⟩
  | walkedOld bit phase inner present internal nodes count wpos eLen eLeft =>
    obtain ⟨-, hle, -⟩ := hinv.load.entryOpen phase
    have hless := toNat_sub_one inner.le
    rw [wpos, eLen, eLeft]
    exact ⟨by omega, by omega, hsame nodes count ⟨hinv.child_allocated phase present, internal⟩⟩

/-- No effect but reset gives the root back. -/
theorem Effect.root_kept (hroot : 0 < s.nodecnt.toNat) : 0 < t.nodecnt.toNat ∨ t = resetBlock s := by
  cases h.trieChange with
  | kept _ count | relabelled _ _ _ _ _ _ count => exact .inl (count ▸ hroot)
  | emptied _ state => exact .inr state
  | opened _ _ count => exact .inl (by rw [count]; decide)
  | grown bit n phase _ room _ nodes count => exact .inl (by rw [(hinv.grown bit phase room nodes count).cnt]; omega)

/-- In LOAD and ENTRY there is no valid trie yet, but its root, and an entry to come. -/
theorem Effect.loading (ht : t.phase = .load ∨ t.phase = .entry) :
    t.treeValid = false ∧ 0 < t.nodecnt.toNat ∧ 1 ≤ t.remain.toNat ∧ t.remain.toNat ≤ 256 := by
  have hroot (h0 : 0 < s.nodecnt.toNat) : 0 < t.nodecnt.toNat := by
    rcases h.root_kept hinv h0 with hpos | rfl
    · exact hpos
    · rcases ht with ht | ht <;> cases ht
  have hkept (phase : s.phase = .load ∨ s.phase = .entry) (hv : t.treeValid = s.treeValid) (hr : t.remain = s.remain) :
      t.treeValid = false ∧ 0 < t.nodecnt.toNat ∧ 1 ≤ t.remain.toNat ∧ t.remain.toNat ≤ 256 := by
    obtain ⟨hvalid, h0, hrange⟩ := hinv.load.opened phase
    rw [hv, hr]
    exact ⟨hvalid, hroot h0, hrange⟩
  cases h with
  | loadOpened _ low high =>
    refine ⟨rfl, Nat.one_pos, ?_⟩
    simp only [BitVec.toNat_ofInt]
    omega
  | closed s1 _ phase _ placed =>
    obtain ⟨hvalid, h0, hlow, hhigh⟩ := hinv.load.opened (.inr phase)
    obtain ⟨-, hv, -, -, -, hremain, -⟩ := placed.keeps
    rcases closeEntry_cases s1 with ⟨-, e⟩ | ⟨hmore, e⟩ <;> rw [e] at ht hroot ⊢
    · rcases ht with ht | ht <;> cases ht
    · rw [hremain] at hmore
      have hne : s.remain.toNat ≠ 1 := fun h1 => hmore (by rw [BitVec.eq_of_toNat_eq (y := 1#9) h1]; rfl)
      have hless := toNat_sub_one (v := s.remain) (by omega)
      exact ⟨hv.trans hvalid, hroot h0, by simp only [hremain]; omega⟩
  | entryOpened phase => exact hkept (.inl phase) rfl rfl
  | walkedNew _ _ phase | walkedOld _ _ phase => exact hkept (.inr phase) rfl rfl
  | answered | popped | wroteArg0 | wroteArg1 | wroteInten | wroteNodeidx | ignored => exact hkept ht rfl rfl
  | decodeOpened phase | unpackOpened phase => exact absurd ht (openRecord_not_loading nofun phase)
  | decoded _ _ _ phase => exact absurd ht (endOfByte_not_loading (s := s.walked _) phase)
  | unpackedByte _ _ phase => rcases ht with ht | ht <;> cases phase.symm.trans ht
  | _ => rcases ht with ht | ht <;> cases ht

/-- A valid trie has its root. -/
theorem Effect.treeHasRoot (hv : t.treeValid = true) : 0 < t.nodecnt.toNat := by
  have hroot : 0 < s.nodecnt.toNat := by
    rcases h.treeValid_writers with hkept | ⟨-, -, phase, -, -⟩ | ⟨hcleared, -⟩
    · exact hinv.load.treeHasRoot (hkept.symm.trans hv)
    · exact (hinv.load.opened (.inr phase)).2.1
    · cases hcleared.symm.trans hv
  rcases h.root_kept hinv hroot with hpos | rfl
  · exact hpos
  · cases hv

theorem Effect.loadOk : LoadOk t := ⟨h.treeHasRoot hinv, h.loading hinv, h.entryOpen hinv⟩

end

/-! ### The flags (R13, R23) -/

/-- What ERR_INFO and DONE hold outside ERROR. -/
theorem Effect.errInfo_kept {s t : State} {i : Instr} (h : Effect s i t) (ht : t.phase ≠ .error) :
    t.errInfo = s.errInfo ∨ t.errInfo = 0#32 := by
  cases h with
  | aborted | wasReset => exact .inr rfl
  | badState | badCount | badLength | badRecord | entryFault | overrun | absentChild | unexpected => exact absurd rfl ht
  | decoded w =>
    rcases endOfByte_cases (s.walked w) with ⟨-, e⟩ | ⟨-, -, e⟩ | ⟨-, -, e⟩ <;> rw [e] at ht ⊢
    · exact .inl rfl
    · exact .inl rfl
    · exact absurd rfl ht
  | closed s1 _ _ _ placed => simp [placed.keeps]
  | _ => simp

theorem Effect.doneIdle {s t : State} {i : Instr} (h : Effect s i t) (hs : s.done = true → s.phase = .idle)
    (ht : t.done = true) : t.phase = .idle := by
  cases hd : s.done with
  | false => exact (h.done_set hd ht).1
  | true =>
    have hidle := hs hd
    cases h with
    | answered | popped | wroteArg0 | wroteArg1 | wroteInten | wroteNodeidx | ignored => exact hidle
    | decodeOpened =>
      rcases openRecord_cases .decode { s with done := false, pos := 0#16 } with ⟨-, e⟩ | ⟨-, e⟩ <;> rw [e] at ht ⊢
      · exact hidle
      · cases ht
    | unpackOpened =>
      rcases openRecord_cases .unpack { s with done := false } with ⟨-, e⟩ | ⟨-, e⟩ <;> rw [e] at ht ⊢
      · exact hidle
      · cases ht
    | aborted | wasReset => rfl
    | entryOpened phase | walkedNew _ _ phase | walkedOld _ _ phase | closed _ _ phase | decoded _ _ _ phase
    | unpackedByte _ _ phase | unpackedLast _ _ phase => cases phase.symm.trans hidle
    | _ => cases ht

theorem Effect.flagsOk {s t : State} {i : Instr} (h : Effect s i t) (hinv : Inv s) : RecordFlagsOk t := by
  refine ⟨h.keeps_faultRecorded hinv.flags.causeIffError, fun ht => ?_, h.doneIdle hinv.flags.doneIdle⟩
  by_cases hs : s.phase = .error
  · rcases h.from_error hs with ⟨hp, -⟩ | ⟨-, -, -, hinfo⟩
    · exact absurd hp ht
    · exact hinfo
  · rcases h.errInfo_kept ht with hkept | hzero
    · exact hkept.trans (hinv.flags.infoClear hs)
    · exact hzero

/-! ### POS (R19) -/

/-- The root, or an allocated Internal node. -/
def State.Placed (s : State) (p : NodeIdx) : Prop := p = 0#16 ∨ (s.Allocated p ∧ (s.node p).leaf = false)

/-- A walk that starts at a place ends at one. -/
theorem walk_placed {s : State} (ht : TrieOk s) (hroot : s.Allocated 0#16) (bits : List Bool) {p : NodeIdx}
    (hp : s.Placed p) : s.Placed (walk s.node p bits).pos := by
  induction bits generalizing p with
  | nil => exact hp
  | cons bit rest ih =>
    have hpa : s.Allocated p := by
      rcases hp with rfl | ⟨ha, -⟩
      · exact hroot
      · exact ha
    rw [walk]
    split
    case isTrue => exact hp
    case isFalse present =>
      split
      case isTrue => exact ih (.inl rfl)
      case isFalse internal =>
        exact ih (.inr ⟨(ht.childAllocated p bit hpa present).1, Bool.not_eq_true _ ▸ internal⟩)

/-- An effect keeps POS, sends it to the root, or leaves it where the walk of a byte's bits ended. -/
theorem Effect.pos_cases {s t : State} {i : Instr} (h : Effect s i t) :
    t.pos = s.pos ∨ t.pos = 0#16
    ∨ (∃ bits, t.pos = (walk s.node s.pos bits).pos ∧ s.phase = .decode ∧ t.nodes = s.nodes ∧ t.nodecnt = s.nodecnt) := by
  cases h with
  | absentChild w bits _ phase _ _ walks | decoded w bits _ phase _ _ walks =>
    exact .inr (.inr ⟨bits, by simp [State.walked, walks], phase, by simp, by simp⟩)
  | closed s1 _ _ _ placed => simp [placed.keeps]
  | _ => simp

section
variable {s t : State} {i : Instr} (h : Effect s i t) (hinv : Inv s)
include h hinv

theorem Effect.posPlace : t.Placed t.pos := by
  have hsame (nodes : t.nodes = s.nodes) (count : t.nodecnt = s.nodecnt) {p : NodeIdx} (hp : s.Placed p) : t.Placed p := by
    rw [State.Placed, node_congr nodes, State.Allocated, count]
    exact hp
  rcases h.pos_cases with hpos | hpos | ⟨bits, hpos, phase, nodes, count⟩
  · cases h.trieChange with
    | kept nodes count => exact hpos ▸ hsame nodes count hinv.record.posPlace
    | emptied _ state => exact .inl (state ▸ rfl)
    | opened row => exact .inl (hpos.trans (hinv.record.posZero (.inl row.2)))
    | grown _ _ phase | relabelled _ _ phase => exact .inl (hpos.trans (hinv.record.posZero (.inr (.inr (.inl phase)))))
  · exact .inl hpos
  · have hroot : s.Allocated 0#16 := hinv.load.treeHasRoot (hinv.record.decoding phase)
    exact hpos ▸ hsame nodes count (walk_placed hinv.trie hroot bits hinv.record.posPlace)

theorem Effect.posZero (ht : t.phase = .idle ∨ t.phase = .load ∨ t.phase = .entry ∨ t.phase = .unpack) :
    t.pos = 0#16 := by
  have hzero := hinv.record.posZero
  cases h with
  | answered | popped | wroteArg0 | wroteArg1 | wroteInten | wroteNodeidx | ignored => exact hzero ht
  | aborted | wasReset => rfl
  | decodeOpened => simp
  | loadOpened phase => exact hzero (.inl phase)
  | unpackOpened phase => simpa using hzero (.inl phase)
  | entryOpened phase => exact hzero (.inr (.inl phase))
  | walkedNew _ _ phase | walkedOld _ _ phase => exact hzero (.inr (.inr (.inl phase)))
  | closed s1 _ phase _ placed => simpa [placed.keeps] using hzero (.inr (.inr (.inl phase)))
  | unpackedByte _ _ phase | unpackedLast _ _ phase => exact hzero (.inr (.inr (.inr phase)))
  | decoded w _ _ phase =>
    rcases endOfByte_cases (s.walked w) with ⟨-, e⟩ | ⟨-, hroot, e⟩ | ⟨-, -, e⟩ <;> rw [e] at ht ⊢
    · simp [phase] at ht
    · exact hroot
    · simp at ht
  | _ => simp at ht

/-- A DECODE record runs on a valid trie. -/
theorem Effect.decoding (ht : t.phase = .decode) : t.treeValid = true := by
  have hvalid := hinv.record.decoding
  cases h with
  | answered | popped | wroteArg0 | wroteArg1 | wroteInten | wroteNodeidx | ignored => exact hvalid ht
  | decodeOpened _ tree => simpa using tree
  | decoded _ _ _ phase => simpa using hvalid phase
  | unpackOpened phase =>
    rcases openRecord_phase .unpack { s with done := false } with e | e
    · cases phase.symm.trans (e.symm.trans ht)
    · cases e.symm.trans ht
  | walkedNew _ _ phase | walkedOld _ _ phase | unpackedByte _ _ phase => cases phase.symm.trans ht
  | closed s1 => rcases closeEntry_phase s1 with e | e <;> cases e.symm.trans ht
  | _ => cases ht

end

/-! ### The counters of a record (R20, R21) -/

/-- The operands and counters of a record, in their ranges, and in DECODE and UNPACK adding up to BITLEN. -/
structure CountsOk (s : State) : Prop where
  lastvalidRange : 1 ≤ s.lastvalid.toNat ∧ s.lastvalid.toNat ≤ 8
  bytesRange : s.bytesLeft.toNat ≤ 2 ^ 28
  bitsBounded : s.bitcnt.toNat ≤ s.bitlen.toNat
  outBounded : s.outcnt.toNat ≤ s.bitcnt.toNat
  recordOpen : s.phase = .decode ∨ s.phase = .unpack →
    1 ≤ s.bytesLeft.toNat ∧ s.lastvalid.toNat = trail s.bitlen.toNat
      ∧ s.bitcnt.toNat + 8 * (s.bytesLeft.toNat - 1) + s.lastvalid.toNat = s.bitlen.toNat

theorem Inv.countsOk {s : State} (hinv : Inv s) : CountsOk s :=
  ⟨hinv.record.lastvalidRange, hinv.record.bytesRange, hinv.record.bitsBounded, hinv.record.outBounded,
    hinv.record.recordOpen⟩

/-- The counters look at these fields alone. -/
theorem CountsOk.of {s t : State} (h : CountsOk s) (hphase : t.phase = .decode ∨ t.phase = .unpack → t.phase = s.phase)
    (hbitlen : t.bitlen = s.bitlen) (hlast : t.lastvalid = s.lastvalid) (hbytes : t.bytesLeft = s.bytesLeft)
    (hbits : t.bitcnt = s.bitcnt) (hout : t.outcnt = s.outcnt) : CountsOk t := by
  obtain ⟨h1, h2, h3, h4, h5⟩ := h
  exact ⟨hlast ▸ h1, hbytes ▸ h2, by rwa [hbits, hbitlen], by rwa [hout, hbits],
    fun hp => by rw [hbytes, hlast, hbitlen, hbits]; exact h5 (hphase hp ▸ hp)⟩

/-- No bit counted yet, and no record open. -/
theorem countsOk_of_zero {s : State} (hlast : 1 ≤ s.lastvalid.toNat ∧ s.lastvalid.toNat ≤ 8)
    (hbytes : s.bytesLeft.toNat ≤ 2 ^ 28) (hbits : s.bitcnt = 0#32) (hout : s.outcnt = 0#32)
    (hphase : ¬ (s.phase = .decode ∨ s.phase = .unpack)) : CountsOk s :=
  ⟨hlast, hbytes, by simp [hbits], by simp [hbits, hout], fun hp => absurd hp hphase⟩

/-- A record opened with legal operands: `ceil8(L)` bytes, of which the last gives `trail(L)` bits. -/
theorem countsOk_openRecord {p : Phase} {s : State} (legal : recordFault s.arg0 s.arg1 = none) (phase : s.phase = .idle) :
    CountsOk (openRecord p s) := by
  obtain ⟨hl, hlow, hhigh, htrail⟩ := (recordFault_eq_none _ _).mp legal
  have hlen : (signed s.arg0).toNat < 2 ^ 31 := by
    have := BitVec.toInt_lt (x := s.arg0)
    simp only [signed] at hl ⊢
    omega
  have hlast : (BitVec.ofInt 4 (signed s.arg1)).toNat = trail (signed s.arg0).toNat := by
    rw [BitVec.toNat_ofInt]
    omega
  have hrange := trail_le (signed s.arg0).toNat
  rcases openRecord_cases p s with ⟨hzero, e⟩ | ⟨hne, e⟩ <;> rw [e]
  · exact countsOk_of_zero (by rw [hlast]; exact hrange) (Nat.zero_le _) rfl rfl (by simp [phase])
  · refine ⟨by rw [hlast]; exact hrange, ?_, Nat.zero_le _, le_rfl, fun _ => ?_⟩
    · simp only [BitVec.toNat_ofNat, ceil8]
      omega
    · simp only [hlast, BitVec.toNat_ofNat, ceil8]
      rw [Nat.mod_eq_of_lt hlen]
      refine ⟨by omega, rfl, ?_⟩
      unfold trail
      split <;> omega

section
variable {s : State} (hinv : Inv s) (phase : s.phase = .decode ∨ s.phase = .unpack)
include hinv phase

/-- The bits of one byte fit what BITLEN leaves, and are all of it in the last byte. -/
theorem Inv.byte_fits :
    s.validBits ≤ 8 ∧ s.bitcnt.toNat + s.validBits ≤ s.bitlen.toNat
    ∧ (s.bytesLeft - 1#29 ≠ 0#29 → 1 ≤ s.bytesLeft.toNat - 1
      ∧ s.bitcnt.toNat + s.validBits + 8 * (s.bytesLeft.toNat - 1 - 1) + s.lastvalid.toNat = s.bitlen.toNat)
    ∧ (s.bytesLeft - 1#29 = 0#29 → s.bitcnt.toNat + s.validBits = s.bitlen.toNat) := by
  obtain ⟨hbytes, -, hsum⟩ := hinv.record.recordOpen phase
  obtain ⟨-, hlast⟩ := hinv.record.lastvalidRange
  by_cases h1 : s.bytesLeft = 1#29
  · rw [validBits_of_last h1]
    simp only [h1, BitVec.toNat_ofNat] at hsum
    refine ⟨hlast, by omega, fun h => absurd h (by simp [h1]), fun _ => by omega⟩
  · have hne : s.bytesLeft.toNat ≠ 1 := fun h => h1 (BitVec.eq_of_toNat_eq h)
    rw [State.validBits, if_neg h1]
    exact ⟨le_rfl, by omega, fun _ => ⟨by omega, by omega⟩, fun h => absurd (sub_eq_zero.mp h) h1⟩

/-- After the bits of a byte the counters are within BITLEN. -/
theorem Inv.counts_advance {bits outs : Nat} (hb : bits ≤ s.validBits) (ho : outs ≤ bits) :
    (s.bitcnt + BitVec.ofNat 32 bits).toNat = s.bitcnt.toNat + bits
    ∧ (s.outcnt + BitVec.ofNat 32 outs).toNat = s.outcnt.toNat + outs := by
  obtain ⟨hvalid, hfit, -⟩ := hinv.byte_fits phase
  have hlen := s.bitlen.isLt
  have hout := hinv.record.outBounded
  simp only [BitVec.toNat_add, BitVec.toNat_ofNat]
  omega

/-- A byte of which `bits` bits were stepped and `outs` bytes emitted: of all of them, where the record stays open. -/
theorem Inv.countsOk_of_byte {t : State} {bits outs : Nat} (hb : bits ≤ s.validBits) (ho : outs ≤ bits)
    (hbitlen : t.bitlen = s.bitlen) (hlast : t.lastvalid = s.lastvalid) (hbits : t.bitcnt = s.bitcnt + BitVec.ofNat 32 bits)
    (hout : t.outcnt = s.outcnt + BitVec.ofNat 32 outs) (hbytes : t.bytesLeft.toNat ≤ 2 ^ 28)
    (hopen : t.phase = .decode ∨ t.phase = .unpack →
      bits = s.validBits ∧ s.bytesLeft - 1#29 ≠ 0#29 ∧ t.bytesLeft = s.bytesLeft - 1#29) : CountsOk t := by
  obtain ⟨hcnt, hcntOut⟩ := hinv.counts_advance phase hb ho
  obtain ⟨-, hfit, hmore, -⟩ := hinv.byte_fits phase
  obtain ⟨hpos, htrail, -⟩ := hinv.record.recordOpen phase
  have hless := toNat_sub_one hpos
  have hbound := hinv.record.outBounded
  refine ⟨hlast ▸ hinv.record.lastvalidRange, hbytes, by rw [hbits, hcnt, hbitlen]; omega,
    by rw [hbits, hcnt, hout, hcntOut]; omega, fun hp => ?_⟩
  obtain ⟨hall, hne, hleft⟩ := hopen hp
  obtain ⟨hpos', hsum⟩ := hmore hne
  rw [hleft, hless, hlast, hbitlen, hbits, hcnt, hall]
  exact ⟨hpos', htrail, hsum⟩

end

theorem Effect.countsOk {s t : State} {i : Instr} (h : Effect s i t) (hinv : Inv s) : CountsOk t := by
  have hcounts := hinv.countsOk
  have hbytes := hcounts.bytesRange
  have hless (phase : s.phase = .decode ∨ s.phase = .unpack) : (s.bytesLeft - 1#29).toNat ≤ 2 ^ 28 := by
    rw [toNat_sub_one (hinv.record.recordOpen phase).1]
    omega
  cases h with
  | answered | popped | wroteArg0 | wroteArg1 | wroteInten | wroteNodeidx | ignored =>
    exact hcounts.of (fun _ => rfl) rfl rfl rfl rfl rfl
  | aborted => exact countsOk_of_zero hcounts.lastvalidRange (Nat.zero_le _) rfl rfl (by simp)
  | wasReset => exact countsOk_of_zero (by simp) (Nat.zero_le _) rfl rfl (by simp)
  | decodeOpened phase _ legal => exact countsOk_openRecord legal phase
  | unpackOpened phase legal => exact countsOk_openRecord legal phase
  | walkedNew | walkedOld => exact hcounts.of (fun _ => rfl) rfl rfl rfl rfl rfl
  | closed s1 _ _ _ placed =>
    have hopen : ¬ ((closeEntry s1).phase = .decode ∨ (closeEntry s1).phase = .unpack) := by
      rcases closeEntry_phase s1 with e | e <;> simp [e]
    exact hcounts.of (fun hp => absurd hp hopen) (by simp [placed.keeps]) (by simp [placed.keeps]) (by simp [placed.keeps])
      (by simp [placed.keeps]) (by simp [placed.keeps])
  | absentChild w bits _ phase _ count walks =>
    obtain ⟨hout, hstep⟩ := walk_bounds s.node bits s.pos
    rw [← walks] at hout hstep
    exact hinv.countsOk_of_byte (.inl phase) (by omega) hout rfl rfl rfl rfl hbytes (by simp)
  | decoded w bits _ phase _ count walks present =>
    obtain ⟨hout, -⟩ := walk_bounds s.node bits s.pos
    have hstep := walk_stepped s.node bits s.pos (walks ▸ present)
    rw [← walks] at hout hstep
    have hvalid := (hinv.byte_fits (.inl phase)).1
    have hall : w.stepped = s.validBits := by omega
    rcases endOfByte_cases (s.walked w) with ⟨hmore, e⟩ | ⟨-, -, e⟩ | ⟨-, -, e⟩ <;> rw [e]
    · exact hinv.countsOk_of_byte (.inl phase) hall.le hout rfl rfl rfl rfl (hless (.inl phase))
        fun _ => ⟨hall, hmore, rfl⟩
    · exact hinv.countsOk_of_byte (.inl phase) hall.le hout rfl rfl rfl rfl (Nat.zero_le _) (by simp)
    · exact hinv.countsOk_of_byte (.inl phase) hall.le hout rfl rfl rfl rfl (Nat.zero_le _) (by simp)
  | unpackedByte bits _ phase _ count more =>
    have hvalid := (hinv.byte_fits (.inr phase)).1
    have hall : bits.length = s.validBits := by omega
    exact hinv.countsOk_of_byte (.inr phase) hall.le le_rfl rfl rfl rfl rfl (hless (.inr phase))
      fun _ => ⟨hall, more, rfl⟩
  | unpackedLast bits _ phase _ count =>
    have hvalid := (hinv.byte_fits (.inr phase)).1
    have hall : bits.length = s.validBits := by omega
    exact hinv.countsOk_of_byte (.inr phase) hall.le le_rfl rfl rfl rfl rfl (Nat.zero_le _) (by simp)
  | _ => exact hcounts.of (by simp) rfl rfl rfl rfl rfl

theorem Effect.recordOk {s t : State} {i : Instr} (h : Effect s i t) (hinv : Inv s) : RecordOk t :=
  have hcounts := h.countsOk hinv
  ⟨h.posPlace hinv, h.posZero hinv, h.decoding hinv, hcounts.lastvalidRange, hcounts.bytesRange, hcounts.bitsBounded,
    hcounts.outBounded, hcounts.recordOpen⟩

/-! ### OUTQ (R22) -/

/-- A byte is taken only with room for all that it can emit. -/
theorem Effect.queueOk {s t : State} {i : Instr} (h : Effect s i t) (hs : s.outq.length ≤ s.params.outqDepth) :
    t.outq.length ≤ t.params.outqDepth := by
  rw [h.params_kept]
  cases h with
  | aborted | wasReset => exact Nat.zero_le _
  | popped d rest head =>
    rw [head] at hs
    exact Nat.le_of_succ_le hs
  | absentChild w _ _ _ room count walks =>
    have hout := length_out_of_byte count walks
    rw [hasRoom_iff] at room
    simp only [raise_outq, State.walked, List.length_append]
    omega
  | decoded w _ _ _ room count walks =>
    have hout := length_out_of_byte count walks
    rw [hasRoom_iff] at room
    simp only [endOfByte_keeps, State.walked, List.length_append]
    omega
  | unpackedByte bits _ _ room count | unpackedLast bits _ _ room count =>
    rw [hasRoom_iff] at room
    simp only [State.unpacked, List.length_append, List.length_map]
    omega
  | closed s1 _ _ _ placed => simpa [placed.keeps] using hs
  | _ => simpa using hs

/-! ### The invariant -/

theorem Effect.inv {s t : State} {i : Instr} (h : Effect s i t) (hinv : Inv s) : Inv t where
  params := h.params_kept ▸ hinv.params
  queue := h.queueOk hinv.queue
  memory := h.trieChange.memoryOk hinv h.params_kept
  trie := h.trieChange.trieOk hinv
  depth := h.depthOk hinv
  flags := h.flagsOk hinv
  load := h.loadOk hinv
  record := h.recordOk hinv

/-- OUTQ may be read out; what the port answers and the events to come are no part of the invariant. -/
theorem Inv.of_host {s : State} (hinv : Inv s) {q : List Byte} (hq : q.length ≤ s.params.outqDepth) (p : List HostEvent)
    (a : Answer) : Inv { s with outq := q, pending := p, answer := a } where
  params := hinv.params
  queue := hq
  memory := hinv.memory.of rfl rfl rfl
  trie := hinv.trie.of rfl rfl
  depth := hinv.depth.of rfl rfl fun hp => ⟨hp, rfl, rfl, rfl⟩
  flags := ⟨hinv.flags.causeIffError, hinv.flags.infoClear, hinv.flags.doneIdle⟩
  load := ⟨hinv.load.treeHasRoot, hinv.load.opened, hinv.load.entryOpen⟩
  record := ⟨hinv.record.posPlace, hinv.record.posZero, hinv.record.decoding, hinv.record.lastvalidRange,
    hinv.record.bytesRange, hinv.record.bitsBounded, hinv.record.outBounded, hinv.record.recordOpen⟩

theorem Inv.of_port {s : State} (hinv : Inv s) (p : List HostEvent) (a : Answer) :
    Inv { s with pending := p, answer := a } :=
  hinv.of_host hinv.queue p a

/-- Fault entry keeps the invariant: what is asked of the registers in LOAD, ENTRY, DECODE and UNPACK is not asked in ERROR. -/
theorem Inv.raised {s : State} (hinv : Inv s) (cause : Cause) (info : Word) : Inv (raise cause info s) where
  params := hinv.params
  queue := hinv.queue
  memory := hinv.memory.of rfl rfl rfl
  trie := hinv.trie.of rfl rfl
  depth := hinv.depth.of rfl rfl nofun
  flags := ⟨⟨fun _ => rfl, fun _ => nofun⟩, fun h => absurd rfl h, nofun⟩
  load := ⟨hinv.load.treeHasRoot, fun h => by simp at h, nofun⟩
  record := ⟨hinv.record.posPlace, fun h => by simp at h, nofun, hinv.record.lastvalidRange,
    hinv.record.bytesRange, hinv.record.bitsBounded, hinv.record.outBounded, fun h => by simp at h⟩

/-- Settles O47: the effects part by part; reset is SOFT_RESET's effect, and an illegal command word is fault entry. -/
theorem everyStepKeepsTheInvariant : Obligations.EveryStepKeepsTheInvariant :=
  keeps_of_effects Inv (fun _ p a hinv => hinv.of_port p a) (fun _ hinv => Effect.wasReset.inv hinv)
    (fun _ v _ hinv => hinv.raised .badCommand v) fun _ _ _ hinv h => h.inv hinv

/-- Settles O46: nothing is allocated, recorded, open or counted after reset. -/
theorem resetMeetsTheInvariant : Obligations.ResetMeetsTheInvariant := by
  have hnone : ∀ k, ¬ State.reset.Allocated k := not_allocated_of_empty rfl
  have hcounts : CountsOk State.reset := countsOk_of_zero ⟨by decide, by decide⟩ (Nat.zero_le _) rfl rfl nofun
  exact {
    params := by decide
    queue := Nat.zero_le _
    memory := ⟨rfl, nofun, Nat.zero_le _, fun k hk => absurd hk (hnone k)⟩
    trie := ⟨nofun, fun k hk => absurd hk (hnone k), fun k hk => absurd hk (hnone k),
      fun k _ hk => absurd hk (hnone k), fun k _ _ _ hk => absurd hk (hnone k), fun k hk => absurd hk (hnone k)⟩
    depth := ⟨nofun, nofun, nofun⟩
    flags := ⟨⟨fun h => absurd rfl h, nofun⟩, fun _ => rfl, nofun⟩
    load := ⟨nofun, nofun, nofun⟩
    record := ⟨.inl rfl, fun _ => rfl, nofun, hcounts.lastvalidRange, hcounts.bytesRange, hcounts.bitsBounded,
      hcounts.outBounded, hcounts.recordOpen⟩ }

end Sys2Proof.Machine

/-! PROOFS. 10_state.md R16, 93_implementation_defined.md V6: what nodes at or above NODECNT hold makes no difference. Most
operations do not look at the node memory at all; those that do read allocated nodes alone. -/

namespace Sys2Proof.Machine

/-! ### Another node memory under the same state -/

def State.withNodes (s : State) (m : Memory) : State := { s with nodes := m }

@[simp] theorem withNodes_keeps (s : State) (m : Memory) :
    (s.withNodes m).phase = s.phase ∧ (s.withNodes m).treeValid = s.treeValid ∧ (s.withNodes m).arg0 = s.arg0
    ∧ (s.withNodes m).arg1 = s.arg1 ∧ (s.withNodes m).nodecnt = s.nodecnt ∧ (s.withNodes m).remain = s.remain
    ∧ (s.withNodes m).eSym = s.eSym ∧ (s.withNodes m).eLeft = s.eLeft ∧ (s.withNodes m).wpos = s.wpos
    ∧ (s.withNodes m).pos = s.pos ∧ (s.withNodes m).bytesLeft = s.bytesLeft ∧ (s.withNodes m).lastvalid = s.lastvalid
    ∧ (s.withNodes m).outq = s.outq ∧ (s.withNodes m).params = s.params ∧ (s.withNodes m).hasRoom = s.hasRoom
    ∧ (s.withNodes m).validBits = s.validBits :=
  ⟨rfl, rfl, rfl, rfl, rfl, rfl, rfl, rfl, rfl, rfl, rfl, rfl, rfl, rfl, rfl, rfl⟩

/-- States that agree are one state over two node memories. -/
theorem SameButUnallocated.withNodes {s t : State} (h : SameButUnallocated s t) :
    ∃ m, t = s.withNodes m ∧ ∀ i, s.Allocated i → (s.withNodes m).node i = s.node i :=
  ⟨t.nodes, h.1, h.2⟩

/-! ### Operations that do not look at the node memory -/

section
variable {s t : State} (h : SameButUnallocated s t)
include h

theorem same_raise (cause : Cause) (info : Word) : SameButUnallocated (raise cause info s) (raise cause info t) := by
  obtain ⟨m, rfl, hnode⟩ := h.withNodes
  exact ⟨rfl, hnode⟩

theorem same_walkOn (ch : NodeIdx) : SameButUnallocated (walkOn ch s) (walkOn ch t) := by
  obtain ⟨m, rfl, hnode⟩ := h.withNodes
  exact ⟨rfl, hnode⟩

theorem same_closeEntry : SameButUnallocated (closeEntry s) (closeEntry t) := by
  obtain ⟨m, rfl, hnode⟩ := h.withNodes
  simp only [closeEntry_eq, withNodes_keeps]
  split <;> exact ⟨rfl, hnode⟩

theorem same_endOfByte : SameButUnallocated (endOfByte s) (endOfByte t) := by
  obtain ⟨m, rfl, hnode⟩ := h.withNodes
  simp only [endOfByte, withNodes_keeps]
  split
  · split <;> exact ⟨rfl, hnode⟩
  · exact ⟨rfl, hnode⟩

theorem same_openRecord (p : Phase) : SameButUnallocated (openRecord p s) (openRecord p t) := by
  obtain ⟨m, rfl, hnode⟩ := h.withNodes
  simp only [openRecord, withNodes_keeps]
  split <;> exact ⟨rfl, hnode⟩

theorem same_tblEntry : SameButUnallocated (tblEntry s) (tblEntry t) := by
  obtain ⟨m, rfl, hnode⟩ := h.withNodes
  cases hp : s.phase <;> simp only [tblEntry, withNodes_keeps, hp]
  case load => split <;> exact ⟨rfl, hnode⟩
  all_goals exact ⟨rfl, hnode⟩

theorem same_decBegin : SameButUnallocated (decBegin s) (decBegin t) := by
  obtain ⟨m, rfl, hnode⟩ := h.withNodes
  cases hp : s.phase <;> simp only [decBegin, withNodes_keeps, hp]
  case idle =>
    split
    · split
      · exact ⟨rfl, hnode⟩
      · refine same_openRecord ?_ .decode
        exact ⟨rfl, hnode⟩
    · exact ⟨rfl, hnode⟩
  all_goals exact ⟨rfl, hnode⟩

theorem same_unpkBegin : SameButUnallocated (unpkBegin s) (unpkBegin t) := by
  obtain ⟨m, rfl, hnode⟩ := h.withNodes
  cases hp : s.phase <;> simp only [unpkBegin, withNodes_keeps, hp]
  case idle =>
    split
    · exact ⟨rfl, hnode⟩
    · refine same_openRecord ?_ .unpack
      exact ⟨rfl, hnode⟩
  all_goals exact ⟨rfl, hnode⟩

theorem same_unpackByte (b : Byte) : SameButUnallocated (unpackByte b s) (unpackByte b t) := by
  obtain ⟨m, rfl, hnode⟩ := h.withNodes
  simp only [unpackByte, unpackBits_eq, withNodes_keeps]
  split
  · split <;> exact ⟨rfl, hnode⟩
  · exact ⟨rfl, hnode⟩

theorem same_doutRead : SameButUnallocated (doutRead s) (doutRead t) := by
  obtain ⟨m, rfl, hnode⟩ := h.withNodes
  simp only [doutRead, withNodes_keeps]
  split <;> exact ⟨rfl, hnode⟩

/-! ### Operations that read or write allocated nodes -/

theorem same_tblBegin : SameButUnallocated (tblBegin s) (tblBegin t) := by
  obtain ⟨m, rfl, hnode⟩ := h.withNodes
  cases hp : s.phase <;> simp only [tblBegin, withNodes_keeps, hp]
  case idle =>
    split
    · exact ⟨rfl, hnode⟩
    · refine ⟨rfl, fun i hi => ?_⟩
      rw [(allocated_of_opened rfl).mp hi]
      exact (node_of_opened (s := s.withNodes m) rfl).trans (node_of_opened (s := s) rfl).symm
  all_goals exact ⟨rfl, hnode⟩

/-- The two laid-out reads of a node show it only where it is allocated. -/
theorem same_nodedatWords : t.nodedat0Word = s.nodedat0Word ∧ t.nodedat1Word = s.nodedat1Word := by
  obtain ⟨m, rfl, hnode⟩ := h.withNodes
  have hidx : (s.withNodes m).nodeidx = s.nodeidx := rfl
  by_cases hs : s.nodeShown = true
  · have hread := hnode s.nodeidx ((nodeShown_iff s).mp hs)
    have hm : (s.withNodes m).nodeShown = true := hs
    simp only [State.nodedat0Word, State.nodedat1Word, hs, hm, hidx, hread, and_self]
  · obtain ⟨h0, h1⟩ := nodedatWords_of_not_shown hs
    obtain ⟨h0', h1'⟩ := nodedatWords_of_not_shown (s := s.withNodes m) hs
    exact ⟨h0'.trans h0.symm, h1'.trans h1.symm⟩

end

/-- A walk from an allocated node meets allocated nodes alone. -/
theorem walk_congr {s t : State} (ht : TrieOk s) (hroot : s.Allocated 0#16) (hnode : ∀ i, s.Allocated i → t.node i = s.node i)
    (bits : List Bool) {p : NodeIdx} (hp : s.Allocated p) : walk t.node p bits = walk s.node p bits := by
  induction bits generalizing p with
  | nil => rfl
  | cons bit rest ih =>
    simp only [walk, hnode p hp]
    split
    case isTrue => rfl
    case isFalse present =>
      have hch := (ht.childAllocated p bit hp present).1
      rw [hnode _ hch]
      split
      · rw [ih hroot]
      · rw [ih hch]

theorem same_decodeByte {s t : State} (h : SameButUnallocated s t) (hinv : Inv s) (phase : s.phase = .decode) (b : Byte) :
    SameButUnallocated (decodeByte b s) (decodeByte b t) := by
  obtain ⟨m, rfl, hnode⟩ := h.withNodes
  have hroot : s.Allocated 0#16 := hinv.load.treeHasRoot (hinv.record.decoding phase)
  have hpos : s.Allocated s.pos := by
    rcases hinv.record.posPlace with hzero | ⟨halloc, -⟩
    · exact hzero ▸ hroot
    · exact halloc
  have hwalk : (s.withNodes m).byteWalk b = s.byteWalk b := walk_congr hinv.trie hroot hnode _ hpos
  rcases Nat.lt_or_ge (s.params.outqDepth - s.outq.length) 8 with hfull | room
  · rw [decodeByte_of_no_room b hfull, decodeByte_of_no_room (s := s.withNodes m) b hfull]
    exact ⟨rfl, hnode⟩
  cases ha : (s.byteWalk b).absent with
  | true =>
    rw [decodeByte_of_absent b room ha, decodeByte_of_absent (s := s.withNodes m) b room (hwalk ▸ ha), hwalk]
    exact ⟨rfl, hnode⟩
  | false =>
    rw [decodeByte_of_walked b room ha, decodeByte_of_walked (s := s.withNodes m) b room (hwalk ▸ ha), hwalk]
    refine same_endOfByte ?_
    exact ⟨rfl, hnode⟩

/-! ### One bit character of an entry -/

section
variable {s : State} {m : Memory} (hnode : ∀ i, s.Allocated i → (s.withNodes m).node i = s.node i)
include hnode

/-- A node written at an allocated index reads the same over both memories. -/
theorem same_writeNode (i : NodeIdx) (n : Node) :
    SameButUnallocated (s.writeNode i n) ((s.withNodes m).writeNode i n) := by
  refine ⟨rfl, fun k hk => ?_⟩
  rw [State.node_writeNode, State.node_writeNode, hnode k hk]

/-- So do the new node and its link: the rest of what is then allocated was so before. -/
theorem same_allocLink (hinv : Inv s) (phase : s.phase = .entry) (room : s.nodecnt.toNat ≠ s.params.nnodes) (bit : Bool)
    (n : Node) : SameButUnallocated ((s.allocated n).linkChild s.wpos bit s.nextNode)
      (((s.withNodes m).allocated n).linkChild s.wpos bit s.nextNode) := by
  have grown := hinv.grown bit (n := n) phase room rfl rfl
  have hwpos := hnode s.wpos grown.alloc
  refine ⟨rfl, fun k hk => ?_⟩
  have hother : ((s.withNodes m).allocated n |>.linkChild s.wpos bit s.nextNode).node k =
      if k = s.wpos then ((s.withNodes m).node s.wpos).setChild bit s.nextNode
      else if k = s.nextNode then n else (s.withNodes m).node k :=
    node_allocChild (s.withNodes m) bit n k grown.wneq
  rw [hother, grown.node, hwpos]
  rcases (grown.allocated k).mp hk with hold | rfl
  · rw [hnode k hold]
  · rw [if_pos rfl, if_pos rfl]

theorem same_innerStep (hinv : Inv s) (phase : s.phase = .entry) (bit : Bool) :
    SameButUnallocated (innerStep bit s) (innerStep bit (s.withNodes m)) := by
  have hwpos := hnode s.wpos (hinv.wpos_placed phase).1
  by_cases hch : (s.node s.wpos).child bit = 0#16
  · have hch' : ((s.withNodes m).node s.wpos).child bit = 0#16 := hwpos.symm ▸ hch
    by_cases hfull : s.nodecnt.toNat = s.params.nnodes
    · simp only [innerStep, allocChild_of_full, withNodes_keeps, hwpos, hch, hfull, if_true]
      exact ⟨rfl, hnode⟩
    · rw [innerStep_of_missing hch hfull, innerStep_of_missing (s := s.withNodes m) hch' hfull]
      exact same_walkOn (same_allocLink hnode hinv phase hfull bit .placeholder) s.nextNode
  · have hread := hnode _ (hinv.child_allocated phase hch)
    simp only [innerStep, withNodes_keeps, hwpos, hch, hread, if_false]
    split <;> exact ⟨rfl, hnode⟩

theorem same_finalStep (hinv : Inv s) (phase : s.phase = .entry) (bit : Bool) :
    SameButUnallocated (finalStep bit s) (finalStep bit (s.withNodes m)) := by
  have hwpos := hnode s.wpos (hinv.wpos_placed phase).1
  by_cases hch : (s.node s.wpos).child bit = 0#16
  · have hch' : ((s.withNodes m).node s.wpos).child bit = 0#16 := hwpos.symm ▸ hch
    by_cases hfull : s.nodecnt.toNat = s.params.nnodes
    · simp only [finalStep, allocChild_of_full, withNodes_keeps, hwpos, hch, hfull, if_true]
      exact ⟨rfl, hnode⟩
    · rw [finalStep_of_missing hch hfull, finalStep_of_missing (s := s.withNodes m) hch' hfull]
      exact same_closeEntry (same_allocLink hnode hinv phase hfull bit (.leafOf s.eSym))
  · have hread := hnode _ (hinv.child_allocated phase hch)
    simp only [finalStep, withNodes_keeps, hwpos, hch, hread, if_false]
    split
    · exact same_closeEntry (same_writeNode hnode _ _)
    · exact ⟨rfl, hnode⟩

end

theorem same_entryByte {s t : State} (h : SameButUnallocated s t) (hinv : Inv s) (phase : s.phase = .entry) (c : Byte) :
    SameButUnallocated (entryByte c s) (entryByte c t) := by
  obtain ⟨m, rfl, hnode⟩ := h.withNodes
  simp only [entryByte, withNodes_keeps]
  split
  · exact ⟨rfl, hnode⟩
  · split
    · exact same_innerStep hnode hinv phase _
    · exact same_finalStep hnode hinv phase _

/-! ### Instructions and steps -/

theorem same_dinWrite {s t : State} (h : SameButUnallocated s t) (hinv : Inv s) (v : Word) :
    SameButUnallocated (dinWrite v s) (dinWrite v t) := by
  have hphase : t.phase = s.phase := by rw [h.1]
  rcases dinWrite_cases v s with ⟨hp, e⟩ | ⟨hp, e⟩ | ⟨hp, e⟩ | ⟨hp, e⟩ | ⟨hp, e⟩ <;> rw [e, dinWrite, hphase]
  · rwa [hp]
  · rw [hp]
    exact same_entryByte h hinv hp _
  · rw [hp]
    exact same_decodeByte h hinv hp _
  · rw [hp]
    exact same_unpackByte h _
  · rcases hp with hp | hp <;> rw [hp] <;> exact same_raise h _ _

theorem same_after {s t : State} (h : SameButUnallocated s t) (hinv : Inv s) (i : Instr) :
    SameButUnallocated (after i s) (after i t) := by
  have hnodedat := same_nodedatWords h
  have hdin := same_dinWrite h hinv
  obtain ⟨m, rfl, hnode⟩ := h.withNodes
  cases i
  case tblBegin => exact same_tblBegin ⟨rfl, hnode⟩
  case tblEntry => exact same_tblEntry ⟨rfl, hnode⟩
  case decBegin => exact same_decBegin ⟨rfl, hnode⟩
  case unpkBegin => exact same_unpkBegin ⟨rfl, hnode⟩
  case softReset => exact ⟨rfl, fun k hk => absurd hk (not_allocated_of_empty (s := resetBlock s) rfl k)⟩
  case dinEntry v | dinDecode v | dinUnpack v | dinUnexpected v => exact hdin v
  case doutPop => exact same_doutRead ⟨rfl, hnode⟩
  case rNodedat0 =>
    simp only [after, exec_rNodedat0, hnodedat]
    exact ⟨rfl, hnode⟩
  case rNodedat1 =>
    simp only [after, exec_rNodedat1, hnodedat]
    exact ⟨rfl, hnode⟩
  all_goals exact ⟨rfl, hnode⟩

theorem same_rejected {s t : State} (h : SameButUnallocated s t) (j : Reject) :
    SameButUnallocated (rejected j s) (rejected j t) := by
  obtain ⟨m, rfl, hnode⟩ := h.withNodes
  cases j
  case badCommand v =>
    simp only [rejected, withNodes_keeps]
    split <;> exact ⟨rfl, hnode⟩
  all_goals exact ⟨rfl, hnode⟩

/-- Settles O50: both states have the same event pending and decode it alike, and its effect reads allocated nodes alone. -/
theorem unallocatedNodesAreUnobservable : Obligations.UnallocatedNodesAreUnobservable := by
  intro s t s' t' hinv h hs ht
  obtain ⟨m, rfl, hnode⟩ := h.withNodes
  cases hp : s.pending with
  | nil =>
    cases (step_of_no_event hp).symm.trans hs
    cases (step_of_no_event (s := s.withNodes m) hp).symm.trans ht
    exact ⟨rfl, hnode⟩
  | cons e rest =>
    have hfetched : SameButUnallocated { s with pending := rest, answer := .done }
        { s.withNodes m with pending := rest, answer := .done } := ⟨rfl, hnode⟩
    cases e with
    | resetInput inFlight =>
      cases (step_of_reset hp).symm.trans hs
      cases (step_of_reset (s := s.withNodes m) hp).symm.trans ht
      exact ⟨rfl, fun k hk => absurd hk (not_allocated_of_empty (s := resetInput s) rfl k)⟩
    | access a =>
      cases hd : decode s.phase a with
      | instr i =>
        cases ((step_of_instr hp hd).trans (exec_after i _)).symm.trans hs
        cases ((step_of_instr (s := s.withNodes m) hp hd).trans (exec_after i _)).symm.trans ht
        exact same_after hfetched (hinv.of_port rest .done) i
      | rejected j =>
        cases (step_of_rejected hp hd).symm.trans hs
        cases (step_of_rejected (s := s.withNodes m) hp hd).symm.trans ht
        exact same_rejected hfetched j

end Sys2Proof.Machine

/-! PROOFS. 40_bit_unpacker.md R94 and R97, 42_decode_automaton.md R147: the two reference functions undo one another, and a
whole record does what its reference function says. A record is an induction over its bytes, each by the rule for one byte. -/

namespace Sys2Proof.Machine

/-! ### Packing and unpacking (R94) -/

theorem length_pack (s : List Bool) : (pack s).1.length = ceil8 s.length := by
  simp [pack]

/-- Bit `7 - k` of packed byte `j`. -/
theorem bit_of_pack {s : List Bool} {j : Nat} {c : Byte} (hc : (pack s).1[j]? = some c) {k : Nat} (hk : k < 8) :
    c.getLsbD (7 - k) = s.getD (8 * j + k) false := by
  simp only [pack, List.getElem?_map, Option.map_eq_some_iff] at hc
  obtain ⟨j', hj, rfl⟩ := hc
  obtain ⟨_, rfl⟩ := List.getElem?_eq_some_iff.mp hj
  rw [byteOfBits_bit _ _ hk, List.getElem_range]

theorem unpack_pack (s : List Bool) : unpack (pack s).1 (pack s).2.1 (pack s).2.2 = s := by
  obtain ⟨hlen, hbit⟩ := unpack_get (pack s).1 s.length (length_pack s)
  change unpack (pack s).1 s.length (trail s.length) = s
  refine List.ext_getElem hlen fun k hk hks => ?_
  have hj : k / 8 < (pack s).1.length := by
    rw [length_pack, ceil8]
    omega
  rw [← Option.some_inj, ← List.getElem?_eq_getElem hk, hbit k hks, List.getD_eq_getElem _ _ hj,
    bit_of_pack (List.getElem?_eq_getElem hj) (Nat.mod_lt k (by decide)), Nat.div_add_mod, List.getD_eq_getElem _ _ hks]

/-- Settles O51: bit `k` of byte `j` is character `8 j + k`, both ways. -/
theorem unpackInvertsPack : Obligations.UnpackInvertsPack := by
  refine ⟨fun s => ⟨unpack_pack s, length_pack s⟩, ?_⟩
  intro bytes l hbytes back
  obtain ⟨hlen, hbit⟩ := unpack_get bytes l hbytes
  have hback : back.length = bytes.length := by rw [length_pack, hlen, hbytes, ceil8]
  refine ⟨hback, fun j b c hb hc k hk => ?_⟩
  rw [bit_of_pack hc hk]
  by_cases hin : 8 * j + k < l
  · have hj : (8 * j + k) / 8 = j := by omega
    have hk' : (8 * j + k) % 8 = k := by omega
    rw [List.getD_eq_getElem?_getD, hbit _ hin, hj, hk', List.getD_eq_getElem?_getD, hb]
    simp [hin]
  · rw [List.getD_eq_default _ _ (by omega)]
    simp [hin]

/-! ### The host's loop -/

theorem Inv.after {s : State} (hinv : Inv s) (i : Instr) : Inv (after i s) :=
  (exec_effect (exec_after i s)).inv hinv

theorem after_params (i : Instr) (s : State) : (after i s).params = s.params :=
  (exec_effect (exec_after i s)).params_kept

/-- The state after a byte, its output read out. -/
def fed (din : Word → Instr) (v : Word) (s : State) : State :=
  { after (din v) s with outq := [], answer := .data 0#32 }

theorem Inv.fed {s : State} (hinv : Inv s) (din : Word → Instr) (v : Word) : Inv (fed din v s) :=
  (hinv.after (din v)).of_host (Nat.zero_le _) _ _

/-- Feeding a byte from a state that meets the invariant: its output, then that of the rest. -/
theorem feed_cons_of_inv {s : State} (hinv : Inv s) (din : Word → Instr) (v : Word) (rest : List Word) :
    feed din (v :: rest) s = ((Machine.after (din v) s).outq ++ (feed din rest (Machine.fed din v s)).1,
      (feed din rest (Machine.fed din v s)).2) :=
  feed_cons din v rest s (after_params (din v) s ▸ (hinv.after (din v)).queue)

/-- An empty queue has room for a byte. -/
theorem Inv.room_of_empty {s : State} (hinv : Inv s) (hq : s.outq = []) : 8 ≤ s.params.outqDepth - s.outq.length := by
  obtain ⟨-, -, hdepth, -⟩ := hinv.params
  simpa [hq] using hdepth

/-- Unpacking reads one byte whole when more follow, and the last one by its trailing count. -/
theorem unpack_cons (b : Byte) {rest : List Byte} (hne : rest ≠ []) (l t : Nat) :
    unpack (b :: rest) l t = bitsOfByte b 8 ++ unpack rest l t := by
  obtain ⟨c, rest, rfl⟩ := List.exists_cons_of_ne_nil hne
  rw [unpack, unpack_l (c :: rest) (l - 8) l]
  exact nofun

/-- The bits of a record from its next byte on: those of the byte that are valid, and those of the rest. -/
theorem unpack_next {s : State} (b : Byte) {rest : List Byte} (hcount : rest.length + 1 = s.bytesLeft.toNat) (l : Nat) :
    unpack (b :: rest) l s.lastvalid.toNat = bitsOfByte b s.validBits ++ unpack rest l s.lastvalid.toNat := by
  by_cases hone : s.bytesLeft = 1#29
  · obtain rfl : rest = [] := by simpa [hone] using hcount
    simp [unpack, validBits_of_last hone]
  · have hne : rest ≠ [] := by
      rintro rfl
      exact hone (BitVec.eq_of_toNat_eq hcount.symm)
    rw [unpack_cons b hne, State.validBits, if_neg hone]

/-! ### A record of UNPACK (R97) -/

theorem after_dinUnpack (v : Word) {s : State} (phase : s.phase = .unpack) :
    after (.dinUnpack v) s = unpackByte (dinByte v) s := by
  simp only [after, exec_dinUnpack v phase]

/-- What a record of UNPACK leaves, `n` bits long. -/
structure UnpackEnded (s : State) (n : Nat) : Prop where
  phase : s.phase = .idle
  done : s.done = true
  outq : s.outq = []
  outcnt : s.outcnt = s.bitcnt
  bitcnt : s.bitcnt.toNat = n

/-- The bytes of a record from UNPACK on, whatever the counters have reached. -/
theorem feed_unpack (words : List Word) (l : Nat) {s : State} (hinv : Inv s) (phase : s.phase = .unpack) (hq : s.outq = [])
    (hcount : words.length = s.bytesLeft.toNat) (hsame : s.outcnt = s.bitcnt) :
    (feed .dinUnpack words s).1 = (unpack (words.map dinByte) l s.lastvalid.toNat).map charOfBit
    ∧ UnpackEnded (feed .dinUnpack words s).2 s.bitlen.toNat := by
  have hpos := (hinv.record.recordOpen (.inr phase)).1
  induction words generalizing s with
  | nil => exact absurd hpos (by simp [← hcount])
  | cons v rest ih =>
    obtain ⟨hvalid, -, hmany, hfull⟩ := hinv.byte_fits (.inr phase)
    have hroom := (hasRoom_iff s).mpr (hinv.room_of_empty hq)
    have hless := toNat_sub_one hpos
    rw [List.length_cons] at hcount
    rw [feed_cons_of_inv hinv, after_dinUnpack v phase, fed, after_dinUnpack v phase]
    rcases unpackByte_shape (dinByte v) s with ⟨hno, -⟩ | ⟨-, bits, -, hbits, ⟨hmore, e⟩ | ⟨hlast, e⟩⟩
    · cases hroom.symm.trans hno
    · have hfed := hinv.fed .dinUnpack v
      rw [fed, after_dinUnpack v phase, e] at hfed
      rw [e]
      obtain ⟨hout, hended⟩ := ih hfed phase rfl (by simp only [hless]; omega) (by simp [State.unpacked, hsame])
        (hless ▸ (hmany hmore).1)
      refine ⟨?_, hended⟩
      rw [hout, List.map_cons, unpack_next _ (by simpa using hcount), List.map_append, hbits]
      simp [State.unpacked, hq]
    · have hone : s.bytesLeft = 1#29 := sub_eq_zero.mp hlast
      have hnil : rest = [] := by simpa [hone] using hcount
      have hlen : bits.length = s.validBits := by
        rw [hbits, length_bitsOfByte]
        omega
      have hcnt := (hinv.counts_advance (.inr phase) hlen.le le_rfl).1
      subst hnil
      rw [e]
      refine ⟨?_, rfl, rfl, rfl, ?_, ?_⟩
      · rw [hbits, validBits_of_last hone]
        simp [State.unpacked, hq, feed, unpack]
      · simp [State.unpacked, hsame, feed]
      · exact hcnt.trans (by rw [hlen, hfull hlast])

/-! ### Opening a record -/

/-- Legal operands as numbers. -/
theorem legal_operands {l t : Word} (legal : recordFault l t = none) :
    l.toNat < 2 ^ 31 ∧ t.toNat = trail l.toNat ∧ 1 ≤ t.toNat ∧ t.toNat ≤ 8 := by
  obtain ⟨hl, hlow, hhigh, htrail⟩ := (recordFault_eq_none _ _).mp legal
  rw [toNat_signed hl] at htrail
  have ht := toNat_signed (show 0 ≤ signed t by omega)
  have hlt := BitVec.toInt_lt (x := l)
  have hpos := toNat_signed hl
  simp only [signed] at hl hpos
  omega

section
variable {s : State} {l t : Word} (phase : s.phase = .idle) (legal : recordFault l t = none)
include phase legal

theorem begin_unpack : beginRecord .unpkBegin l t s = openRecord .unpack { s with arg0 := l, arg1 := t, done := false } :=
  unpkBegin_of_legal (s := { s with arg0 := l, arg1 := t }) phase legal

theorem begin_decode (tree : s.treeValid = true) :
    beginRecord .decBegin l t s = openRecord .decode { s with arg0 := l, arg1 := t, done := false, pos := 0#16 } :=
  decBegin_of_legal (s := { s with arg0 := l, arg1 := t }) phase tree legal

end

theorem Inv.beginRecord {s : State} (hinv : Inv s) (c : Instr) (l t : Word) : Inv (beginRecord c l t s) :=
  ((hinv.after _).after _).after _

/-- The registers of a record that has just been opened, as numbers. -/
theorem withRecord_operands {s : State} (legal : recordFault s.arg0 s.arg1 = none) :
    s.withRecord.bitlen.toNat = s.arg0.toNat ∧ s.withRecord.lastvalid.toNat = s.arg1.toNat
    ∧ s.withRecord.bytesLeft.toNat = ceil8 s.arg0.toNat := by
  obtain ⟨hl, -, -, ht⟩ := legal_operands legal
  simp only [State.withRecord, BitVec.toNat_setWidth, BitVec.toNat_ofNat, ceil8]
  omega

/-- A legal length is positive, or the word 0. -/
theorem signed_pos_of_legal {l t : Word} (legal : recordFault l t = none) (h : l ≠ 0#32) : 0 < signed l := by
  have hl := ((recordFault_eq_none _ _).mp legal).1
  have hne : signed l ≠ 0 := fun h0 => h (BitVec.eq_of_toInt_eq h0)
  omega

/-- Settles O52: the record is opened, then each byte by induction. -/
theorem unpackRecordEmitsUnpack : Obligations.UnpackRecordEmitsUnpack := by
  intro s l t words hinv hphase hq legal hcount r
  have hbegin := begin_unpack hphase legal
  by_cases hl : l = 0#32
  · have hwords : words = [] := List.eq_nil_of_length_eq_zero (by rw [hcount, hl]; rfl)
    have hzero : signed l = 0 := by rw [hl]; rfl
    rw [openRecord_of_zero .unpack (s := { s with arg0 := l, arg1 := t, done := false }) hzero] at hbegin
    have hr : r = ([], beginRecord .unpkBegin l t s) := by
      subst hwords
      rfl
    rw [hr, hbegin, hwords, hl]
    exact ⟨rfl, hphase, rfl, rfl, rfl, hq⟩
  · rw [openRecord_of_pos .unpack (s := { s with arg0 := l, arg1 := t, done := false }) (signed_pos_of_legal legal hl)]
      at hbegin
    obtain ⟨hbitlen, hlast, hbytes⟩ := withRecord_operands (s := { s with arg0 := l, arg1 := t, done := false }) legal
    obtain ⟨hout, hended⟩ := feed_unpack words l.toNat (hinv.beginRecord .unpkBegin l t) (by rw [hbegin])
      (by rw [hbegin]; exact hq) (by rw [hbegin]; exact hcount.trans hbytes.symm) (by rw [hbegin]; rfl)
    rw [show (beginRecord .unpkBegin l t s).bitlen.toNat = l.toNat by rw [hbegin]; exact hbitlen] at hended
    rw [show (beginRecord .unpkBegin l t s).lastvalid.toNat = t.toNat by rw [hbegin]; exact hlast] at hout
    have hcnt : r.2.bitcnt = l := BitVec.eq_of_toNat_eq hended.bitcnt
    exact ⟨hout, hended.phase, hended.done, hcnt, hended.outcnt.trans hcnt, hended.outq⟩

/-! ### A record of DECODE (42_decode_automaton.md R147) -/

theorem after_dinDecode (v : Word) {s : State} (phase : s.phase = .decode) :
    after (.dinDecode v) s = decodeByte (dinByte v) s := by
  simp only [after, exec_dinDecode v phase]

/-- In ERROR the host's loop reads nothing and changes nothing, but for the port's answer. -/
theorem feed_error (words : List Word) {s : State} (phase : s.phase = .error) (hq : s.outq = []) :
    ∃ a, feed .dinDecode words s = ([], { s with answer := a }) := by
  induction words generalizing s with
  | nil => exact ⟨s.answer, rfl⟩
  | cons v rest ih =>
    have hkept : after (.dinDecode v) s = s := dinWrite_of_error v phase
    obtain ⟨a, ha⟩ := ih (s := { s with outq := [], answer := .data 0#32 }) phase rfl
    refine ⟨a, ?_⟩
    rw [feed_cons _ v rest s (by simp [hkept, hq]), hkept, ha, hq]
    cases s
    cases hq
    rfl

/-- How a record of DECODE has ended, after the walk `w` of its bits from where BITCNT was `start`. -/
def DecodeEnded (s : State) (w : Walk) (start : Word) (n : Nat) : Prop :=
  if w.absent = true then
    s.phase = .error ∧ s.errCause = some .absentChild ∧ s.errInfo = start + BitVec.ofNat 32 w.stepped
  else if w.pos = 0#16 then s.phase = .idle ∧ s.done = true ∧ s.bitcnt.toNat = n
  else s.phase = .error ∧ s.errCause = some .endNotAtRoot ∧ s.errInfo = w.pos.setWidth 32

/-! One byte of the record, from an empty queue. -/

section
variable {s : State} (hinv : Inv s) (phase : s.phase = .decode) (hq : s.outq = []) (v : Word)
include hinv phase hq

theorem fed_decode_more (habs : (s.byteWalk (dinByte v)).absent = false) (hmore : s.bytesLeft ≠ 1#29) :
    fed .dinDecode v s = { s.walked (s.byteWalk (dinByte v)) with
      bytesLeft := s.bytesLeft - 1#29, outq := [], answer := .data 0#32 } := by
  rw [fed, after_dinDecode v phase, decodeByte_of_walked (dinByte v) (hinv.room_of_empty hq) habs,
    endOfByte_of_more (s := s.walked _) hmore]
  rfl

/-- What the byte emits is what its walk does, and the trie stays. -/
theorem fed_decode_frame :
    (after (.dinDecode v) s).outq = (s.byteWalk (dinByte v)).out ∧ (fed .dinDecode v s).nodes = s.nodes
    ∧ (fed .dinDecode v s).treeValid = s.treeValid := by
  rw [fed, after_dinDecode v phase]
  rcases decodeByte_of_room (dinByte v) (hinv.room_of_empty hq) with ⟨-, e⟩ | ⟨-, e⟩ <;> rw [e] <;>
    simp [State.walked, hq]

/-- The record ends in the byte whose walk meets an absent child, and in the last byte. -/
theorem fed_decode_ends (hend : (s.byteWalk (dinByte v)).absent = true ∨ s.bytesLeft = 1#29) :
    DecodeEnded (fed .dinDecode v s) (s.byteWalk (dinByte v)) s.bitcnt s.bitlen.toNat := by
  rw [fed, after_dinDecode v phase, DecodeEnded]
  have hroom := hinv.room_of_empty hq
  cases habs : (s.byteWalk (dinByte v)).absent with
  | true =>
    rw [if_pos rfl, decodeByte_of_absent (dinByte v) hroom habs]
    exact ⟨rfl, rfl, rfl⟩
  | false =>
    have hone : s.bytesLeft = 1#29 := by simpa [habs] using hend
    rw [if_neg Bool.false_ne_true, decodeByte_of_walked (dinByte v) hroom habs]
    by_cases hroot : (s.byteWalk (dinByte v)).pos = 0#16
    · obtain ⟨hvalid, -, -, hfull⟩ := hinv.byte_fits (.inl phase)
      have hstep : (s.byteWalk (dinByte v)).stepped = s.validBits := by
        rw [State.byteWalk, walk_stepped _ _ _ habs, length_bitsOfByte, Nat.min_eq_left hvalid]
      have hcnt := (hinv.counts_advance (.inl phase) hstep.le (Nat.zero_le _)).1
      rw [if_pos hroot, endOfByte_at_root (s := s.walked _) hone hroot]
      exact ⟨rfl, rfl, hcnt.trans (by rw [hstep, hfull (by rw [hone]; rfl)])⟩
    · rw [if_neg hroot, endOfByte_off_root (s := s.walked _) hone hroot]
      exact ⟨rfl, rfl, rfl⟩

end

/-- Walking on from where a first walk, without an absent child, has led. -/
def Walk.then (w next : Walk) : Walk :=
  { out := w.out ++ next.out, stepped := w.stepped + next.stepped, pos := next.pos, absent := next.absent }

theorem DecodeEnded.of_then {s : State} {w next : Walk} {start : Word} {n : Nat}
    (h : DecodeEnded s next (start + BitVec.ofNat 32 w.stepped) n) : DecodeEnded s (w.then next) start n := by
  rwa [DecodeEnded, Walk.then, BitVec.ofNat_add, ← BitVec.add_assoc]

/-- The bytes of a record from DECODE on, wherever POS and the counters have come to. -/
theorem feed_decode (words : List Word) (l : Nat) {s : State} (hinv : Inv s) (phase : s.phase = .decode) (hq : s.outq = [])
    (hcount : words.length = s.bytesLeft.toNat) :
    let w := walk s.node s.pos (unpack (words.map dinByte) l s.lastvalid.toNat)
    let r := feed .dinDecode words s
    r.1 = w.out ∧ r.2.outq = [] ∧ r.2.nodes = s.nodes ∧ r.2.treeValid = s.treeValid
    ∧ DecodeEnded r.2 w s.bitcnt s.bitlen.toNat := by
  have hpos := (hinv.record.recordOpen (.inl phase)).1
  induction words generalizing s with
  | nil => exact absurd hpos (by simp [← hcount])
  | cons v rest ih =>
    intro w r
    rw [List.length_cons] at hcount
    have hr : r = _ := feed_cons_of_inv hinv .dinDecode v rest
    obtain ⟨hemit, hnodes, htree⟩ := fed_decode_frame hinv phase hq v
    have hw : w = if (s.byteWalk (dinByte v)).absent = true then s.byteWalk (dinByte v) else
        (s.byteWalk (dinByte v)).then
          (walk s.node (s.byteWalk (dinByte v)).pos (unpack (rest.map dinByte) l s.lastvalid.toNat)) := by
      refine Eq.trans ?_ (walk_append s.node _ _ s.pos)
      rw [← unpack_next (dinByte v) (by simpa using hcount)]
      rfl
    rw [hemit] at hr
    cases habs : (s.byteWalk (dinByte v)).absent with
    | true =>
      have hended := fed_decode_ends hinv phase hq v (.inl habs)
      have herror : (fed .dinDecode v s).phase = .error := by
        rw [DecodeEnded, if_pos habs] at hended
        exact hended.1
      obtain ⟨a, hrest⟩ := feed_error rest herror rfl
      rw [hr, hrest, hw, if_pos habs]
      exact ⟨List.append_nil _, rfl, hnodes, htree, hended⟩
    | false =>
      rw [if_neg (Bool.eq_false_iff.mp habs)] at hw
      by_cases hone : s.bytesLeft = 1#29
      · obtain rfl : rest = [] := by simpa [hone] using hcount
        have hended := fed_decode_ends hinv phase hq v (.inr hone)
        have hlast : w = s.byteWalk (dinByte v) := by
          rw [hw]
          simp [Walk.then, unpack, walk, ← habs]
        rw [hr, hlast]
        exact ⟨List.append_nil _, rfl, hnodes, htree, hended⟩
      · have hless := toNat_sub_one hpos
        have hmany := (hinv.byte_fits (.inl phase)).2.2.1 (sub_ne_zero.mpr hone)
        have hfed := fed_decode_more hinv phase hq v habs hone
        have hnext := ih (hinv.fed .dinDecode v) (by rw [hfed]; exact phase) rfl (by rw [hfed]; simp only [hless]; omega)
          (by rw [hfed]; simp only [hless]; exact hmany.1)
        obtain ⟨hout, hempty, hkept, htrie, hended⟩ := hnext
        rw [hr, hw]
        refine ⟨?_, hempty, hkept.trans hnodes, htrie.trans htree, .of_then ?_⟩
        · rw [hfed] at hout ⊢
          exact congrArg _ hout
        · rw [hfed] at hended ⊢
          exact hended

/-- The verdict of a whole record, as the block shows it. -/
def Shows (s : State) (l : Word) : Verdict → Prop
  | .wellFormed => s.phase = .idle ∧ s.done = true ∧ s.bitcnt = l
  | .absentChild k => s.phase = .error ∧ s.errCause = some .absentChild ∧ s.errInfo = BitVec.ofNat 32 k
  | .endNotAtRoot p => s.phase = .error ∧ s.errCause = some .endNotAtRoot ∧ s.errInfo = p.setWidth 32

theorem DecodeEnded.shows {s : State} {w : Walk} {l : Word} (h : DecodeEnded s w 0#32 l.toNat) : Shows s l w.verdict := by
  rw [DecodeEnded] at h
  rw [Walk.verdict]
  split at h
  case isTrue habs =>
    rw [if_pos habs]
    simpa [Shows] using h
  case isFalse habs =>
    rw [if_neg habs]
    split at h
    case isTrue hroot =>
      obtain ⟨hphase, hdone, hcnt⟩ := h
      rw [if_pos hroot]
      exact ⟨hphase, hdone, BitVec.eq_of_toNat_eq hcnt⟩
    case isFalse hroot =>
      rw [if_neg hroot]
      exact h

/-- Settles O53: the record is opened, then each byte by induction; the verdict is how the walk of all its bits ends. -/
theorem decodeRecordEmitsDecode : Obligations.DecodeRecordEmitsDecode := by
  intro s l t words hinv hphase htree hq legal hcount r d
  have hbegin := begin_decode hphase legal htree
  let w := walk s.node 0#16 (unpack (words.map dinByte) l.toNat t.toNat)
  by_cases hl : l = 0#32
  · have hwords : words = [] := List.eq_nil_of_length_eq_zero (by rw [hcount, hl]; rfl)
    have hzero : signed l = 0 := by rw [hl]; rfl
    rw [openRecord_of_zero .decode (s := { s with arg0 := l, arg1 := t, done := false, pos := 0#16 }) hzero] at hbegin
    have hr : r = ([], beginRecord .decBegin l t s) := by
      subst hwords
      rfl
    have hd : d = ([], .wellFormed) := by
      subst hwords
      rfl
    rw [hr, hbegin, hd]
    exact ⟨rfl, hq, rfl, htree, hphase, rfl, hl.symm⟩
  · rw [openRecord_of_pos .decode (s := { s with arg0 := l, arg1 := t, done := false, pos := 0#16 })
      (signed_pos_of_legal legal hl)] at hbegin
    obtain ⟨hbitlen, hlast, hbytes⟩ := withRecord_operands
      (s := { s with arg0 := l, arg1 := t, done := false, pos := 0#16 }) legal
    obtain ⟨hout, hempty, hnodes, htrie, hended⟩ := feed_decode words l.toNat (hinv.beginRecord .decBegin l t)
      (by rw [hbegin]) (by rw [hbegin]; exact hq) (by rw [hbegin]; exact hcount.trans hbytes.symm)
    have hwalk : walk (beginRecord .decBegin l t s).node (beginRecord .decBegin l t s).pos
        (unpack (words.map dinByte) l.toNat (beginRecord .decBegin l t s).lastvalid.toNat) = w := by
      rw [hbegin]
      exact congrArg (fun n => walk s.node 0#16 (unpack (words.map dinByte) l.toNat n)) hlast
    have hbits : (beginRecord .decBegin l t s).bitlen.toNat = l.toNat := by rw [hbegin]; exact hbitlen
    have hstart : (beginRecord .decBegin l t s).bitcnt = 0#32 := by rw [hbegin]; rfl
    rw [hwalk, hbits, hstart] at hended
    have hshows : Shows r.2 l d.2 := hended.shows
    refine ⟨hout.trans (congrArg Walk.out hwalk), hempty, hnodes.trans (by rw [hbegin]; rfl), htrie.trans ?_, ?_⟩
    · rw [hbegin]
      exact htree
    · revert hshows
      cases d.2 <;> exact id

end Sys2Proof.Machine

/-! PROOFS. 41_tree_reconstructor.md R120 to R122: the paths of a trie and how many nodes they take; the shape that a list of
entries gives it (`Shape`), and how one bit character changes that shape. -/

namespace Sys2Proof.Machine

/-! ### Paths and nodes correspond one to one -/

/-- The index at the end of a path. -/
def State.pathEnd (s : State) (w : List Bool) : Nat := ((s.follow 0#16 w).getD 0#16).toNat

section
variable {s : State} (ht : TrieOk s)
include ht

/-- Every allocated node has a path: climbing from parent to parent, the index falls. -/
theorem TrieOk.path_exists (k : NodeIdx) (hk : s.Allocated k) : ∃ w, s.follow 0#16 w = some k := by
  induction hn : k.toNat using Nat.strong_induction_on generalizing k with
  | h n ih =>
    by_cases hzero : k = 0#16
    · exact ⟨[], by rw [hzero]; rfl⟩
    · obtain ⟨i, b, hi, hik⟩ := ht.noOrphan k hk hzero
      have hne : (s.node i).child b ≠ 0#16 := hik ▸ hzero
      obtain ⟨w, hw⟩ := ih i.toNat (by rw [← hn, ← hik]; exact (ht.childAllocated i b hi hne).2) i hi rfl
      exact ⟨w ++ [b], (follow_snoc _ _ _ _ _).mpr ⟨i, hw, hik, hzero⟩⟩

theorem nodecnt_le_card (hfits : s.nodecnt.toNat ≤ 65536) {paths : Finset (List Bool)}
    (h : ∀ w i, s.follow 0#16 w = some i → w ∈ paths) : s.nodecnt.toNat ≤ paths.card := by
  rw [← Finset.card_range s.nodecnt.toNat]
  refine Finset.card_le_card_of_surjOn s.pathEnd fun n hn => ?_
  have hlt : n < s.nodecnt.toNat := Finset.mem_range.mp hn
  have hidx : (BitVec.ofNat 16 n).toNat = n := by rw [BitVec.toNat_ofNat]; omega
  obtain ⟨w, hw⟩ := ht.path_exists (BitVec.ofNat 16 n) (by rwa [State.Allocated, hidx])
  exact ⟨w, h w _ hw, by rw [State.pathEnd, hw, Option.getD_some, hidx]⟩

variable (hroot : s.Allocated 0#16)
include hroot

/-- No node has two paths. -/
theorem TrieOk.path_unique {v w : List Bool} {i : NodeIdx} (hv : s.follow 0#16 v = some i) (hw : s.follow 0#16 w = some i) :
    v = w := by
  induction v using List.reverseRecOn generalizing w i with
  | nil =>
    obtain rfl : 0#16 = i := Option.some.inj hv
    exact (root_len hw).symm
  | append_singleton v b ih =>
    obtain ⟨p, hp, hpi, hne⟩ := (follow_snoc _ _ _ _ _).mp hv
    induction w using List.reverseRecOn with
    | nil => exact absurd (Option.some.inj hw).symm hne
    | append_singleton w c _ =>
      obtain ⟨q, hq, hqi, -⟩ := (follow_snoc _ _ _ _ _).mp hw
      obtain ⟨rfl, rfl⟩ := ht.oneParent p q b c (follow_allocated ht hroot hp) (follow_allocated ht hroot hq)
        (hpi ▸ hne) (hpi.trans hqi.symm)
      rw [ih hp hq]

theorem card_le_nodecnt {paths : Finset (List Bool)} (h : ∀ w ∈ paths, ∃ i, s.follow 0#16 w = some i) :
    paths.card ≤ s.nodecnt.toNat := by
  rw [← Finset.card_range s.nodecnt.toNat]
  refine Finset.card_le_card_of_injOn s.pathEnd (fun w hw => ?_) fun v hv w hw hvw => ?_
  · obtain ⟨i, hi⟩ := h w hw
    simp only [State.pathEnd, hi, Option.getD_some, Finset.coe_range, Set.mem_Iio]
    exact follow_allocated ht hroot hi
  · obtain ⟨i, hi⟩ := h v hv
    obtain ⟨j, hj⟩ := h w hw
    simp only [State.pathEnd, hi, hj, Option.getD_some] at hvw
    exact ht.path_unique hroot hi (BitVec.eq_of_toNat_eq hvw ▸ hj)

end

/-! ### The prefixes of a table -/

theorem mem_tail_inits {l w : List Bool} : w ∈ l.inits.tail ↔ w ≠ [] ∧ w <+: l := by
  cases l with
  | nil => simp
  | cons b rest => cases w <;> simp [List.cons_prefix_cons, and_comm, eq_comm]

theorem mem_codePrefixes {table : List (Byte × List Bool)} {w : List Bool} :
    w ∈ codePrefixes table ↔ w ≠ [] ∧ ∃ e ∈ table, w <+: e.2 := by
  simp only [codePrefixes, List.mem_dedup, List.mem_flatten, List.mem_map, exists_exists_and_eq_and, mem_tail_inits]
  tauto

/-- The empty string and the non-empty prefixes: what the nodes of a loaded trie stand for. -/
def allPrefixes (table : List (Byte × List Bool)) : Finset (List Bool) := insert [] (codePrefixes table).toFinset

theorem mem_allPrefixes {table : List (Byte × List Bool)} {w : List Bool} :
    w ∈ allPrefixes table ↔ w = [] ∨ ∃ e ∈ table, w <+: e.2 := by
  rw [allPrefixes, Finset.mem_insert, List.mem_toFinset, mem_codePrefixes]
  tauto

theorem card_allPrefixes (table : List (Byte × List Bool)) : (allPrefixes table).card = 1 + (codePrefixes table).length := by
  have hnodup : (codePrefixes table).Nodup := List.nodup_dedup _
  rw [allPrefixes, Finset.card_insert_of_notMem (by simp [mem_codePrefixes]), List.toFinset_card_of_nodup hnodup, Nat.add_comm]

/-! ### The shape of a trie -/

theorem lastSymbol_append (entries : List (Byte × List Bool)) (e : Byte × List Bool) (w : List Bool) :
    lastSymbol (entries ++ [e]) w = if e.2 = w then some e.1 else lastSymbol entries w := by
  simp only [lastSymbol, List.reverse_append, List.reverse_singleton, List.singleton_append, List.find?_cons]
  by_cases h : e.2 = w
  · simp [h]
  · rw [if_neg h, beq_false_of_ne h]

/-- The trie that the entries `entries` give, with the string `walked` walked into it: its paths are their prefixes, its
Leaves are the codes, each with the symbol of the last entry that has the code (R120, R121). -/
structure Shape (s : State) (entries : List (Byte × List Bool)) (walked : List Bool) : Prop where
  paths : ∀ w, (∃ i, s.follow 0#16 w = some i) ↔ w <+: walked ∨ ∃ e ∈ entries, w <+: e.2
  leaf : ∀ w i, s.follow 0#16 w = some i → ((s.node i).leaf = true ↔ ∃ e ∈ entries, e.2 = w)
  sym : ∀ w i, s.follow 0#16 w = some i → (s.node i).leaf = true → some (s.node i).sym = lastSymbol entries w

theorem Shape.of_nodes {s t : State} {entries : List (Byte × List Bool)} {walked : List Bool} (h : Shape s entries walked)
    (hn : t.nodes = s.nodes) : Shape t entries walked :=
  ⟨fun w => by rw [← h.paths w]; simp only [follow_eq hn],
    fun w i hw => by rw [node_congr hn]; exact h.leaf w i (follow_of hw hn),
    fun w i hw => by rw [node_congr hn]; exact h.sym w i (follow_of hw hn)⟩

/-- A root alone. -/
theorem shape_of_opened {s t : State} (nodes : t.nodes = s.nodes.write 0 .placeholder) : Shape t [] [] := by
  have hnode := node_of_opened nodes
  have hpath {w : List Bool} {i : NodeIdx} (hw : t.follow 0#16 w = some i) : w = [] ∧ i = 0#16 :=
    follow_of_childless (fun b => by rw [hnode, Node.child_placeholder]) hw
  have hinternal {w : List Bool} {i : NodeIdx} (hw : t.follow 0#16 w = some i) : (t.node i).leaf = false := by
    rw [(hpath hw).2, hnode]
    rfl
  refine ⟨fun w => ?_, fun w i hw => by simp [hinternal hw], fun w i hw hleaf => ?_⟩
  · simp only [List.not_mem_nil, false_and, exists_false, or_false, List.prefix_nil]
    exact ⟨fun ⟨i, hi⟩ => (hpath hi).1, fun h => ⟨0#16, h ▸ rfl⟩⟩
  · cases (hinternal hw).symm.trans hleaf

section
variable {s : State} {entries : List (Byte × List Bool)} {v : List Bool} {bit : Bool} {i : NodeIdx}

/-- Where the slot at the end of a path is free, the path ends. -/
theorem no_path_of_absent (hv : s.follow 0#16 v = some s.wpos) (absent : (s.node s.wpos).child bit = 0#16) (i : NodeIdx) :
    s.follow 0#16 (v ++ [bit]) ≠ some i := by
  intro h
  obtain ⟨q, hq, hqi, hne⟩ := (follow_snoc _ _ _ _ _).mp h
  obtain rfl : s.wpos = q := Option.some.inj (hv.symm.trans hq)
  exact hne (hqi.symm.trans absent)

/-- Closing an entry makes its code one of the codes. -/
theorem prefix_of_closed (x : Byte) (u w : List Bool) :
    (w <+: [] ∨ ∃ e ∈ entries ++ [(x, u)], w <+: e.2) ↔ w <+: u ∨ ∃ e ∈ entries, w <+: e.2 := by
  simp only [List.mem_append, List.mem_singleton, or_and_right, exists_or, exists_eq_left]
  constructor
  · rintro (hnil | hold | hu)
    · exact .inl (List.prefix_nil.mp hnil ▸ List.nil_prefix)
    · exact .inr hold
    · exact .inl hu
  · exact fun h => .inr h.symm

/-- A step of the walk along a link that is there changes nothing. -/
theorem Shape.walkedOld (h : Shape s entries v) (hi : s.follow 0#16 (v ++ [bit]) = some i) :
    Shape s entries (v ++ [bit]) := by
  refine ⟨fun w => ?_, h.leaf, h.sym⟩
  rw [h.paths, List.prefix_concat_iff, or_assoc]
  refine ⟨.inr, ?_⟩
  rintro (rfl | hw)
  · exact (h.paths _).mp ⟨i, hi⟩
  · exact hw

/-- A path past all the characters walked so far is the beginning of a code. -/
theorem Shape.code_of_path (h : Shape s entries v) (hi : s.follow 0#16 (v ++ [bit]) = some i) :
    ∃ e ∈ entries, v ++ [bit] <+: e.2 :=
  ((h.paths _).mp ⟨i, hi⟩).resolve_left fun hle => absurd hle.length_le (by simp)

end

/-! ### A grown trie -/

section
variable {s t : State} {bit : Bool} {n : Node} {v : List Bool} {entries : List (Byte × List Bool)} (hinv : Inv s)
  (phase : s.phase = .entry)
include hinv phase

theorem Inv.root_allocated : s.Allocated 0#16 := Nat.zero_lt_of_lt (hinv.wpos_placed phase).1

variable (hv : s.follow 0#16 v = some s.wpos) (absent : (s.node s.wpos).child bit = 0#16) (g : Grown s t bit s.nextNode n)
include hv absent g

/-- At the end of an old path stands the old flag and the old symbol. -/
theorem Inv.grown_node {w : List Bool} {i : NodeIdx} (hw : s.follow 0#16 w = some i) :
    w ≠ v ++ [bit] ∧ (t.node i).leaf = (s.node i).leaf ∧ (t.node i).sym = (s.node i).sym := by
  have hne : i ≠ s.nextNode := fun h => g.notAlloc (h ▸ follow_allocated hinv.trie (hinv.root_allocated phase) hw)
  exact ⟨fun h => no_path_of_absent hv absent i (h ▸ hw), by rw [g.leaf, if_neg hne], by rw [g.sym, if_neg hne]⟩

variable (fresh : n.Fresh)
include fresh

/-- A grown trie has one path more, that of the new node. -/
theorem Inv.grown_paths {w : List Bool} {i : NodeIdx} :
    t.follow 0#16 w = some i ↔ s.follow 0#16 w = some i ∨ (i = s.nextNode ∧ w = v ++ [bit]) := by
  have hroot := hinv.root_allocated phase
  rw [grown_follow g hinv.trie fresh.childless absent hroot]
  refine or_congr_right (and_congr_right fun _ => ⟨?_, fun hw => ⟨v, hw, hv⟩⟩)
  rintro ⟨u, rfl, hu⟩
  rw [hinv.trie.path_unique hroot hu hv]

theorem Inv.grown_path_iff (w : List Bool) :
    (∃ i, t.follow 0#16 w = some i) ↔ (∃ i, s.follow 0#16 w = some i) ∨ w = v ++ [bit] := by
  simp only [hinv.grown_paths phase hv absent g fresh, exists_or, exists_and_right, exists_eq, true_and]

/-- A new Internal node is a character more of the walk. -/
theorem Shape.walkedNew (h : Shape s entries v) (internal : n.leaf = false) : Shape t entries (v ++ [bit]) := by
  have hnode {w : List Bool} {i : NodeIdx} := hinv.grown_node phase hv absent g (w := w) (i := i)
  have hnew : (t.node s.nextNode).leaf = false := by rw [g.leaf, if_pos rfl, internal]
  refine ⟨fun w => ?_, fun w i hw => ?_, fun w i hw hleaf => ?_⟩
  · rw [hinv.grown_path_iff phase hv absent g fresh, h.paths, List.prefix_concat_iff, or_comm, or_assoc]
  all_goals rcases (hinv.grown_paths phase hv absent g fresh).mp hw with hold | ⟨rfl, rfl⟩
  · rw [(hnode hold).2.1]
    exact h.leaf w i hold
  · have hnone : ¬ ∃ e ∈ entries, e.2 = v ++ [bit] := by
      rintro ⟨e, he, heq⟩
      obtain ⟨i, hi⟩ := (h.paths (v ++ [bit])).mpr (.inr ⟨e, he, heq ▸ List.prefix_rfl⟩)
      exact no_path_of_absent hv absent i hi
    simp [hnew, hnone]
  · rw [(hnode hold).2.1] at hleaf
    rw [(hnode hold).2.2]
    exact h.sym w i hold hleaf
  · cases hnew.symm.trans hleaf

/-- A new Leaf is the end of an entry. -/
theorem Shape.newLeaf (h : Shape s entries v) (leaf : n.leaf = true) : Shape t (entries ++ [(n.sym, v ++ [bit])]) [] := by
  have hnode {w : List Bool} {i : NodeIdx} := hinv.grown_node phase hv absent g (w := w) (i := i)
  refine ⟨fun w => ?_, fun w i hw => ?_, fun w i hw hleaf => ?_⟩
  · rw [hinv.grown_path_iff phase hv absent g fresh, h.paths, prefix_of_closed, List.prefix_concat_iff, or_comm,
      or_assoc]
  all_goals rcases (hinv.grown_paths phase hv absent g fresh).mp hw with hold | ⟨rfl, rfl⟩
  · rw [(hnode hold).2.1, h.leaf w i hold]
    simp [or_and_right, exists_or, (hnode hold).1.symm]
  · rw [g.leaf, if_pos rfl]
    exact iff_of_true leaf ⟨_, List.mem_append_right _ (List.mem_singleton.mpr rfl), rfl⟩
  · rw [(hnode hold).2.1] at hleaf
    rw [(hnode hold).2.2, lastSymbol_append, if_neg (hnode hold).1.symm]
    exact h.sym w i hold hleaf
  · rw [lastSymbol_append, if_pos rfl, g.sym, if_pos rfl]

end

/-- Another symbol in a Leaf is the end of an entry with the Leaf's code. -/
theorem Shape.relabelled {s t : State} {v : List Bool} {entries : List (Byte × List Bool)} {ch : NodeIdx} {sym : Byte}
    (ht : TrieOk s) (hroot : s.Allocated 0#16) (hv : s.follow 0#16 v = some ch) (leaf : (s.node ch).leaf = true)
    (nodes : t.nodes = (s.writeNode ch { s.node ch with sym := sym }).nodes) (h : Shape s entries v) :
    Shape t (entries ++ [(sym, v)]) [] := by
  have hfollow := relabelled_follow ht nodes hroot
  have hcode := (h.leaf v ch hv).mp leaf
  refine ⟨fun w => ?_, fun w i hw => ?_, fun w i hw hleaf => ?_⟩
  · simp only [hfollow, h.paths, prefix_of_closed]
  all_goals rw [hfollow] at hw
  · rw [relabelled_leaf nodes, h.leaf w i hw]
    simp only [List.mem_append, List.mem_singleton, or_and_right, exists_or, exists_eq_left]
    exact ⟨.inl, fun hor => hor.elim id fun heq => heq ▸ hcode⟩
  · rw [relabelled_leaf nodes] at hleaf
    rw [lastSymbol_append, node_relabelled nodes]
    by_cases heq : v = w
    · subst heq
      rw [if_pos (Option.some.inj (hv.symm.trans hw)), if_pos rfl]
    · have hne : ch ≠ i := by
        rintro rfl
        exact heq (ht.path_unique hroot hv hw)
      rw [if_neg hne, if_neg heq]
      exact h.sym w i hw hleaf

end Sys2Proof.Machine

/-! PROOFS. 41_tree_reconstructor.md R120 to R122: a load, character by character and entry by entry, either keeps the shape
that the entries so far give the trie, or ends in a fault for a reason that lies in the table. -/

namespace Sys2Proof.Machine

/-! ### The actions of a load -/

/-- The actions of TABLE and CODE (30_encoding.md R78). -/
inductive LoadAction : Instr → Prop
  | arg0 (v : Word) : LoadAction (.wArg0 v)
  | arg1 (v : Word) : LoadAction (.wArg1 v)
  | begin : LoadAction .tblBegin
  | entry : LoadAction .tblEntry
  | char (v : Word) : LoadAction (.dinEntry v)

theorem LoadAction.not_abortOrReset {i : Instr} (h : LoadAction i) : ¬ IsAbortOrReset i := by
  cases h <;> simp [IsAbortOrReset]

/-- `s` is a state of a load that began in `s₀`: OUTQ is not touched. -/
structure Loading (s₀ s : State) : Prop where
  inv : Inv s
  params : s.params = s₀.params
  outq : s.outq = s₀.outq
  phase : s.phase ≠ .decode ∧ s.phase ≠ .unpack

theorem Loading.after {s₀ s : State} {i : Instr} (h : Loading s₀ s) (hi : LoadAction i)
    (phase : (after i s).phase ≠ .decode ∧ (Machine.after i s).phase ≠ .unpack) : Loading s₀ (Machine.after i s) := by
  refine ⟨h.inv.after i, (after_params i s).trans h.params, ?_, phase⟩
  rcases (exec_effect (exec_after i s)).outq_writers with hq | hreset | ⟨-, -, -, -, hphase, -⟩ | ⟨-, -, rfl⟩
  · exact hq.trans h.outq
  · exact absurd hreset hi.not_abortOrReset
  · exact absurd hphase (not_or.mpr h.phase)
  · cases hi

/-! ### A load that has failed -/

/-- A load of `table` has ended in one of the two faults of the reconstructor, with the reason that R122 gives for it; `n` is
NNODES. -/
structure LoadFault (table : List (Byte × List Bool)) (n : Nat) (s : State) : Prop where
  phase : s.phase = .error
  tree : s.treeValid = false
  cause : (s.errCause = some .prefixConflict ∧ ¬ NoProperPrefix table)
    ∨ (s.errCause = some .nodeExhausted ∧ n < (codePrefixes table).length + 1)

/-- The rest of the load changes nothing about it. -/
theorem LoadFault.after {table : List (Byte × List Bool)} {n : Nat} {s : State} {i : Instr} (h : LoadFault table n s)
    (hi : LoadAction i) : LoadFault table n (after i s) := by
  have heffect := exec_effect (exec_after i s)
  rcases heffect.from_error h.phase with ⟨hphase, hcause, -⟩ | ⟨hreset, -⟩
  · refine ⟨hphase, ?_, by rw [hcause]; exact h.cause⟩
    rcases heffect.treeValid_writers with heq | ⟨-, -, hentry, -⟩ | ⟨hfalse, -⟩
    · exact heq.trans h.tree
    · cases h.phase.symm.trans hentry
    · exact hfalse
  · exact absurd hreset hi.not_abortOrReset

theorem LoadFault.chars {table : List (Byte × List Bool)} {n : Nat} {s : State} (h : LoadFault table n s) (bits : List Bool) :
    LoadFault table n (bits.foldl (fun s bit => Machine.after (.dinEntry (byteWord (charOfBit bit))) s) s) := by
  induction bits generalizing s with
  | nil => exact h
  | cons bit rest ih => exact ih (h.after (.char _))

theorem LoadFault.entries {table : List (Byte × List Bool)} {n : Nat} {s : State} (h : LoadFault table n s)
    (todo : List (Byte × List Bool)) : LoadFault table n (todo.foldl (fun s e => loadEntry e s) s) := by
  induction todo generalizing s with
  | nil => exact h
  | cons e rest ih => exact ih ((((h.after (.arg0 _)).after (.arg1 _)).after .entry).chars e.2)

/-! ### Between the entries, and within one -/

/-- The entries `done` are loaded, `k` are left. -/
structure Between (s₀ s : State) (done : List (Byte × List Bool)) (k : Nat) : Prop extends Loading s₀ s where
  shape : Shape s done []
  loaded : k = 0 → s.phase = .idle ∧ s.treeValid = true ∧ s.done = true
  waiting : k ≠ 0 → s.phase = .load ∧ s.remain.toNat = k

/-- The entries `done` are loaded, and of the code of `e` the bits `v`; the bits `rest` and `k` entries are left. -/
structure Entering (s₀ s : State) (done : List (Byte × List Bool)) (e : Byte × List Bool) (v rest : List Bool) (k : Nat) :
    Prop extends Loading s₀ s where
  entry : s.phase = .entry
  code : e.2 = v ++ rest
  left : s.eLeft.toNat = rest.length
  sym : s.eSym = e.1
  remain : s.remain.toNat = k + 1
  path : s.follow 0#16 v = some s.wpos
  shape : Shape s done v

/-- Closing an entry. -/
theorem Loading.closed {s₀ s : State} {done : List (Byte × List Bool)} {k : Nat} (h : Loading s₀ (closeEntry s))
    (hremain : s.remain.toNat = k + 1) (hshape : Shape s done []) : Between s₀ (closeEntry s) done k := by
  have hleft : (s.remain - 1#9).toNat = k := by rw [toNat_sub_one (n := 9) (by omega), hremain]; rfl
  refine ⟨h, hshape.of_nodes (by simp), fun hk => ?_, fun hk => ?_⟩
  · have hlast : s.remain = 1#9 := BitVec.eq_of_toNat_eq (by rw [hremain, hk]; rfl)
    rw [closeEntry_eq, if_pos hlast]
    exact ⟨rfl, rfl, rfl⟩
  · have hmore : s.remain ≠ 1#9 := by
      rintro heq
      rw [heq] at hremain
      exact hk (Nat.succ.inj hremain).symm
    rw [closeEntry_eq, if_neg hmore]
    exact ⟨rfl, hleft⟩

theorem dinByte_byteWord (b : Byte) : dinByte (byteWord b) = b := by
  refine BitVec.eq_of_getLsbD_eq fun j hj => ?_
  rw [getLsbD_dinByte _ hj, byteWord, BitVec.getLsbD_setWidth]
  simp only [show j < 32 by omega, decide_true, Bool.true_and]

theorem after_char (bit : Bool) {s : State} (phase : s.phase = .entry) :
    after (.dinEntry (byteWord (charOfBit bit))) s = entryByte (charOfBit bit) s := by
  simp only [after, exec_dinEntry _ phase, dinByte_byteWord]

section
variable {s₀ s : State} {done todo table : List (Byte × List Bool)} {e : Byte × List Bool} {v rest : List Bool} {bit : Bool}
  {k : Nat} (h : Entering s₀ s done e v (bit :: rest) k) (htable : table = done ++ e :: todo)
include h

theorem Entering.fault_of_raise {cause : Cause} {info : Word}
    (hstep : after (.dinEntry (byteWord (charOfBit bit))) s = raise cause info s)
    (hcause : (cause = .prefixConflict ∧ ¬ NoProperPrefix table)
      ∨ (cause = .nodeExhausted ∧ s₀.params.nnodes < (codePrefixes table).length + 1)) :
    LoadFault table s₀.params.nnodes (after (.dinEntry (byteWord (charOfBit bit))) s) := by
  rw [hstep]
  exact ⟨rfl, (h.inv.load.opened (.inr h.entry)).1, by simpa [raise] using hcause⟩

theorem Entering.child_path (present : (s.node s.wpos).child bit ≠ 0#16) :
    s.follow 0#16 (v ++ [bit]) = some ((s.node s.wpos).child bit) :=
  (follow_snoc _ _ _ _ _).mpr ⟨s.wpos, h.path, rfl, present⟩

include htable

/-- A full arena has no room for all the prefixes: each path is one, and so is the string whose node is missing. -/
theorem Entering.too_many_prefixes (absent : (s.node s.wpos).child bit = 0#16) (full : s.nodecnt.toNat = s.params.nnodes) :
    s₀.params.nnodes < (codePrefixes table).length + 1 := by
  have hin : v ++ [bit] ∈ allPrefixes table :=
    mem_allPrefixes.mpr (.inr ⟨e, by simp [htable], by rw [h.code]; exact ⟨rest, by simp⟩⟩)
  have hpaths (w : List Bool) (i : NodeIdx) (hw : s.follow 0#16 w = some i) : w ∈ (allPrefixes table).erase (v ++ [bit]) := by
    refine Finset.mem_erase.mpr ⟨fun heq => no_path_of_absent h.path absent i (heq ▸ hw), mem_allPrefixes.mpr (.inr ?_)⟩
    rcases (h.shape.paths w).mp ⟨i, hw⟩ with hv | ⟨d, hd, hwd⟩
    · exact ⟨e, by simp [htable], hv.trans (by rw [h.code]; exact List.prefix_append _ _)⟩
    · exact ⟨d, by simp [htable, hd], hwd⟩
  have hfits : s.nodecnt.toNat ≤ 65536 := by
    rw [full]
    exact h.inv.params.2.1
  have hcard := nodecnt_le_card h.inv.trie hfits hpaths
  rw [Finset.card_erase_of_mem hin, card_allPrefixes, full, h.params] at hcard
  omega

theorem Entering.exhausted (absent : (s.node s.wpos).child bit = 0#16) (full : s.nodecnt.toNat = s.params.nnodes) :
    LoadFault table s₀.params.nnodes (after (.dinEntry (byteWord (charOfBit bit))) s) :=
  h.fault_of_raise ((after_char bit h.entry).trans (entryByte_of_exhausted absent full))
    (.inr ⟨rfl, h.too_many_prefixes htable absent full⟩)

/-- A Leaf on the way is the end of a code that the code at hand goes beyond. -/
theorem Entering.conflict_of_leaf (hrest : rest ≠ []) (present : (s.node s.wpos).child bit ≠ 0#16)
    (leaf : (s.node ((s.node s.wpos).child bit)).leaf = true) : ¬ NoProperPrefix table := by
  intro hfree
  obtain ⟨d, hd, hcode⟩ := (h.shape.leaf _ _ (h.child_path present)).mp leaf
  have heq := hfree d (by simp [htable, hd]) e (by simp [htable]) (by rw [hcode, h.code]; exact ⟨rest, by simp⟩)
  rw [hcode, h.code] at heq
  exact hrest (by simpa using heq)

/-- An Internal node at the end of the code at hand is passed by a code that goes beyond it. -/
theorem Entering.conflict_of_internal (hrest : rest = []) (present : (s.node s.wpos).child bit ≠ 0#16)
    (internal : (s.node ((s.node s.wpos).child bit)).leaf = false) : ¬ NoProperPrefix table := by
  intro hfree
  have hpath := h.child_path present
  have hcode : e.2 = v ++ [bit] := hrest ▸ h.code
  obtain ⟨d, hd, hle⟩ := h.shape.code_of_path hpath
  have heq := hfree e (by simp [htable]) d (by simp [htable, hd]) (hcode ▸ hle)
  have hleaf := (h.shape.leaf _ _ hpath).mpr ⟨d, hd, heq.symm.trans hcode⟩
  cases internal.symm.trans hleaf

/-- A character that is not the last of its code. -/
theorem Entering.step (hrest : rest ≠ []) :
    LoadFault table s₀.params.nnodes (after (.dinEntry (byteWord (charOfBit bit))) s)
    ∨ Entering s₀ (after (.dinEntry (byteWord (charOfBit bit))) s) done e (v ++ [bit]) rest k := by
  have hlen : 1 ≤ rest.length := List.length_pos_iff.mpr hrest
  have hleft : s.eLeft.toNat = rest.length + 1 := h.left
  have hinner := entryByte_of_inner (s := s) bit (by omega)
  have hstep := after_char bit h.entry
  have hcode : e.2 = v ++ [bit] ++ rest := by rw [h.code]; simp
  have hcount : (s.eLeft - 1#8).toNat = rest.length := by rw [toNat_sub_one (n := 8) (by omega), hleft]; rfl
  rcases eq_or_ne ((s.node s.wpos).child bit) 0#16 with absent | present
  · by_cases full : s.nodecnt.toNat = s.params.nnodes
    · exact .inl (h.exhausted htable absent full)
    · have hnext := hstep.trans (hinner.trans (innerStep_of_missing absent full))
      have hl := h.toLoading.after (.char (byteWord (charOfBit bit))) (by rw [hnext]; simp [walkOn, h.entry])
      rw [hnext] at hl ⊢
      have g := h.inv.grown bit (n := .placeholder) h.entry full (t := walkOn s.nextNode
        { s with nodes := s.grownNodes bit .placeholder, nodecnt := s.nodecnt + 1#17 }) rfl rfl
      exact .inr ⟨hl, h.entry, hcode, hcount, h.sym, h.remain,
        (h.inv.grown_paths h.entry h.path absent g Node.fresh_placeholder).mpr (.inr ⟨rfl, rfl⟩),
        h.shape.walkedNew h.inv h.entry h.path absent g Node.fresh_placeholder rfl⟩
  · have hpath := h.child_path present
    cases leaf : (s.node ((s.node s.wpos).child bit)).leaf with
    | true =>
      exact .inl (h.fault_of_raise (hstep.trans (hinner.trans (innerStep_of_leaf present leaf)))
        (.inl ⟨rfl, h.conflict_of_leaf htable hrest present leaf⟩))
    | false =>
      have hnext := hstep.trans (hinner.trans (innerStep_of_internal present leaf))
      have hl := h.toLoading.after (.char (byteWord (charOfBit bit))) (by rw [hnext]; simp [walkOn, h.entry])
      rw [hnext] at hl ⊢
      exact .inr ⟨hl, h.entry, hcode, hcount, h.sym, h.remain, (follow_eq (s := s) (t := walkOn _ s) rfl _ _).trans hpath,
        (h.shape.walkedOld hpath).of_nodes rfl⟩

/-- The last character of a code. -/
theorem Entering.close (hrest : rest = []) :
    LoadFault table s₀.params.nnodes (after (.dinEntry (byteWord (charOfBit bit))) s)
    ∨ Between s₀ (after (.dinEntry (byteWord (charOfBit bit))) s) (done ++ [e]) k := by
  have hfinal := entryByte_of_final (s := s) bit (by rw [h.left, hrest]; rfl)
  have hstep := after_char bit h.entry
  have hentry : e = (s.eSym, v ++ [bit]) := Prod.ext h.sym.symm (hrest ▸ h.code)
  have hclosed (s1 : State) (hnext : after (.dinEntry (byteWord (charOfBit bit))) s = closeEntry s1)
      (hremain : s1.remain = s.remain) (hshape : Shape s1 (done ++ [e]) []) :
      Between s₀ (after (.dinEntry (byteWord (charOfBit bit))) s) (done ++ [e]) k := by
    have hl := h.toLoading.after (.char (byteWord (charOfBit bit))) (by
      rw [hnext]
      rcases closeEntry_phase s1 with hp | hp <;> simp [hp])
    rw [hnext] at hl ⊢
    exact hl.closed (hremain ▸ h.remain) hshape
  rcases eq_or_ne ((s.node s.wpos).child bit) 0#16 with absent | present
  · by_cases full : s.nodecnt.toNat = s.params.nnodes
    · exact .inl (h.exhausted htable absent full)
    · have g := h.inv.grown bit (n := .leafOf s.eSym) h.entry full
        (t := { s with nodes := s.grownNodes bit (.leafOf s.eSym), nodecnt := s.nodecnt + 1#17 }) rfl rfl
      refine .inr (hclosed _ (hstep.trans (hfinal.trans (finalStep_of_missing absent full))) rfl ?_)
      rw [hentry]
      exact h.shape.newLeaf h.inv h.entry h.path absent g (Node.fresh_leafOf _) rfl
  · have hpath := h.child_path present
    cases leaf : (s.node ((s.node s.wpos).child bit)).leaf with
    | true =>
      refine .inr (hclosed _ (hstep.trans (hfinal.trans (finalStep_of_leaf present leaf))) rfl ?_)
      rw [hentry]
      exact (h.shape.walkedOld hpath).relabelled h.inv.trie (h.inv.root_allocated h.entry) hpath leaf rfl
    | false =>
      exact .inl (h.fault_of_raise (hstep.trans (hfinal.trans (finalStep_of_internal present leaf)))
        (.inl ⟨rfl, h.conflict_of_internal htable hrest present leaf⟩))

end

/-- The bits of a code that are left, then the entry is closed. -/
theorem Entering.chars {s₀ s : State} {done todo table : List (Byte × List Bool)} {e : Byte × List Bool} {v rest : List Bool}
    {k : Nat} (h : Entering s₀ s done e v rest k) (htable : table = done ++ e :: todo) (hrest : rest ≠ []) :
    LoadFault table s₀.params.nnodes (rest.foldl (fun s bit => after (.dinEntry (byteWord (charOfBit bit))) s) s)
    ∨ Between s₀ (rest.foldl (fun s bit => after (.dinEntry (byteWord (charOfBit bit))) s) s) (done ++ [e]) k := by
  induction rest generalizing s v with
  | nil => exact absurd rfl hrest
  | cons bit rest ih =>
    by_cases hlast : rest = []
    · subst hlast
      exact h.close htable rfl
    · rcases h.step htable hlast with hfault | hnext
      · exact .inl (hfault.chars rest)
      · exact ih hnext hlast

/-! ### The openings -/

theorem signed_ofNat {n : Nat} (h : n < 2 ^ 31) : signed (BitVec.ofNat 32 n) = n := by
  have hnat : (BitVec.ofNat 32 n).toNat = n := by rw [BitVec.toNat_ofNat]; omega
  rw [signed, BitVec.toInt_eq_toNat_of_lt (by omega), hnat]

theorem open_entry {s : State} (e : Byte × List Bool) (phase : s.phase = .load) (hlo : 1 ≤ e.2.length)
    (hhi : e.2.length ≤ 255) :
    after .tblEntry (after (.wArg1 (BitVec.ofNat 32 e.2.length)) (after (.wArg0 (byteWord e.1)) s)) = { s with
      arg0 := byteWord e.1, arg1 := BitVec.ofNat 32 e.2.length, eSym := e.1, eLen := BitVec.ofNat 8 e.2.length,
      eLeft := BitVec.ofNat 8 e.2.length, wpos := 0#16, phase := .entry } := by
  have hsigned := signed_ofNat (n := e.2.length) (by omega)
  have hsym : (byteWord e.1).extractLsb' 0 8 = e.1 := dinByte_byteWord e.1
  have hlen : (BitVec.ofNat 32 e.2.length).setWidth 8 = BitVec.ofNat 8 e.2.length := by simp
  have h := tblEntry_of_legal (s := { s with arg0 := byteWord e.1, arg1 := BitVec.ofNat 32 e.2.length }) phase
    (by simp only [hsigned]; omega) (by simp only [hsigned]; omega)
  simp only [hsym, hlen] at h
  exact h

theorem open_table {s : State} {n : Nat} (phase : s.phase = .idle) (hlo : 1 ≤ n) (hhi : n ≤ 256) :
    after .tblBegin (after (.wArg0 (BitVec.ofNat 32 n)) s) = { s with
      arg0 := BitVec.ofNat 32 n, treeValid := false, done := false, nodes := s.nodes.write 0 .placeholder,
      nodecnt := 1#17, remain := BitVec.ofNat 9 n, phase := .load } := by
  have hsigned := signed_ofNat (n := n) (by omega)
  have hcount : (BitVec.ofNat 32 n).setWidth 9 = BitVec.ofNat 9 n := by simp
  have h := tblBegin_of_legal (s := { s with arg0 := BitVec.ofNat 32 n }) phase
    (by simp only [hsigned]; omega) (by simp only [hsigned]; omega)
  simp only [hcount] at h
  exact h

/-- The host opens the next entry. -/
theorem Between.opened {s₀ s : State} {done : List (Byte × List Bool)} {k : Nat} (h : Between s₀ s done (k + 1))
    (e : Byte × List Bool) (hlen : 1 ≤ e.2.length ∧ e.2.length ≤ 255) :
    Entering s₀ (after .tblEntry (after (.wArg1 (BitVec.ofNat 32 e.2.length)) (after (.wArg0 (byteWord e.1)) s)))
      done e [] e.2 k := by
  obtain ⟨hphase, hremain⟩ := h.waiting k.succ_ne_zero
  have hnext := open_entry e hphase hlen.1 hlen.2
  have hl := ((h.toLoading.after (.arg0 (byteWord e.1)) h.phase).after (.arg1 (BitVec.ofNat 32 e.2.length)) h.phase).after
    .entry (by rw [hnext]; simp)
  rw [hnext] at hl ⊢
  refine ⟨hl, rfl, rfl, ?_, rfl, hremain, rfl, h.shape.of_nodes rfl⟩
  rw [BitVec.toNat_ofNat]
  omega

/-- One entry. -/
theorem Between.entry {s₀ s : State} {done todo table : List (Byte × List Bool)} {e : Byte × List Bool} {k : Nat}
    (h : Between s₀ s done (k + 1)) (htable : table = done ++ e :: todo) (hlen : 1 ≤ e.2.length ∧ e.2.length ≤ 255) :
    LoadFault table s₀.params.nnodes (loadEntry e s) ∨ Between s₀ (loadEntry e s) (done ++ [e]) k :=
  (h.opened e hlen).chars htable (List.length_pos_iff.mp hlen.1)

/-- The entries that are left. -/
theorem Between.entries {s₀ s : State} {done todo table : List (Byte × List Bool)} (h : Between s₀ s done todo.length)
    (htable : table = done ++ todo) (hlen : ∀ e ∈ todo, 1 ≤ e.2.length ∧ e.2.length ≤ 255) :
    LoadFault table s₀.params.nnodes (todo.foldl (fun s e => loadEntry e s) s)
    ∨ Between s₀ (todo.foldl (fun s e => loadEntry e s) s) table 0 := by
  induction todo generalizing s done with
  | nil =>
    rw [List.append_nil] at htable
    exact .inr (htable ▸ h)
  | cons e todo ih =>
    rcases h.entry htable (hlen e List.mem_cons_self) with hfault | hnext
    · exact .inl (hfault.entries todo)
    · exact ih hnext (by simp [htable]) fun d hd => hlen d (List.mem_cons_of_mem e hd)

/-- A table is loaded with the trie of its codes, or the load has failed for a reason that lies in the table. -/
theorem loadTable_outcome {s : State} {table : List (Byte × List Bool)} (hinv : Inv s) (phase : s.phase = .idle)
    (hpos : 1 ≤ table.length) (hmax : table.length ≤ 256) (hlen : ∀ e ∈ table, 1 ≤ e.2.length ∧ e.2.length ≤ 255) :
    LoadFault table s.params.nnodes (loadTable table s) ∨ Between s (loadTable table s) table 0 := by
  have hnext := open_table phase hpos hmax
  have hstart : Loading s s := ⟨hinv, rfl, rfl, by simp [phase]⟩
  have hl := (hstart.after (.arg0 (BitVec.ofNat 32 table.length)) hstart.phase).after .begin (by rw [hnext]; simp)
  refine Between.entries (done := []) ?_ rfl hlen
  rw [hnext] at hl ⊢
  refine ⟨hl, shape_of_opened (s := s) rfl, fun h => absurd hpos (by omega), fun _ => ⟨rfl, ?_⟩⟩
  rw [BitVec.toNat_ofNat]
  omega

end Sys2Proof.Machine

/-! PROOFS. 41_tree_reconstructor.md R120 to R123 and 42_decode_automaton.md R148: what a loaded trie is, when a table loads, and
that its codes decode. -/

namespace Sys2Proof.Machine

/-! ### A loaded trie (R120 to R122) -/

/-- Below a Leaf there is no path. -/
theorem TrieOk.path_ends_on_leaf {s : State} (ht : TrieOk s) {p i : NodeIdx} (hp : s.Allocated p)
    (leaf : (s.node p).leaf = true) {w : List Bool} (hw : s.follow p w = some i) : w = [] ∧ i = p :=
  follow_of_childless ((Node.childless _).mpr (ht.leafChildless p hp leaf)) hw

section
variable {s f : State} {table : List (Byte × List Bool)} (h : Between s f table 0)
include h

theorem Between.root : f.Allocated 0#16 := h.inv.load.treeHasRoot (h.loaded rfl).2.1

theorem Between.path_iff (w : List Bool) : (∃ i, f.follow 0#16 w = some i) ↔ w ∈ allPrefixes table := by
  rw [h.shape.paths, List.prefix_nil, mem_allPrefixes]

theorem Between.code_leaf {e : Byte × List Bool} (he : e ∈ table) : ∃ i, f.follow 0#16 e.2 = some i ∧ (f.node i).leaf = true
    ∧ some (f.node i).sym = lastSymbol table e.2 := by
  obtain ⟨i, hi⟩ := (h.shape.paths e.2).mpr (.inr ⟨e, he, List.prefix_rfl⟩)
  have hleaf := (h.shape.leaf _ i hi).mpr ⟨e, he, rfl⟩
  exact ⟨i, hi, hleaf, h.shape.sym _ i hi hleaf⟩

theorem Between.nodecnt_eq : f.nodecnt.toNat = 1 + (codePrefixes table).length := by
  have hfits : f.nodecnt.toNat ≤ 65536 := h.inv.memory.countFits.trans h.inv.params.2.1
  rw [← card_allPrefixes]
  exact (nodecnt_le_card h.inv.trie hfits fun w i hw => (h.path_iff w).mp ⟨i, hw⟩).antisymm
    (card_le_nodecnt h.inv.trie h.root fun w hw => (h.path_iff w).mpr hw)

/-- A code stands on a Leaf, and below a Leaf is no code. -/
theorem Between.noProperPrefix : NoProperPrefix table := by
  rintro a ha b hb ⟨rest, hrest⟩
  obtain ⟨i, hi, hleaf, -⟩ := h.code_leaf ha
  obtain ⟨j, hj, -⟩ := h.code_leaf hb
  rw [← hrest, follow_append, hi] at hj
  rw [← hrest, (h.inv.trie.path_ends_on_leaf (follow_allocated h.inv.trie h.root hi) hleaf hj).1, List.append_nil]

theorem Between.fits : (codePrefixes table).length + 1 ≤ s.params.nnodes := by
  rw [Nat.add_comm, ← h.nodecnt_eq, ← h.params]
  exact h.inv.memory.countFits

/-- Where a code only begins, no code ends, so there is no Leaf. -/
theorem Between.prefix_internal {e : Byte × List Bool} (he : e ∈ table) {v : List Bool} (hle : v <+: e.2) (hne : v ≠ e.2) :
    ∃ i, f.follow 0#16 v = some i ∧ (f.node i).leaf = false := by
  obtain ⟨i, hi⟩ := (h.shape.paths v).mpr (.inr ⟨e, he, hle⟩)
  refine ⟨i, hi, Bool.eq_false_iff.mpr fun hleaf => ?_⟩
  obtain ⟨d, hd, rfl⟩ := (h.shape.leaf v i hi).mp hleaf
  exact hne (h.noProperPrefix d hd e he hle)

end

/-! ### When a table loads -/

/-- Neither fault of the reconstructor has a reason in a table that fits and none of whose codes goes beyond another. -/
theorem loadTable_of_prefixFree {s : State} {table : List (Byte × List Bool)} (hinv : Inv s) (phase : s.phase = .idle)
    (hpos : 1 ≤ table.length) (hmax : table.length ≤ 256) (hlen : ∀ e ∈ table, 1 ≤ e.2.length ∧ e.2.length ≤ 255)
    (hfree : NoProperPrefix table) (hfits : (codePrefixes table).length + 1 ≤ s.params.nnodes) :
    Between s (loadTable table s) table 0 := by
  refine (loadTable_outcome hinv phase hpos hmax hlen).resolve_left fun hfault => ?_
  rcases hfault.cause with ⟨-, hconflict⟩ | ⟨-, hmany⟩
  · exact hconflict hfree
  · omega

/-- Settles O54: the load completes, and the shape it leaves has the nodes, the paths and the Leaves. -/
theorem prefixFreeTableLoads : Obligations.PrefixFreeTableLoads := by
  intro s table hinv phase hpos hmax hlen hfree hfits f
  have h : Between s f table 0 := loadTable_of_prefixFree hinv phase hpos hmax hlen hfree hfits
  obtain ⟨hidle, htree, hdone⟩ := h.loaded rfl
  refine ⟨hidle, htree, hdone, h.nodecnt_eq, fun w => ?_, fun e he => h.code_leaf he, fun e he v => h.prefix_internal he⟩
  rw [Option.isSome_iff_exists, h.path_iff, allPrefixes, Finset.mem_insert, List.mem_toFinset]

/-- Settles O55: a load that completes is of a table that fits and none of whose codes goes beyond another. -/
theorem tablesThatDoNotFitFault : Obligations.TablesThatDoNotFitFault := by
  intro s table hinv phase hpos hmax hlen hbad f
  rcases loadTable_outcome hinv phase hpos hmax hlen with hfault | h
  · exact ⟨hfault.phase, hfault.tree, hfault.cause.imp And.left And.left⟩
  · rcases hbad with hconflict | hmany
    · exact absurd h.noProperPrefix hconflict
    · exact absurd h.fits (by omega)

theorem Node.eta (n : Node) : n = { leaf := n.leaf, sym := n.sym, left := n.child false, right := n.child true } := rfl

/-- Settles O57: the root has the path of the code alone, and the two nodes are the root and the code's Leaf. -/
theorem singleSymbolTableHasOneLeaf : Obligations.SingleSymbolTableHasOneLeaf := by
  intro s x hinv phase f
  have hprefixes : codePrefixes [(x, [false])] = [[false]] := rfl
  have h : Between s f [(x, [false])] 0 :=
    loadTable_of_prefixFree hinv phase (by simp) (by simp) (by simp) (by simp [NoProperPrefix])
      (by rw [hprefixes]; exact hinv.params.1)
  obtain ⟨hidle, htree, hdone⟩ := h.loaded rfl
  have hcount : f.nodecnt.toNat = 2 := h.nodecnt_eq
  obtain ⟨i, hi, hleaf, hsym⟩ := h.code_leaf List.mem_cons_self
  have halloc := follow_allocated h.inv.trie h.root hi
  obtain ⟨root, hroot, hchild, hne⟩ := (follow_snoc f 0#16 i [] false).mp hi
  obtain rfl : 0#16 = root := Option.some.inj hroot
  have hone : i = 1#16 := by
    refine BitVec.eq_of_toNat_eq ?_
    have hnat : i.toNat ≠ 0 := fun h0 => hne (BitVec.eq_of_toNat_eq h0)
    rw [State.Allocated, hcount] at halloc
    change i.toNat = 1
    omega
  have hright : (f.node 0#16).child true = 0#16 := by
    by_contra hpresent
    have hpath := (h.shape.paths [true]).mp ⟨_, (follow_snoc f 0#16 _ [] true).mpr ⟨0#16, rfl, rfl, hpresent⟩⟩
    simp at hpath
  have hinternal := h.inv.trie.rootInternal h.root
  have hchildless := (Node.childless _).mpr (h.inv.trie.leafChildless i halloc hleaf)
  have hx : (f.node i).sym = x := Option.some.inj hsym
  refine ⟨hidle, htree, hdone, BitVec.eq_of_toNat_eq hcount, ?_, ?_⟩
  · rw [Node.eta (f.node 0#16), hinternal, h.inv.trie.internalSymZero 0#16 h.root hinternal, hchild, hright, hone]
  · rw [← hone, Node.eta (f.node i), hleaf, hx, hchildless, hchildless]

/-! ### Decoding the codes of a buffer (R148) -/

/-- The walk along the path to a Leaf emits its symbol at the end, and nothing before: no Leaf is passed. -/
theorem walk_path_to_leaf {s : State} (ht : TrieOk s) {w : List Bool} {p i : NodeIdx} (hp : s.Allocated p)
    (hw : s.follow p w = some i) (hne : w ≠ []) (leaf : (s.node i).leaf = true) :
    walk s.node p w = { out := [(s.node i).sym], stepped := w.length, pos := 0#16, absent := false } := by
  induction w generalizing p with
  | nil => exact absurd rfl hne
  | cons bit rest ih =>
    by_cases absent : (s.node p).child bit = 0#16
    · simp [State.follow, absent] at hw
    · have hchild := (ht.childAllocated p bit hp absent).1
      rw [State.follow, if_neg absent] at hw
      rw [walk, if_neg absent]
      split
      case isTrue hleaf =>
        obtain ⟨rfl, rfl⟩ := ht.path_ends_on_leaf hchild hleaf hw
        rfl
      case isFalse hinternal =>
        have hrest : rest ≠ [] := by
          rintro rfl
          exact hinternal (Option.some.inj hw ▸ leaf)
        rw [ih hchild hw hrest]
        rfl

theorem lastSymbol_of_nodup {table : List (Byte × List Bool)} (hnodup : (table.map fun e => e.2).Nodup)
    {e : Byte × List Bool} (he : e ∈ table) : lastSymbol table e.2 = some e.1 := by
  cases hfind : table.reverse.find? (fun d => d.2 == e.2) with
  | none => exact absurd (List.find?_eq_none.mp hfind e (List.mem_reverse.mpr he)) (by simp)
  | some d =>
    have hd : d = e := List.inj_on_of_nodup_map hnodup (List.mem_reverse.mp (List.mem_of_find?_eq_some hfind)) he
      (by simpa using List.find?_some hfind)
    rw [lastSymbol, hfind, hd]
    rfl

/-- The walk over the codes of a buffer emits the buffer, and ends at the root. -/
theorem Between.walk_codes {s f : State} {table : List (Byte × List Bool)} (h : Between s f table 0)
    (hlen : ∀ e ∈ table, 1 ≤ e.2.length ∧ e.2.length ≤ 255) (hnodup : (table.map fun e => e.2).Nodup)
    (code : Byte → List Bool) {buffer : List Byte} (hcode : ∀ x ∈ buffer, (x, code x) ∈ table) :
    decodeRecord f.node (buffer.flatMap code) = (buffer, .wellFormed) := by
  have hwalk : walk f.node 0#16 (buffer.flatMap code)
      = { out := buffer, stepped := (buffer.flatMap code).length, pos := 0#16, absent := false } := by
    induction buffer with
    | nil => rfl
    | cons x rest ih =>
      have hx := hcode x List.mem_cons_self
      obtain ⟨i, hi, hleaf, hsym⟩ := h.code_leaf hx
      rw [lastSymbol_of_nodup hnodup hx] at hsym
      have hne : code x ≠ [] := List.length_pos_iff.mp (hlen _ hx).1
      rw [List.flatMap_cons, walk_append, walk_path_to_leaf h.inv.trie h.root hi hne hleaf,
        ih fun y hy => hcode y (List.mem_cons_of_mem x hy), Option.some.inj hsym]
      simp
  rw [decodeRecord, Walk.verdict, hwalk]
  rfl

/-- Settles O56: the record decodes what it packs, and the walk over the codes emits the buffer. -/
theorem decodeOfEncodedBufferIsTheBuffer : Obligations.DecodeOfEncodedBufferIsTheBuffer := by
  intro s table code buffer hinv phase hq hpos hmax hlen hfree hnodup hfits hcode p hbits r
  have h : Between s (loadTable table s) table 0 := loadTable_of_prefixFree hinv phase hpos hmax hlen hfree hfits
  obtain ⟨hidle, htree, -⟩ := h.loaded rfl
  have htrail : p.2.2 ≤ 8 := (trail_le _).2
  have hl := signed_ofNat hbits
  have ht : signed (BitVec.ofNat 32 p.2.2) = p.2.2 := signed_ofNat (by omega)
  have hlegal : recordFault (BitVec.ofNat 32 p.2.1) (BitVec.ofNat 32 p.2.2) = none :=
    recordFault_of_legal (by omega) (by rw [hl, ht]; rfl)
  have hlnat : (BitVec.ofNat 32 p.2.1).toNat = p.2.1 := by rw [BitVec.toNat_ofNat]; omega
  have htnat : (BitVec.ofNat 32 p.2.2).toNat = p.2.2 := by rw [BitVec.toNat_ofNat]; omega
  have hbytes : (p.1.map byteWord).map (fun v => v.extractLsb' 0 8) = p.1 := by
    rw [List.map_map]
    exact (List.map_congr_left fun b _ => dinByte_byteWord b).trans (List.map_id _)
  obtain ⟨hout, -, -, -, hend⟩ := decodeRecordEmitsDecode _ _ _ (p.1.map byteWord) h.inv hidle htree (h.outq.trans hq) hlegal
    (by rw [List.length_map, hlnat]; exact length_pack _)
  rw [hbytes, hlnat, htnat, unpack_pack, h.walk_codes hlen hnodup code hcode] at hout hend
  exact ⟨hout, hend.1, hend.2.1⟩

end Sys2Proof.Machine
